-- ==== Sys2Proof/Word.lean ====
section
/-! DEFINITION. The word and byte types of the block (spec/00_scope.md R8, spec/20_memory.md R82). -/

namespace Sys2Proof

/-- One 64-bit word: a register, a bank word, a command word, the pattern of a binary64 value (R8, R40). -/
abbrev Word := BitVec 64

/-- One byte of a bank word, numbered as R82 numbers it. -/
abbrev Byte := BitVec 8

end Sys2Proof
end

