-- ==== Sys2Proof/Config.lean ====
section
/-! DEFINITION. The implementation parameters of spec/00_scope.md R7, and the constants without a body that stand for
every value the spec leaves open. -/

namespace Sys2Proof

/-- `GZ_OUT_FORM` (R7, R236): which reading of the final complex multiply the block was built with. -/
inductive OutForm where
  | bin
  | pair
deriving DecidableEq, Repr

/-- `TRIG` (R7, R158): the reference unit (correctly rounded), or any other admissible unit, known by a number. -/
inductive TrigUnit where
  | reference
  | other (id : Nat)
deriving DecidableEq, Repr

/-- The parameters a block is built with (R7). They are plain data, carried by the state and changed by no step, so that a
statement about every state is a statement about every block. -/
structure Config where
  /-- `LOG2_NMAX`, 1 to 13. -/
  log2Nmax : Nat
  /-- `GZ_W_QN`, 5 to 30. -/
  gzWQn : Nat
  /-- `GZ_COEF_WIDE`. -/
  gzCoefWide : Bool
  /-- `GZ_OUT_FORM`. -/
  gzOutForm : OutForm
  /-- `MAGPWR_EPS`, a binary64 pattern, finite and at least `2^-1000`. -/
  magpwrEps : Word
  /-- `TRIG`. -/
  trig : TrigUnit
deriving DecidableEq, Repr

/-- The reference values of R7's table. DESIGN CHOICE (log entry 1): reset builds the block with them. -/
def Config.reference : Config where
  log2Nmax := 10
  gzWQn := 15
  gzCoefWide := false
  gzOutForm := .bin
  magpwrEps := 0x3D719799812DEA11#64
  trig := .reference

/-- `NMAX`, the number of words in a bank (R7). -/
def Config.nmax (c : Config) : Nat := 2 ^ c.log2Nmax

/-- The legal ranges of R7. A positive finite binary64 is at least `2^-1000` exactly when its pattern is at least
`0x0170…` as a number. -/
def Config.valid (c : Config) : Bool :=
  decide (1 ≤ c.log2Nmax) && decide (c.log2Nmax ≤ 13) && decide (5 ≤ c.gzWQn) && decide (c.gzWQn ≤ 30)
    && decide (0x0170000000000000 ≤ c.magpwrEps.toNat) && decide (c.magpwrEps.toNat < 0x7FF0000000000000)

/-- The cosine of a TRIG unit other than the reference one, before R158's limits are put on it (log entry 2). -/
opaque Config.otherCos : Nat → Word → Word

/-- The sine of a TRIG unit other than the reference one, before R158's limits are put on it (log entry 2). -/
opaque Config.otherSin : Nat → Word → Word

/-- What the bank word at a bus offset holds after the reset of that number, until it is written (R53, R87; log entry 5). -/
opaque Config.powerOnWord : Nat → Nat → Word

/-- What a hidden engine register holds after a command that used it: the number of the draw, then the register
(R49 to R52, spec/93 I14; log entry 6). -/
opaque Config.leftover : Nat → Nat → Word

end Sys2Proof
end

