-- ==== Sys2Proof/Syntax.lean ====
section
/-! DEFINITION. The seven commands of spec/opcode_table.json as syntax (spec/30_encoding.md R121, R122). -/

namespace Sys2Proof

/-- A data bank (R40, R123). -/
inductive Bank where
  | A
  | B
  | C
deriving DecidableEq, Repr

/-- One constructor per row of the opcode table, with the bank operands in the order BA, BB, BC (R122, R127). -/
inductive Instr where
  /-- `FFT ra, rb` (R183). -/
  | fft (ra rb : Bank)
  /-- `IFFT ra, rb` (R185). -/
  | ifft (ra rb : Bank)
  /-- `DCT ra` (R190). -/
  | dct (ra : Bank)
  /-- `HANN ra` (R200). -/
  | hann (ra : Bank)
  /-- `FILTER ra, rb` (R205). -/
  | filter (ra rb : Bank)
  /-- `MAGPWR ra, rb, rc` (R210). -/
  | magpwr (ra rb rc : Bank)
  /-- `GOERTZEL ra` (R226). -/
  | goertzel (ra : Bank)
deriving DecidableEq, Repr

end Sys2Proof
end

