-- ==== Sys2Proof/WellFormed.lean ====
section
/-! DEFINITION. The static legality of a command: the bank combinations spec/60_exceptions.md R251 admits. Every other
limit on a command's fields is carried by the types of its operands (a bank code 3 is no `Bank`). -/

namespace Sys2Proof

/-- A command is well formed when its bank operands are a legal combination: the two rails of FFT and of IFFT are distinct
banks; no other command restricts them (R98, R251). -/
def Instr.wellFormed : Instr → Bool
  | .fft ra rb => ra != rb
  | .ifft ra rb => ra != rb
  | .dct _ => true
  | .hann _ => true
  | .filter _ _ => true
  | .magpwr _ _ _ => true
  | .goertzel _ => true

end Sys2Proof
end

