-- ==== Sys2Proof/Decode.lean ====
section
/-! DEFINITION. Decoding a command word (spec/30_encoding.md R120 to R126), total and rejecting by name, and the encoder
(R127). -/

namespace Sys2Proof

/-- Why a command word is malformed (R125). Each of them is reported with error code CMD (R249). -/
inductive DecodeReject where
  /-- (a): OP is `0x0` or `0x8` to `0xF`. -/
  | reservedOp
  /-- (b): bits `[63:10]` are not zero. -/
  | reservedBits
  /-- (c): a field the command does not use is not zero. -/
  | unusedField
  /-- (d): a field the command uses holds bank code 3. -/
  | reservedBank
  /-- Not a word: a command word is exactly eight bytes (R126). -/
  | notOneWord
deriving DecidableEq, Repr

/-- OP, bits `[3:0]` (R120). -/
def opField (v : Word) : BitVec 4 := v.extractLsb' 0 4

/-- BA, bits `[5:4]` (R120). -/
def baField (v : Word) : BitVec 2 := v.extractLsb' 4 2

/-- BB, bits `[7:6]` (R120). -/
def bbField (v : Word) : BitVec 2 := v.extractLsb' 6 2

/-- BC, bits `[9:8]` (R120). -/
def bcField (v : Word) : BitVec 2 := v.extractLsb' 8 2

/-- RES, bits `[63:10]` (R120). -/
def resField (v : Word) : BitVec 54 := v.extractLsb' 10 54

/-- The bank a code names; code 3 is reserved (R123). -/
def bankOfCode (c : BitVec 2) : Except DecodeReject Bank :=
  if c = 0#2 then .ok .A
  else if c = 1#2 then .ok .B
  else if c = 2#2 then .ok .C
  else .error .reservedBank

/-- A field that R122 marks 0. -/
def zeroField (c : BitVec 2) : Except DecodeReject Unit :=
  if c = 0#2 then .ok () else .error .unusedField

/-- The command of a word whose reserved bits are zero (R121, R122). -/
def decodeFields (op : BitVec 4) (ba bb bc : BitVec 2) : Except DecodeReject Instr :=
  match op.toNat with
  | 1 => do zeroField bc; return .fft (← bankOfCode ba) (← bankOfCode bb)
  | 2 => do zeroField bc; return .ifft (← bankOfCode ba) (← bankOfCode bb)
  | 3 => do zeroField bb; zeroField bc; return .dct (← bankOfCode ba)
  | 4 => do zeroField bb; zeroField bc; return .hann (← bankOfCode ba)
  | 5 => do zeroField bc; return .filter (← bankOfCode ba) (← bankOfCode bb)
  | 6 => do return .magpwr (← bankOfCode ba) (← bankOfCode bb) (← bankOfCode bc)
  | 7 => do zeroField bb; zeroField bc; return .goertzel (← bankOfCode ba)
  | _ => .error .reservedOp

/-- The command a 64-bit word stands for, or why it is malformed (R120 to R125). -/
def decode (v : Word) : Except DecodeReject Instr :=
  if resField v = 0#54 then decodeFields (opField v) (baField v) (bbField v) (bcField v)
  else .error .reservedBits

/-- R125's own predicate, written as the spec writes it and beside the decoder. -/
def malformed (v : Word) : Bool :=
  let op := (opField v).toNat
  !(decide (1 ≤ op) && decide (op ≤ 7))
    || decide (resField v ≠ 0#54)
    || decide (baField v = 3#2)
    || ((op == 3 || op == 4 || op == 7) && decide (bbField v ≠ 0#2))
    || ((op == 1 || op == 2 || op == 5 || op == 6) && decide (bbField v = 3#2))
    || (op != 6 && decide (bcField v ≠ 0#2))
    || (op == 6 && decide (bcField v = 3#2))

/-- The 64-bit word whose byte `k` is bits `[8k+7:8k]` (R82). -/
def wordOfBytes : List Byte → Word
  | [] => 0#64
  | b :: bs => b.setWidth 64 ||| (wordOfBytes bs <<< 8)

/-- The bytes of a word, byte 0 first (R82). -/
def bytesOfWord : Nat → Word → List Byte
  | 0, _ => []
  | n + 1, w => w.setWidth 8 :: bytesOfWord n (w >>> 8)

/-- Decoding any string of bytes: a command is exactly one word of eight bytes, little-endian (R82, R126). -/
def decodeBytes (bs : List Byte) : Except DecodeReject Instr :=
  if bs.length = 8 then decode (wordOfBytes bs) else .error .notOneWord

/-- The code of a bank (R123). -/
def Bank.code : Bank → Nat
  | .A => 0
  | .B => 1
  | .C => 2

/-- The command word of a command: the sums of R127's table. -/
def encode : Instr → Word
  | .fft ra rb => BitVec.ofNat 64 (0x1 + ra.code * 2 ^ 4 + rb.code * 2 ^ 6)
  | .ifft ra rb => BitVec.ofNat 64 (0x2 + ra.code * 2 ^ 4 + rb.code * 2 ^ 6)
  | .dct ra => BitVec.ofNat 64 (0x3 + ra.code * 2 ^ 4)
  | .hann ra => BitVec.ofNat 64 (0x4 + ra.code * 2 ^ 4)
  | .filter ra rb => BitVec.ofNat 64 (0x5 + ra.code * 2 ^ 4 + rb.code * 2 ^ 6)
  | .magpwr ra rb rc => BitVec.ofNat 64 (0x6 + ra.code * 2 ^ 4 + rb.code * 2 ^ 6 + rc.code * 2 ^ 8)
  | .goertzel ra => BitVec.ofNat 64 (0x7 + ra.code * 2 ^ 4)

/-- The word an opcode-table row's bits stand for: `w` has `nbits` bits and every bit above them is zero. -/
def tableWord (nbits w : Nat) : Word := BitVec.ofNat 64 (w % 2 ^ nbits)

/-- The instruction the decoder reads from an instruction whose bits are `w`: the word is laid out in the byte order of the
bus and its eight bytes are decoded. -/
def decodeTableWord (nbits w : Nat) : Option Instr :=
  match decodeBytes (bytesOfWord 8 (tableWord nbits w)) with
  | .ok i => some i
  | .error _ => none

end Sys2Proof
end

