-- ==== Sys2Proof/Machine/State.lean ====
section
/-! DEFINITION. The state of the block (spec/10_state.md), the outside world's pending events, the reasons a step can stop,
and the state after reset. -/

namespace Sys2Proof.Machine

open Sys2Proof

/-- The code STATUS.ERR records (R247). Codes 5 to 15 are never produced, so they are not here. -/
inductive ErrCode where
  | none
  | cmd
  | operand
  | len
  | arg
deriving DecidableEq, Repr

/-- The fields of STATUS (R35, R47). -/
structure Status where
  busy : Bool
  done : Bool
  err : ErrCode
  ovf : Bool
  overrun : Bool
deriving DecidableEq, Repr

/-- The result registers GZ_MAG, GZ_Y and GZ_COEF, field by field (R42 to R44). -/
structure GoertzelRegs where
  /-- GZ_MAG.MAG. -/
  mag : BitVec 32
  /-- GZ_Y.YR. -/
  yr : BitVec 32
  /-- GZ_Y.YI. -/
  yi : BitVec 32
  /-- GZ_COEF.FB. -/
  fb : BitVec 20
  /-- GZ_COEF.FFR. -/
  ffr : BitVec 20
  /-- GZ_COEF.FFI. -/
  ffi : BitVec 20
deriving DecidableEq, Repr

/-- The command latches CMD_L, LEN_L, DET_L and FS_L, written at acceptance and not readable (R48). -/
structure Latch where
  cmd : Word
  len : BitVec 32
  det : Word
  fs : Word
deriving DecidableEq, Repr

/-- The engine's hidden registers and scratch (R49 to R51). No host access reads them, and a command initialises what it
reads of them (R52), so they carry nothing from one command to the next. -/
structure Engine where
  /-- `TW_R`, `TW_I`, the current twiddle (R49). -/
  twR : Word
  twI : Word
  /-- `TWL_R`, `TWL_I`, the stage base twiddle (R49). -/
  twlR : Word
  twlI : Word
  /-- `SRE`, the DCT scratch's real rail (R50). -/
  sre : List Word
  /-- `SIM`, the DCT scratch's imaginary rail (R50). -/
  sim : List Word
  /-- `w0`, `w1`, `w2`, the Goertzel delay line (R51). -/
  w0 : BitVec 32
  w1 : BitVec 32
  w2 : BitVec 32
  /-- `FB`, `FFR`, `FFI`, the quantised coefficients, 17 bits when `GZ_COEF_WIDE` (R51, R229). -/
  fb : BitVec 17
  ffr : BitVec 17
  ffi : BitVec 17
  /-- `ACC`, the MAGPWR accumulator (R51). -/
  acc : Word
deriving DecidableEq, Repr

/-- The three banks as one list of bytes at their bus offsets (R82, R84), strictly rising. A listed byte is a written one;
an unlisted byte has no value a command may use (R53). -/
abbrev Memory := List Host.Cell

/-- What the outside world does to the block: one host transaction (R81), or a reset (R280). -/
inductive HostEvent where
  /-- `MemRead(addr, bytes)`. -/
  | read (addr : BitVec 18) (bytes : Nat)
  /-- `MemWrite(addr, bytes, data)`. -/
  | write (addr : BitVec 18) (bytes : Nat) (data : Word)
  /-- The reset input is asserted and released. -/
  | reset
deriving DecidableEq, Repr

/-- The response that ends a host transaction (R81, R95). -/
inductive BusResponse where
  /-- A read ended with OKAY and its data. -/
  | readOkay (data : Word)
  /-- A write ended with OKAY. -/
  | writeOkay
  /-- A read ended with SLVERR and its data. -/
  | readError (data : Word)
  /-- A write ended with SLVERR. -/
  | writeError
deriving DecidableEq, Repr

/-- Why the machine stops with a fault. -/
inductive Fault where
  /-- A command reads a bank word that nothing has written since reset (R53, R255, spec/93 I13). Raised by every command that
  reads bank words, where the engine reads them. SAFE: the spec says that no claim may rest on what follows. -/
  | unwrittenWord (b : Bank) (k : Nat)
  /-- BUSY is 1 and the latched command word is no command. Raised where a running command completes. SAFE: no run reaches such
  a state, because only a well-formed word is ever latched (R245, R249). -/
  | latchedWordMalformed
deriving DecidableEq, Repr

/-- Why the model gives an instruction no meaning. -/
inductive Refusal where
  /-- The instruction has no meaning in this model yet. Raised by an arm of `exec` only; no arm raises it. SAFE. -/
  | notModelled (mnemonic : String)
deriving DecidableEq, Repr

/-- The whole state of the block, with the events the outside world has pending. -/
structure State where
  /-- The parameters the block was built with; CONFIG and EPS read them back (R7, R32, R33). -/
  config : Config
  /-- STATUS (R35). -/
  status : Status
  /-- IRQ_EN.DONE_IE (R36). -/
  doneIe : Bool
  /-- LEN.LEN (R37). -/
  len : BitVec 32
  /-- DETECT_HZ (R38). -/
  detectHz : Word
  /-- SAMPLE_HZ (R39). -/
  sampleHz : Word
  /-- PWR (R41). -/
  pwr : Word
  /-- GZ_MAG, GZ_Y, GZ_COEF (R42 to R44). -/
  gz : GoertzelRegs
  /-- The written words of the banks A, B and C (R40, R53). -/
  mem : Memory
  /-- CMD_L, LEN_L, DET_L, FS_L (R48). -/
  latch : Latch
  /-- The hidden engine registers (R49 to R51). -/
  engine : Engine
  /-- The model's own: while BUSY, how many host transactions still come before the completion event (R256). -/
  wait : Nat
  /-- The model's own: for each command still to be accepted, how many host transactions come between its acceptance and its
  completion (R256: any finite number); 0 when the list has run out. -/
  latency : List Nat
  /-- The model's own: the outside world's pending events, first to come first (R81). -/
  bus : List HostEvent
  /-- The model's own: the response of the latest host transaction (R81). -/
  response : Option BusResponse
  /-- The model's own: how many resets there have been; it tells one reset's unspecified bank contents from another's (R53). -/
  epoch : Nat
  /-- The model's own: how many times leftovers of hidden registers have been drawn (R52). -/
  draws : Nat
deriving DecidableEq, Repr

/-- STATUS after reset (R54). -/
def Status.reset : Status := ⟨false, false, .none, false, false⟩

/-- GZ_MAG, GZ_Y and GZ_COEF after reset (R54). -/
def GoertzelRegs.reset : GoertzelRegs := ⟨0, 0, 0, 0, 0, 0⟩

/-- The latches after reset. DESIGN CHOICE (log entry 6): the spec leaves them unspecified and unobservable. -/
def Latch.reset : Latch := ⟨0, 0, 0, 0⟩

/-- The engine's hidden registers after reset. DESIGN CHOICE (log entry 6): the spec leaves them unspecified and
unobservable. -/
def Engine.reset (nmax : Nat) : Engine where
  twR := 0
  twI := 0
  twlR := 0
  twlI := 0
  sre := List.replicate nmax 0
  sim := List.replicate nmax 0
  w0 := 0
  w1 := 0
  w2 := 0
  fb := 0
  ffr := 0
  ffi := 0
  acc := 0

/-- The block built with the parameters `c`, right after its first reset (R54, R281): no bank word is written. -/
def State.resetWith (c : Config) : State where
  config := c
  status := .reset
  doneIe := false
  len := 0
  detectHz := 0
  sampleHz := 0
  pwr := 0
  gz := .reset
  mem := []
  latch := .reset
  engine := .reset c.nmax
  wait := 0
  latency := []
  bus := []
  response := none
  epoch := 0
  draws := 0

/-- The machine right after reset (R54), built with the reference parameters (log entry 1). -/
def State.reset : State := State.resetWith .reference

end Sys2Proof.Machine
end

