-- ==== Sys2Proof/Machine/Binary64.lean ====
section
/-! DEFINITION. Binary64 arithmetic (spec/40_numerics.md R150 to R157). A finite value is a sign and a whole number of
units of `2^-1074`, so every operation is exact arithmetic on naturals followed by one rounding. -/

namespace Sys2Proof.Machine

open Sys2Proof

/-- What a 64-bit pattern stands for (R82, R150). `fin neg u` is `u * 2^-1074` with that sign, zero included. -/
inductive Num where
  | nan
  | inf (neg : Bool)
  | fin (neg : Bool) (units : Nat)
deriving DecidableEq, Repr

/-- The sign, bit 63 (R82). -/
def signBit (w : Word) : Bool := w.getLsbD 63

/-- The exponent field, bits `[62:52]` (R82). -/
def expField (w : Word) : Nat := (w.extractLsb' 52 11).toNat

/-- The fraction field, bits `[51:0]` (R82). -/
def fracField (w : Word) : Nat := (w.extractLsb' 0 52).toNat

/-- Reading a pattern: an exponent field of 2047 is an infinity or a NaN, of 0 a subnormal or a zero. -/
def classify (w : Word) : Num :=
  if expField w = 2047 then
    if fracField w = 0 then .inf (signBit w) else .nan
  else if expField w = 0 then .fin (signBit w) (fracField w)
  else .fin (signBit w) ((2 ^ 52 + fracField w) * 2 ^ (expField w - 1))

/-- The canonical quiet NaN (R155). -/
def canonNaN : Word := 0x7FF8000000000000#64

/-- The pattern of `+inf`, as a number. -/
def infMagnitude : Nat := 0x7FF0000000000000

/-- A pattern from its sign and its other 63 bits. -/
def pack (neg : Bool) (magnitude : Nat) : Word :=
  BitVec.ofNat 64 ((if neg then 2 ^ 63 else 0) + magnitude)

/-- `num / den` rounded to a whole number, ties to even. -/
def nearestEven (num den : Nat) : Nat :=
  if 2 * (num % den) > den || (2 * (num % den) == den && num / den % 2 == 1) then num / den + 1 else num / den

/-- The spacing exponent of the binary64 values around `num / den` units: neighbours are `2^spacing` units apart, so that a
normal value has 53 significant bits and a subnormal one is a whole number of units. -/
def spacing (num den : Nat) : Nat := Nat.log2 (num / den) - 52

/-- The low 63 bits of the binary64 nearest to `num / den` units, ties to even, infinity where it rounds past the largest
finite value (R150). A significand of `2^53` carries into the exponent field by itself. -/
def roundMagnitude (num den : Nat) : Nat :=
  let sh := spacing num den
  min (sh * 2 ^ 52 + nearestEven num (den * 2 ^ sh)) infMagnitude

/-- The exact value `num / den` units, rounded once (R150). -/
def roundTo (neg : Bool) (num den : Nat) : Word := pack neg (roundMagnitude num den)

/-- How many units make 1.0. -/
def oneUnits : Nat := 2 ^ 1074

/-- The sum of two finite values: an exact zero of operands of opposite sign is `+0` (R151). -/
def addFinite (na : Bool) (ua : Nat) (nb : Bool) (ub : Nat) : Word :=
  if na == nb then roundTo na (ua + ub) 1
  else if ub < ua then roundTo na (ua - ub) 1
  else if ua < ub then roundTo nb (ub - ua) 1
  else pack false 0

/-- Addition (R151, R155). -/
def fadd (a b : Word) : Word :=
  match classify a, classify b with
  | .nan, _ => canonNaN
  | _, .nan => canonNaN
  | .inf na, .inf nb => if na == nb then pack na infMagnitude else canonNaN
  | .inf na, .fin _ _ => pack na infMagnitude
  | .fin _ _, .inf nb => pack nb infMagnitude
  | .fin na ua, .fin nb ub => addFinite na ua nb ub

/-- Negation flips bit 63 and nothing else (R154). -/
def fneg (a : Word) : Word := a ^^^ 0x8000000000000000#64

/-- Subtraction is the addition of the negated operand (R151, R155). -/
def fsub (a b : Word) : Word := fadd a (fneg b)

/-- Multiplication (R152, R155). -/
def fmul (a b : Word) : Word :=
  match classify a, classify b with
  | .nan, _ => canonNaN
  | _, .nan => canonNaN
  | .inf na, .inf nb => pack (na ^^ nb) infMagnitude
  | .inf na, .fin nb ub => if ub = 0 then canonNaN else pack (na ^^ nb) infMagnitude
  | .fin na ua, .inf nb => if ua = 0 then canonNaN else pack (na ^^ nb) infMagnitude
  | .fin na ua, .fin nb ub => roundTo (na ^^ nb) (ua * ub) oneUnits

/-- Division (R153, R155). -/
def fdiv (a b : Word) : Word :=
  match classify a, classify b with
  | .nan, _ => canonNaN
  | _, .nan => canonNaN
  | .inf _, .inf _ => canonNaN
  | .inf na, .fin nb _ => pack (na ^^ nb) infMagnitude
  | .fin na _, .inf nb => pack (na ^^ nb) 0
  | .fin na ua, .fin nb ub =>
    if ub = 0 then
      if ua = 0 then canonNaN else pack (na ^^ nb) infMagnitude
    else roundTo (na ^^ nb) (ua * oneUnits) ub

/-- The integer square root, one bit of the root a step, from the bit below `2^bits`. -/
def isqrtFrom : Nat → Nat → Nat → Nat
  | 0, _, r => r
  | bits + 1, n, r =>
    if (r + 2 ^ bits) * (r + 2 ^ bits) ≤ n then isqrtFrom bits n (r + 2 ^ bits) else isqrtFrom bits n r

/-- The floor of the square root. -/
def isqrt (n : Nat) : Nat := isqrtFrom (Nat.log2 n / 2 + 1) n 0

/-- The square root of a positive finite value: the root of `u` units is the root of `u * 2^1074` as a number of units. A
root that is no whole number of units is rounded as a value strictly between two units, which is how it rounds, since
neighbouring binary64 values of that size are many units apart (R154). -/
def sqrtUnits (u : Nat) : Word :=
  let root := isqrt (u * oneUnits)
  if root * root = u * oneUnits then roundTo false root 1 else roundTo false (2 * root + 1) 2

/-- The square root (R154, R155). -/
def fsqrt (a : Word) : Word :=
  match classify a with
  | .nan => canonNaN
  | .inf neg => if neg then canonNaN else pack false infMagnitude
  | .fin neg u => if u = 0 then pack neg 0 else if neg then canonNaN else sqrtUnits u

/-- The binary64 nearest to an integer, ties to even (R154). -/
def toF64 (i : Int) : Word := roundTo (decide (i < 0)) (i.natAbs * oneUnits) 1

/-- The integer part of a finite value of `[0, 2^32)` (R154). Elsewhere the model answers the low 32 bits of the integer part
of the magnitude, and 0 for a value that is not finite; no command converts such a value (R239). -/
def truncU32 (a : Word) : BitVec 32 :=
  match classify a with
  | .fin _ u => BitVec.ofNat 32 (u / oneUnits)
  | .inf _ => 0
  | .nan => 0

/-- Whether a pattern is a finite value. -/
def isFinite (a : Word) : Bool := expField a != 2047

/-- A complex sample: real part, then imaginary part (R14). -/
abbrev Cplx := Word × Word

/-- The binary64 complex multiplier (R156). -/
def cmul (a b : Cplx) : Cplx :=
  (fsub (fmul a.1 b.1) (fmul a.2 b.2), fadd (fmul a.1 b.2) (fmul a.2 b.1))

/-- `PI64` (R157). -/
def pi64 : Word := 0x400921FB54442D18#64

/-- The constants 1.0, 2.0 and 0.5 of the command rules. -/
def f64One : Word := 0x3FF0000000000000#64
def f64Two : Word := 0x4000000000000000#64
def f64Half : Word := 0x3FE0000000000000#64

end Sys2Proof.Machine
end

