-- ==== Sys2Proof/Machine/Fixed.lean ====
section
/-! DEFINITION. Fixed-point helpers of the Goertzel datapath (spec/40_numerics.md R159 to R165, spec/00_scope.md R9). -/

namespace Sys2Proof.Machine

open Sys2Proof

/-- `wrap_N(v)`: the signed `N`-bit value congruent to `v` (R9). -/
def wrapTo (n : Nat) (v : Int) : Int := (v + 2 ^ (n - 1)) % 2 ^ n - 2 ^ (n - 1)

/-- `fits_N(v)` (R9). -/
def fitsIn (n : Nat) (v : Int) : Bool := decide (-(2 ^ (n - 1)) ≤ v) && decide (v < 2 ^ (n - 1))

/-- `sat_N(v)` (R9). -/
def satTo (n : Nat) (v : Int) : Int := min (max v (-(2 ^ (n - 1)))) (2 ^ (n - 1) - 1)

/-- Round-shift `rs(v, s)`: the nearest integer to `v / 2^s`, ties toward plus infinity (R160). -/
def roundShift (v : Int) : Nat → Int
  | 0 => v
  | s + 1 => (v + 2 ^ s) / 2 ^ (s + 1)

/-- `floor(|y| + 1/2)` for a magnitude of `u` units. -/
def nearestAway (u : Nat) : Nat := (2 * u + oneUnits) / (2 * oneUnits)

/-- A magnitude with a sign. -/
def signed (neg : Bool) (m : Nat) : Int := if neg then -(m : Int) else m

/-- `rnd(y)`: the nearest integer to a finite value, ties away from zero (R161, R229). A value that is not finite has none and
is answered with 0; R161 and the limits of R158 keep such a value away from it. -/
def roundAway (y : Word) : Int :=
  match classify y with
  | .fin neg u => signed neg (nearestAway u)
  | .inf _ => 0
  | .nan => 0

/-- A scaled value rounded and saturated, and whether it overflowed (R161). -/
def saturate (y : Word) (w : Nat) : Int × Bool :=
  match classify y with
  | .nan => (0, true)
  | .inf neg => (if neg then -(2 ^ (w - 1)) else 2 ^ (w - 1) - 1, true)
  | .fin _ _ => (satTo w (roundAway y), !fitsIn w (roundAway y))

/-- Quantise `q(x, f, W)`: the raw integer, and whether it overflowed (R161). -/
def quantise (x : Word) (f w : Nat) : Int × Bool :=
  match classify x with
  | .nan => (0, true)
  | .inf _ => saturate (fmul x (toF64 (2 ^ f))) w
  | .fin _ _ => saturate (fmul x (toF64 (2 ^ f))) w

/-- Fixed multiply by a value with `fb` fractional bits (R162). -/
def qmul (a b : Int) (fb : Nat) : Int := roundShift (a * b) fb

/-- Alignment from `fa` to `f` fractional bits (R163). -/
def align (a : Int) (fa f : Nat) : Int := if fa ≤ f then a * 2 ^ (f - fa) else roundShift a (fa - f)

/-- Real by complex, with a coefficient in Q1.15 (R165). -/
def qcmulR (w : Int) (c : Int × Int) : Int × Int := (qmul w c.1 15, qmul w c.2 15)

/-- Complex by complex, with a coefficient in Q1.15 (R165). -/
def qcmulC (a c : Int × Int) : Int × Int :=
  (roundShift (a.1 * c.1 - a.2 * c.2) 15, roundShift (a.1 * c.2 + a.2 * c.1) 15)

end Sys2Proof.Machine
end

