-- ==== Sys2Proof/Machine/Trig.lean ====
section
/-! DEFINITION. The TRIG unit (spec/40_numerics.md R158): the reference unit, computed in fixed point, and every other
admissible unit, drawn from a constant without a body. -/

namespace Sys2Proof.Machine

open Sys2Proof

/-- The fractional bits of the fixed-point value of π/2 that range reduction uses. -/
def reduceBits : Nat := 1400

/-- `floor(2^1400 * π / 2)`. PRESUMED (log entry 3): the digits of π are from general knowledge. -/
def halfPi : Nat :=
  0x1921fb54442d18469898cc51701b839 * 2 ^ 1280 +
  0xa252049c1114cf98e804177d4c76273644a29410f31c6809bbdf2a33679a748636605614dbe4be28 * 2 ^ 960 +
  0x6e9fc26adadaa3848bc90b6aecc4bcfd8de89885d34c6fdad617feb96de80d6fdbdc70d7f6b5133f * 2 ^ 640 +
  0x4b5d3e4822f8963fcc9250cca3d9c8b67b8400f97142c77e0b31b4906c38aba734d22c7f51fa499e * 2 ^ 320 +
  0xbf06caba47b9475b2c38c5e6ac410aa5773daa520ee12d2cdace186a9c95793009e2e8d811943042

/-- The fractional bits of the series. -/
def seriesBits : Nat := 320

/-- The alternating series `1 - x/((c+1)(c+2)) (1 - x/((c+3)(c+4)) (1 - ...))` in fixed point, from its `j`-th factor on, cut
after the given number of factors: the cosine's for `c = 0`, the sine's divided by its argument for `c = 1`, both with
`x` the square of the argument. -/
def altSeries (x c : Nat) : Nat → Nat → Nat
  | 0, _ => 2 ^ seriesBits
  | n + 1, j =>
    2 ^ seriesBits - x * altSeries x c n (j + 1) / 2 ^ seriesBits / ((2 * j + c + 1) * (2 * j + c + 2))

/-- The square of a fixed-point value. -/
def fixedSquare (r : Nat) : Nat := r * r / 2 ^ seriesBits

/-- The cosine of a fixed-point argument of at most about π/4. -/
def cosSmall (r : Nat) : Nat := altSeries (fixedSquare r) 0 48 0

/-- The sine of a fixed-point argument of at most about π/4. -/
def sinSmall (r : Nat) : Nat := r * altSeries (fixedSquare r) 1 48 0 / 2 ^ seriesBits

/-- The argument of `u` units, in the fixed point of range reduction. -/
def reduceArg (u : Nat) : Nat := u * 2 ^ (reduceBits - 1074)

/-- The whole number of quarter turns nearest to the argument. -/
def quarterTurns (u : Nat) : Nat := (2 * reduceArg u + halfPi) / (2 * halfPi)

/-- What is left of the argument: whether it is negative, and its magnitude in the fixed point of the series. -/
def remainder (u : Nat) : Bool × Nat :=
  let x := reduceArg u
  let t := quarterTurns u * halfPi
  if t ≤ x then (false, (x - t) / 2 ^ (reduceBits - seriesBits))
  else (true, (t - x) / 2 ^ (reduceBits - seriesBits))

/-- A fixed-point result rounded to binary64. -/
def roundFixed (neg : Bool) (v : Nat) : Word := roundTo neg (v * oneUnits) (2 ^ seriesBits)

/-- The reference cosine of a nonzero finite argument: the correctly rounded exact cosine (R158, log entry 3). -/
def refCos (u : Nat) : Word :=
  match remainder u, quarterTurns u % 4 with
  | (_, r), 0 => roundFixed false (cosSmall r)
  | (neg, r), 1 => roundFixed (!neg) (sinSmall r)
  | (_, r), 2 => roundFixed true (cosSmall r)
  | (neg, r), _ => roundFixed neg (sinSmall r)

/-- The reference sine of a nonzero finite argument: the correctly rounded exact sine. Below `2^-26` the exact sine lies
nearer to its argument than to any other binary64 value (R158, log entry 3). -/
def refSin (neg : Bool) (u : Nat) : Word :=
  if u < 2 ^ 1048 then roundTo neg u 1
  else match remainder u, quarterTurns u % 4 with
  | (rneg, r), 0 => roundFixed (neg ^^ rneg) (sinSmall r)
  | (_, r), 1 => roundFixed neg (cosSmall r)
  | (rneg, r), 2 => roundFixed (!(neg ^^ rneg)) (sinSmall r)
  | (_, r), _ => roundFixed (!neg) (cosSmall r)

/-- R158 (2): a result is finite and in `[-1, 1]`. A value outside is no result of an admissible unit, and is replaced by one
that is, so that the units of the model are exactly the admissible ones (log entry 2). -/
def admissible (w : Word) : Word :=
  match classify w with
  | .fin _ u => if u ≤ oneUnits then w else f64One
  | .inf _ => f64One
  | .nan => f64One

/-- `cos64` (R158). -/
def cos64 (t : TrigUnit) (a : Word) : Word :=
  match classify a with
  | .nan => canonNaN
  | .inf _ => canonNaN
  | .fin _ u =>
    if u = 0 then f64One
    else match t with
      | .reference => admissible (refCos u)
      | .other id => admissible (Config.otherCos id a)

/-- `sin64` (R158). -/
def sin64 (t : TrigUnit) (a : Word) : Word :=
  match classify a with
  | .nan => canonNaN
  | .inf _ => canonNaN
  | .fin neg u =>
    if u = 0 then pack neg 0
    else match t with
      | .reference => admissible (refSin neg u)
      | .other id => admissible (Config.otherSin id a)

end Sys2Proof.Machine
end

