-- ==== Sys2Proof/Machine/Ops.lean ====
section
/-! DEFINITION. The shared operations over the banks and over the command registers: reading and writing words, and the
rejection, acceptance, running and completion of a command (spec/60_exceptions.md §1 to §3). The block has no trap (R262,
R263): a rejection is its one way of reporting an error. -/

namespace Sys2Proof.Machine

open Sys2Proof

/-! ### Bytes and words of memory -/

/-- The byte listed at an address. -/
def Memory.byte? : Memory → Nat → Option Byte
  | [], _ => none
  | (x, v) :: rest, a => if x = a then some v else Memory.byte? rest a

/-- Listing one byte, in its place. -/
def Memory.setByte : Memory → Nat → Byte → Memory
  | [], a, b => [(a, b)]
  | (x, v) :: rest, a, b =>
    if a < x then (a, b) :: (x, v) :: rest
    else if a = x then (a, b) :: rest
    else (x, v) :: Memory.setByte rest a b

/-- Every address of the list is above `a`, and the list rises strictly. -/
def Memory.risesFrom : Nat → Memory → Bool
  | _, [] => true
  | a, (x, _) :: rest => decide (a ≤ x) && Memory.risesFrom (x + 1) rest

/-- The canonical form: strictly rising addresses. An unlisted byte reads as nothing, so no listed byte is one. -/
def Memory.wf (m : Memory) : Bool := Memory.risesFrom 0 m

/-- The bytes listed from an address on, all of them or none. -/
def Memory.bytes? (m : Memory) (a : Nat) : Nat → Option (List Byte)
  | 0 => some []
  | n + 1 =>
    match m.byte? a, Memory.bytes? m (a + 1) n with
    | some b, some bs => some (b :: bs)
    | _, _ => none

/-- Listing bytes from an address on. -/
def Memory.setBytes (m : Memory) (a : Nat) : List Byte → Memory
  | [] => m
  | b :: bs => Memory.setBytes (m.setByte a b) (a + 1) bs

/-- The word at a bus offset, little-endian, if it is written (R53, R82). -/
def Memory.word? (m : Memory) (a : Nat) : Option Word := (m.bytes? a 8).map wordOfBytes

/-- Writing a word at a bus offset, little-endian; it is then written (R82, R86). -/
def Memory.setWord (m : Memory) (a : Nat) (v : Word) : Memory := m.setBytes a (bytesOfWord 8 v)

/-! ### Words of a bank -/

/-- Where a bank's window begins (R84). -/
def bankBase : Bank → Nat
  | .A => 0x10000
  | .B => 0x20000
  | .C => 0x30000

/-- The bus offset of word `k` of a bank (R84). -/
def wordOffset (b : Bank) (k : Nat) : Nat := bankBase b + 8 * k

/-- `bank[b][k]`, if it is written (R11, R53). -/
def bankWord? (m : Memory) (b : Bank) (k : Nat) : Option Word := m.word? (wordOffset b k)

/-- `bank[b][k] <- v` (R11). -/
def setBankWord (m : Memory) (b : Bank) (k : Nat) (v : Word) : Memory := m.setWord (wordOffset b k) v

/-- The engine's read of `n` words of a bank from word `k` on; an unwritten word is a fault (R53). -/
def readRun (m : Memory) (b : Bank) (k : Nat) : Nat → Except Fault (List Word)
  | 0 => .ok []
  | n + 1 =>
    match bankWord? m b k with
    | none => .error (.unwrittenWord b k)
    | some w =>
      match readRun m b (k + 1) n with
      | .error e => .error e
      | .ok ws => .ok (w :: ws)

/-- The engine's write of words of a bank from word `k` on. -/
def writeRun (m : Memory) (b : Bank) (k : Nat) : List Word → Memory
  | [] => m
  | w :: ws => writeRun (setBankWord m b k w) b (k + 1) ws

/-- Going on with the first `n` words of a bank, or stopping at an unwritten one (R53). -/
def withWords (s : State) (b : Bank) (n : Nat) (go : List Word → Host.Outcome State Fault Refusal) :
    Host.Outcome State Fault Refusal :=
  match readRun s.mem b 0 n with
  | .error e => .fault e
  | .ok ws => go ws

/-! ### Issue, rejection, acceptance, completion -/

/-- Going on after a step that answered a next state. -/
def andThen (o : Host.Outcome State Fault Refusal) (f : State → Host.Outcome State Fault Refusal) :
    Host.Outcome State Fault Refusal :=
  match o with
  | .next s => f s
  | .fault e => .fault e
  | .refused r => .refused r

/-- A rejection sets DONE and ERR, and does nothing else (R250). -/
def reject (e : ErrCode) (s : State) : State :=
  { s with status := { s.status with done := true, err := e } }

/-- A CMD write while a command runs sets OVERRUN, and does nothing else (R246). -/
def overrun (s : State) : State :=
  { s with status := { s.status with overrun := true } }

/-- Acceptance latches the command word and its operands, sets BUSY, clears DONE and ERR (R245). The number of host
transactions that will come before the completion is taken from the state's list (R256). -/
def accept (v : Word) (s : State) : State :=
  { s with
    latch := { cmd := v, len := s.len, det := s.detectHz, fs := s.sampleHz }
    status := { s.status with busy := true, done := false, err := .none }
    wait := s.latency.headD 0
    latency := s.latency.tail }

/-- An accepted command whose completion comes before the next host transaction completes in this same step; any other goes on
running (R256). -/
def settle (run : State → Host.Outcome State Fault Refusal) (s : State) : Host.Outcome State Fault Refusal :=
  if s.wait = 0 then run s else .next s

/-- The issue of a command word `v` whose checks give `e`: dropped while busy, else rejected or accepted (R245, R246, R250). -/
def issue (v : Word) (e : ErrCode) (run : State → Host.Outcome State Fault Refusal) (s : State) :
    Host.Outcome State Fault Refusal :=
  if s.status.busy then .next (overrun s)
  else if e = .none then settle run (accept v s)
  else .next (reject e s)

/-- The completion event: BUSY becomes 0 and DONE becomes 1 (R256). -/
def finish (s : State) : State :=
  { s with status := { s.status with busy := false, done := true }, wait := 0 }

/-! ### What a command leaves in the hidden registers it used

Their values between commands are not architected (R49 to R51), so each is drawn (log entry 6). -/

/-- A 64-bit leftover. -/
def leftoverWords (draw from_ n : Nat) : List Word := (List.range n).map (fun k => Config.leftover draw (from_ + k))

/-- The FFT datapath's twiddle registers after a command that ran the engine. -/
def Engine.afterTransform (e : Engine) (draw : Nat) : Engine :=
  { e with
    twR := Config.leftover draw 0
    twI := Config.leftover draw 1
    twlR := Config.leftover draw 2
    twlI := Config.leftover draw 3 }

/-- The twiddle registers and the scratch after DCT. -/
def Engine.afterDct (e : Engine) (draw nmax : Nat) : Engine :=
  { e.afterTransform draw with
    sre := leftoverWords draw 16 nmax
    sim := leftoverWords draw (16 + nmax) nmax }

/-- The accumulator after MAGPWR. -/
def Engine.afterMagpwr (e : Engine) (draw : Nat) : Engine :=
  { e with acc := Config.leftover draw 4 }

/-- The delay line and the coefficients after GOERTZEL. -/
def Engine.afterGoertzel (e : Engine) (draw : Nat) : Engine :=
  { e with
    w0 := (Config.leftover draw 5).setWidth 32
    w1 := (Config.leftover draw 6).setWidth 32
    w2 := (Config.leftover draw 7).setWidth 32
    fb := (Config.leftover draw 8).setWidth 17
    ffr := (Config.leftover draw 9).setWidth 17
    ffi := (Config.leftover draw 10).setWidth 17 }

end Sys2Proof.Machine
end

