-- ==== Sys2Proof/Machine/Operands.lean ====
section
/-! DEFINITION. The operand forms of a command and their checks at issue (spec/30_encoding.md R124, spec/60_exceptions.md R249
to R254), and the frequency operands of GOERTZEL (spec/44_goertzel.md R227). -/

namespace Sys2Proof.Machine

open Sys2Proof

/-- `pow2(n)` (R252). -/
def isPow2 (n : Nat) : Bool := n != 0 && n &&& (n - 1) == 0

/-- The lengths a command accepts (R252's table). -/
def lenOk (c : Config) (i : Instr) (n : Nat) : Bool :=
  match i with
  | .fft _ _ => isPow2 n && decide (1 ≤ n) && decide (n ≤ c.nmax)
  | .ifft _ _ => isPow2 n && decide (1 ≤ n) && decide (n ≤ c.nmax)
  | .dct _ => isPow2 n && decide (2 ≤ n) && decide (n ≤ c.nmax)
  | .hann _ => decide (2 ≤ n) && decide (n ≤ c.nmax)
  | .filter _ _ => decide (1 ≤ n) && decide (n ≤ c.nmax)
  | .magpwr _ _ _ => decide (1 ≤ n) && decide (n ≤ c.nmax)
  | .goertzel _ => decide (1 ≤ n) && decide (n ≤ c.nmax)

/-- The bin index `m` (R227). -/
def goertzelBin (n : Nat) (det fs : Word) : Word := fdiv (fmul (toF64 n) det) fs

/-- The angle of a bin (R227). -/
def goertzelAngle (n : Nat) (m : Word) : Word := fdiv (fmul (fmul f64Two pi64) m) (toF64 n)

/-- The sample rates GOERTZEL accepts: finite and above zero (R253). -/
def isPositiveFinite (w : Word) : Bool :=
  match classify w with
  | .fin neg u => !neg && u != 0
  | .inf _ => false
  | .nan => false

/-- The ARG check (R253). Only GOERTZEL has frequency operands. -/
def argOk (i : Instr) (n : Nat) (det fs : Word) : Bool :=
  match i with
  | .goertzel _ =>
    isPositiveFinite fs && isFinite det && isFinite (goertzelBin n det fs)
      && isFinite (goertzelAngle n (goertzelBin n det fs))
  | .fft _ _ => true
  | .ifft _ _ => true
  | .dct _ => true
  | .hann _ => true
  | .filter _ _ => true
  | .magpwr _ _ _ => true

/-- The checks of a well-formed word, in R254's order after CMD: OPERAND, LEN, ARG. `none` when all pass. -/
def check (c : Config) (i : Instr) (len : BitVec 32) (det fs : Word) : ErrCode :=
  if !i.wellFormed then .operand
  else if !lenOk c i len.toNat then .len
  else if !argOk i len.toNat det fs then .arg
  else .none

/-- The checks at the CMD write, with the operand registers as they stand (R245). -/
def issueCheck (i : Instr) (s : State) : ErrCode := check s.config i s.len s.detectHz s.sampleHz

/-- The length of the running command, LEN_L, unsigned (R48, R124). -/
def runLength (s : State) : Nat := s.latch.len.toNat

end Sys2Proof.Machine
end

