-- ==== Sys2Proof/Machine/Flags.lean ====
section
/-! DEFINITION. The registers as the bus reads and writes them: STATUS and its flags, IRQ_EN and the interrupt line, and the
other registers (spec/10_state.md R31 to R44, spec/60_exceptions.md R260). -/

namespace Sys2Proof.Machine

open Sys2Proof

/-- The error codes (R247). -/
def ErrCode.code : ErrCode → BitVec 4
  | .none => 0#4
  | .cmd => 1#4
  | .operand => 2#4
  | .len => 3#4
  | .arg => 4#4

/-- A field of a word, from the given bit upwards; every other bit is 0. -/
def field (n : Nat) (x : BitVec n) (low : Nat) : Word := x.setWidth 64 <<< low

/-- STATUS as a word (R35). -/
def Status.word (st : Status) : Word :=
  field 1 (BitVec.ofBool st.busy) 0 ||| field 1 (BitVec.ofBool st.done) 1 ||| field 4 st.err.code 4
    ||| field 1 (BitVec.ofBool st.ovf) 8 ||| field 1 (BitVec.ofBool st.overrun) 9

/-- A write to STATUS: bits 1, 8 and 9 clear DONE, OVF and OVERRUN; every other bit is ignored (R35). -/
def Status.write (st : Status) (v : Word) : Status :=
  { st with
    done := st.done && !v.getLsbD 1
    ovf := st.ovf && !v.getLsbD 8
    overrun := st.overrun && !v.getLsbD 9 }

/-- OVF after a GOERTZEL command: set by an overflow, never cleared by a command (R238). -/
def Status.withOverflow (st : Status) (ovf : Bool) : Status := { st with ovf := st.ovf || ovf }

/-- The interrupt line (R260). -/
def irq (s : State) : Bool := s.status.done && s.doneIe

/-- ID (R31). -/
def idWord : Word := 0x0000000746465442#64

/-- CONFIG (R32). -/
def configWord (c : Config) : Word :=
  field 4 (BitVec.ofNat 4 c.log2Nmax) 0 ||| field 5 (BitVec.ofNat 5 c.gzWQn) 4 ||| field 1 (BitVec.ofBool c.gzCoefWide) 9
    ||| field 1 (BitVec.ofBool (c.gzOutForm == .pair)) 10

/-- GZ_Y (R43). -/
def GoertzelRegs.yWord (g : GoertzelRegs) : Word := field 32 g.yr 0 ||| field 32 g.yi 32

/-- GZ_COEF (R44). -/
def GoertzelRegs.coefWord (g : GoertzelRegs) : Word := field 20 g.fb 0 ||| field 20 g.ffr 20 ||| field 20 g.ffi 40

/-- The thirteen registers (R30). -/
inductive Reg where
  | id
  | config
  | eps
  | cmd
  | status
  | irqEn
  | len
  | detectHz
  | sampleHz
  | pwr
  | gzMag
  | gzY
  | gzCoef
deriving DecidableEq, Repr

/-- The offset of a register (R30's summary). -/
def Reg.offset : Reg → Nat
  | .id => 0x000
  | .config => 0x008
  | .eps => 0x010
  | .cmd => 0x018
  | .status => 0x020
  | .irqEn => 0x028
  | .len => 0x030
  | .detectHz => 0x038
  | .sampleHz => 0x040
  | .pwr => 0x048
  | .gzMag => 0x050
  | .gzY => 0x058
  | .gzCoef => 0x060

/-- The register at an offset (R84). -/
def Reg.at? (a : Nat) : Option Reg :=
  match a with
  | 0x000 => some .id
  | 0x008 => some .config
  | 0x010 => some .eps
  | 0x018 => some .cmd
  | 0x020 => some .status
  | 0x028 => some .irqEn
  | 0x030 => some .len
  | 0x038 => some .detectHz
  | 0x040 => some .sampleHz
  | 0x048 => some .pwr
  | 0x050 => some .gzMag
  | 0x058 => some .gzY
  | 0x060 => some .gzCoef
  | _ => none

/-- `x[NAME]` as the bus reads it: reserved fields read 0, CMD reads 0 (R31 to R44, R85). -/
def readReg (s : State) : Reg → Word
  | .id => idWord
  | .config => configWord s.config
  | .eps => s.config.magpwrEps
  | .cmd => 0#64
  | .status => s.status.word
  | .irqEn => field 1 (BitVec.ofBool s.doneIe) 0
  | .len => field 32 s.len 0
  | .detectHz => s.detectHz
  | .sampleHz => s.sampleHz
  | .pwr => s.pwr
  | .gzMag => field 32 s.gz.mag 0
  | .gzY => s.gz.yWord
  | .gzCoef => s.gz.coefWord

/-- `x[NAME] <- v` as the bus writes it, for every register but CMD, whose write is an issue attempt and stores nothing of its
own (R34): read-write fields take the bits, read-only registers and reserved fields ignore them (R85). -/
def writeReg (s : State) (r : Reg) (v : Word) : State :=
  match r with
  | .id => s
  | .config => s
  | .eps => s
  | .cmd => s
  | .status => { s with status := s.status.write v }
  | .irqEn => { s with doneIe := v.getLsbD 0 }
  | .len => { s with len := v.setWidth 32 }
  | .detectHz => { s with detectHz := v }
  | .sampleHz => { s with sampleHz := v }
  | .pwr => s
  | .gzMag => s
  | .gzY => s
  | .gzCoef => s

end Sys2Proof.Machine
end

