-- ==== Sys2Proof/Machine/Fft.lean ====
section
/-! DEFINITION. The FFT engine and the commands FFT and IFFT (spec/41_fft.md). -/

namespace Sys2Proof.Machine

open Sys2Proof

/-- `rev_L(k)`: the `L` low bits of `k` read backwards (R176). -/
def bitRev : Nat → Nat → Nat
  | 0, _ => 0
  | l + 1, k => (k % 2) * 2 ^ l + bitRev l (k / 2)

/-- The bit-reversal permutation: word `k` of the result is word `rev_L(k)` (R176). -/
def bitReverse (l : Nat) (xs : List Cplx) : List Cplx :=
  (List.range xs.length).map (fun k => xs.getD (bitRev l k) (0, 0))

/-- The stage angle `(-2.0 * PI64) / to_f64(2^s)` (R178). -/
def stageAngle (s : Nat) : Word := fdiv (fmul (fneg f64Two) pi64) (toF64 (2 ^ s))

/-- The twiddle ROM, `TWROM[s]` (R178). -/
def twRom (t : TrigUnit) (s : Nat) : Cplx := (cos64 t (stageAngle s), sin64 t (stageAngle s))

/-- The twiddles from `w` on: each next one is the current one times the base twiddle (R182). -/
def twiddlesFrom (base : Cplx) : Nat → Cplx → List Cplx
  | 0, _ => []
  | n + 1, w => w :: twiddlesFrom base n (cmul w base)

/-- `w_{s,0..half-1}`, seeded with `(1.0, +0.0)` (R182). -/
def twiddles (t : TrigUnit) (s half : Nat) : List Cplx := twiddlesFrom (twRom t s) half (f64One, 0)

/-- The low output of a butterfly: the even element plus the odd one times the twiddle (R180). -/
def butterflyLow (u x w : Cplx) : Cplx := (fadd u.1 (cmul x w).1, fadd u.2 (cmul x w).2)

/-- The high output of a butterfly: the even element minus the odd one times the twiddle (R180). -/
def butterflyHigh (u x w : Cplx) : Cplx := (fsub u.1 (cmul x w).1, fsub u.2 (cmul x w).2)

/-- One output half of a block: a butterfly output for each even element, odd element and twiddle (R179, R180). -/
def halfBlock (f : Cplx → Cplx → Cplx → Cplx) : List Cplx → List Cplx → List Cplx → List Cplx
  | u :: us, x :: xs, w :: ws => f u x w :: halfBlock f us xs ws
  | _, _, _ => []

/-- One block of a stage: the low half, then the high half (R179). -/
def block (ws lo hi : List Cplx) : List Cplx :=
  halfBlock butterflyLow lo hi ws ++ halfBlock butterflyHigh lo hi ws

/-- The blocks of a stage, one after another (R179, R181). -/
def blocks (ws : List Cplx) (half : Nat) : Nat → List Cplx → List Cplx
  | 0, xs => xs
  | n + 1, xs =>
    block ws (xs.take half) ((xs.drop half).take half) ++ blocks ws half n (xs.drop (2 * half))

/-- Stage `s` over the whole sequence; every block sees the same twiddles (R179, R182). -/
def stage (t : TrigUnit) (xs : List Cplx) (s : Nat) : List Cplx :=
  blocks (twiddles t s (2 ^ (s - 1))) (2 ^ (s - 1)) (xs.length / 2 ^ s) xs

/-- The engine: the permutation, then the stages `1` to `log2 n` in order (R175, R181). -/
def engine (t : TrigUnit) (xs : List Cplx) : List Cplx :=
  let l := Nat.log2 xs.length
  ((List.range l).map (· + 1)).foldl (stage t) (bitReverse l xs)

/-- The engine on two rails (R175, R183). -/
def transform (t : TrigUnit) (re im : List Word) : List Word × List Word := (engine t (re.zip im)).unzip

/-- The IFFT scalar: every word divided by `to_f64(n)` (R186). -/
def scaleRail (n : Nat) (ws : List Word) : List Word := ws.map (fun w => fdiv w (toF64 n))

/-- The source's carry propagation on the reversed index: from the mask `bit`, clear the set bits of `j` from the top down and
set the first clear one (R177). The first argument bounds the bits looked at. -/
def reverseCarry : Nat → Nat → Nat → Nat
  | 0, j, _ => j
  | fuel + 1, j, bit => if j &&& bit != 0 then reverseCarry fuel (j ^^^ bit) (bit >>> 1) else j ^^^ bit

/-- Exchanging two words of a sequence. -/
def swapAt (xs : List Cplx) (i j : Nat) : List Cplx :=
  (xs.set i (xs.getD j (0, 0))).set j (xs.getD i (0, 0))

/-- The loop of R177 over the given indices, with the running reversed index `j`. -/
def swapLoop (n : Nat) : List Nat → Nat → List Cplx → List Cplx
  | [], _, xs => xs
  | i :: is, j, xs =>
    let j' := reverseCarry (Nat.log2 n + 1) j (n >>> 1)
    swapLoop n is j' (if i < j' then swapAt xs i j' else xs)

/-- The source's in-place algorithm for the permutation (R177). The engine is defined by the permutation it computes (R176). -/
def bitReverseSwaps (n : Nat) (xs : List Cplx) : List Cplx := swapLoop n ((List.range (n - 1)).map (· + 1)) 0 xs

/-- Both rails of a transform written back, and the command completed (R183, R256). -/
def finishTransform (ra rb : Bank) (re im : List Word) (s : State) : State :=
  finish { s with
    mem := writeRun (writeRun s.mem ra 0 re) rb 0 im
    engine := s.engine.afterTransform s.draws
    draws := s.draws + 1 }

/-- FFT at its completion: the pure function of banks, latches and parameters (R183, R257). -/
def runFft (ra rb : Bank) (s : State) : Host.Outcome State Fault Refusal :=
  withWords s ra (runLength s) fun re =>
  withWords s rb (runLength s) fun im =>
    let out := transform s.config.trig re im
    .next (finishTransform ra rb out.1 out.2 s)

/-- IFFT at its completion: the forward transform unmodified, then the scalar (R185, R186). -/
def runIfft (ra rb : Bank) (s : State) : Host.Outcome State Fault Refusal :=
  withWords s ra (runLength s) fun re =>
  withWords s rb (runLength s) fun im =>
    let out := transform s.config.trig re im
    .next (finishTransform ra rb (scaleRail (runLength s) out.1) (scaleRail (runLength s) out.2) s)

/-- `FFT ra, rb` written to CMD (R183, R245). -/
def execFft (ra rb : Bank) (s : State) : Host.Outcome State Fault Refusal :=
  issue (encode (.fft ra rb)) (issueCheck (.fft ra rb) s) (runFft ra rb) s

/-- `IFFT ra, rb` written to CMD (R185, R245). -/
def execIfft (ra rb : Bank) (s : State) : Host.Outcome State Fault Refusal :=
  issue (encode (.ifft ra rb)) (issueCheck (.ifft ra rb) s) (runIfft ra rb) s

end Sys2Proof.Machine
end

