-- ==== Sys2Proof/Machine/Dct.lean ====
section
/-! DEFINITION. The command DCT (spec/42_dct.md). -/

namespace Sys2Proof.Machine

open Sys2Proof

/-- The words at even positions. -/
def evens : List Word → List Word
  | [] => []
  | [x] => [x]
  | x :: _ :: rest => x :: evens rest

/-- The words at odd positions. -/
def odds : List Word → List Word
  | [] => []
  | [_] => []
  | _ :: y :: rest => y :: odds rest

/-- The repacked real rail: the even samples forward, then the odd samples from the tail (R191). -/
def repack (val : List Word) : List Word := evens val ++ (odds val).reverse

/-- The reconstruction angle `((-PI64) * to_f64(i)) / to_f64(2 * n)` (R193). -/
def dctAngle (n i : Nat) : Word := fdiv (fmul (fneg pi64) (toF64 i)) (toF64 (2 * n : Nat))

/-- The coefficient of index `i` from the transformed scratch words of that index (R193). -/
def dctCoefficient (t : TrigUnit) (n i : Nat) (re im : Word) : Word :=
  fsub (fmul (fmul f64Two re) (cos64 t (dctAngle n i))) (fmul (fmul f64Two im) (sin64 t (dctAngle n i)))

/-- The reconstruction loop, from index `i` on (R193). -/
def reconstructFrom (t : TrigUnit) (n : Nat) : Nat → List Word → List Word → List Word
  | i, r :: rs, m :: ms => dctCoefficient t n i r m :: reconstructFrom t n (i + 1) rs ms
  | _, _, _ => []

/-- The DCT of a buffer: repack, transform at length `n` on a zero imaginary rail, reconstruct (R190 to R193). -/
def dct (t : TrigUnit) (val : List Word) : List Word :=
  let out := transform t (repack val) (List.replicate val.length 0)
  reconstructFrom t val.length 0 out.1 out.2

/-- DCT at its completion (R190, R257). -/
def runDct (ra : Bank) (s : State) : Host.Outcome State Fault Refusal :=
  withWords s ra (runLength s) fun val =>
    .next (finish { s with
      mem := writeRun s.mem ra 0 (dct s.config.trig val)
      engine := s.engine.afterDct s.draws s.config.nmax
      draws := s.draws + 1 })

/-- `DCT ra` written to CMD (R190, R245). -/
def execDct (ra : Bank) (s : State) : Host.Outcome State Fault Refusal :=
  issue (encode (.dct ra)) (issueCheck (.dct ra) s) (runDct ra) s

end Sys2Proof.Machine
end

