-- ==== Sys2Proof/Machine/Goertzel.lean ====
section
/-! DEFINITION. The command GOERTZEL (spec/44_goertzel.md). -/

namespace Sys2Proof.Machine

open Sys2Proof

/-- The quantised coefficients, as raw integers (R229). -/
structure GoertzelCoefs where
  fb : Int
  ffr : Int
  ffi : Int
deriving DecidableEq, Repr

/-- The delay line and the overflow accumulated so far (R230, R231). -/
structure DelayLine where
  w0 : Int
  w1 : Int
  w2 : Int
  ovf : Bool
deriving DecidableEq, Repr

/-- What GOERTZEL returns (R237 to R239). -/
structure GoertzelResult where
  yr : Int
  yi : Int
  mag : BitVec 32
  ovf : Bool
deriving DecidableEq, Repr

/-- `qc`: the 16-bit registers clamp, the wide ones hold every value (R229). -/
def clampCoef (wide : Bool) (r : Int) : Int := if wide then r else satTo 16 r

/-- A binary64 coefficient rounded to `f` fractional bits; scaling by the power of two is exact (R229). -/
def roundCoef (x : Word) (f : Nat) : Int := roundAway (fmul x (toF64 (2 ^ f)))

/-- The coefficients of an angle: `ffr = -cos`, `ffi = sin`, `fbd = 2.0 * cos`, quantised (R228, R229). -/
def goertzelCoefs (c : Config) (ang : Word) : GoertzelCoefs where
  ffr := clampCoef c.gzCoefWide (roundCoef (fneg (cos64 c.trig ang)) 15)
  ffi := clampCoef c.gzCoefWide (roundCoef (sin64 c.trig ang) 15)
  fb := clampCoef c.gzCoefWide (roundCoef (fmul f64Two (cos64 c.trig ang)) 14)

/-- The sum an iteration forms from the shifted delay line, before it is written to `w0` (R231). -/
def filterSum (fb : Int) (d : DelayLine) (x : Int) : Int := qmul d.w0 fb 14 + x - d.w1

/-- One filter iteration on an input and its overflow: shift the line, form the new `w0`, wrap it to 32 bits (R164, R231). -/
def filterStep (fb : Int) (d : DelayLine) (x : Int × Bool) : DelayLine where
  w0 := wrapTo 32 (filterSum fb d x.1)
  w1 := d.w0
  w2 := d.w1
  ovf := d.ovf || x.2 || !fitsIn 32 (filterSum fb d x.1)

/-- The delay line at the start of every command (R230). -/
def delayReset : DelayLine := ⟨0, 0, 0, false⟩

/-- The filter's inputs: the quantised samples, then the flushing zero (R232, R233). -/
def filterInputs (qw : Nat) (samples : List Word) : List (Int × Bool) :=
  samples.map (fun x => quantise x qw 32) ++ [(0, false)]

/-- The `N + 1` iterations (R233). -/
def runFilterLine (fb : Int) (inputs : List (Int × Bool)) : DelayLine := inputs.foldl (filterStep fb) delayReset

/-- The feedforward multiply in either form (R236). -/
def feedforward (form : OutForm) (w0 w1 : Int) (c : GoertzelCoefs) : Int × Int :=
  match form with
  | .bin => (w0 + (qcmulR w1 (c.ffr, c.ffi)).1, (qcmulR w1 (c.ffr, c.ffi)).2)
  | .pair => qcmulC (w0, w1) (c.ffr, c.ffi)

/-- The integer magnitude (R239). -/
def goertzelMag (yr yi : Int) : BitVec 32 := truncU32 (fsqrt (toF64 (yr * yr + yi * yi)))

/-- The reduction of a part of the result by five bits, before it is written (R163, R237). -/
def reducePart (qw : Nat) (y : Int) : Int := align y qw (qw - 5)

/-- The finalisation: feedforward, reduction, magnitude, overflow (R235 to R239). -/
def finaliseGoertzel (c : Config) (k : GoertzelCoefs) (d : DelayLine) : GoertzelResult :=
  let y := feedforward c.gzOutForm d.w0 d.w1 k
  let r := reducePart c.gzWQn y.1
  let i := reducePart c.gzWQn y.2
  { yr := wrapTo 32 r
    yi := wrapTo 32 i
    mag := goertzelMag (wrapTo 32 r) (wrapTo 32 i)
    ovf := d.ovf || !fitsIn 32 r || !fitsIn 32 i }

/-- The coefficients of a running command, from its latches (R226, R227). -/
def latchedCoefs (s : State) : GoertzelCoefs :=
  goertzelCoefs s.config
    (goertzelAngle (runLength s) (goertzelBin (runLength s) s.latch.det s.latch.fs))

/-- The detector over its samples (R226). -/
def detect (c : Config) (k : GoertzelCoefs) (samples : List Word) : GoertzelResult :=
  finaliseGoertzel c k (runFilterLine k.fb (filterInputs c.gzWQn samples))

/-- The result registers of a detection (R42 to R44, R226). -/
def resultRegs (k : GoertzelCoefs) (r : GoertzelResult) : GoertzelRegs where
  mag := r.mag
  yr := BitVec.ofInt 32 r.yr
  yi := BitVec.ofInt 32 r.yi
  fb := BitVec.ofInt 20 k.fb
  ffr := BitVec.ofInt 20 k.ffr
  ffi := BitVec.ofInt 20 k.ffi

/-- GOERTZEL at its completion (R226, R238, R257). -/
def runGoertzel (ra : Bank) (s : State) : Host.Outcome State Fault Refusal :=
  withWords s ra (runLength s) fun samples =>
    let k := latchedCoefs s
    let r := detect s.config k samples
    .next (finish { s with
      gz := resultRegs k r
      status := s.status.withOverflow r.ovf
      engine := s.engine.afterGoertzel s.draws
      draws := s.draws + 1 })

/-- `GOERTZEL ra` written to CMD (R226, R245). -/
def execGoertzel (ra : Bank) (s : State) : Host.Outcome State Fault Refusal :=
  issue (encode (.goertzel ra)) (issueCheck (.goertzel ra) s) (runGoertzel ra) s

end Sys2Proof.Machine
end

