-- ==== Sys2Proof/Machine/Spectral.lean ====
section
/-! DEFINITION. The element-wise commands HANN, FILTER and MAGPWR (spec/43_spectral.md). -/

namespace Sys2Proof.Machine

open Sys2Proof

/-- The window angle `((2.0 * PI64) * to_f64(i)) / to_f64(n - 1)` (R200). -/
def hannAngle (n i : Nat) : Word := fdiv (fmul (fmul f64Two pi64) (toF64 i)) (toF64 (n - 1 : Nat))

/-- Word `i` of the window, `0.5 * (1.0 - cos64(a))` (R200). -/
def hannWord (t : TrigUnit) (n i : Nat) : Word := fmul f64Half (fsub f64One (cos64 t (hannAngle n i)))

/-- The window of length `n` (R200). -/
def hannWindow (t : TrigUnit) (n : Nat) : List Word := (List.range n).map (hannWord t n)

/-- HANN at its completion; it reads no bank word (R200, R257). -/
def runHann (ra : Bank) (s : State) : Host.Outcome State Fault Refusal :=
  .next (finish { s with mem := writeRun s.mem ra 0 (hannWindow s.config.trig (runLength s)) })

/-- FILTER at its completion: each word times the coefficient of its index, both read before the write (R205, R257). -/
def runFilter (ra rb : Bank) (s : State) : Host.Outcome State Fault Refusal :=
  withWords s ra (runLength s) fun val =>
  withWords s rb (runLength s) fun fval =>
    .next (finish { s with mem := writeRun s.mem ra 0 (val.zipWith fmul fval) })

/-- The squared magnitude of a bin, `(r * r) + (m * m)` (R210). -/
def squaredMagnitude (r m : Word) : Word := fadd (fmul r r) (fmul m m)

/-- The summary scalar: the sum in index order from the epsilon, the mean, the root (R210). -/
def powerSummary (eps : Word) (mags : List Word) (n : Nat) : Word := fsqrt (fdiv (mags.foldl fadd eps) (toF64 n))

/-- MAGPWR at its completion (R210, R257). -/
def runMagpwr (ra rb rc : Bank) (s : State) : Host.Outcome State Fault Refusal :=
  withWords s ra (runLength s) fun re =>
  withWords s rb (runLength s) fun im =>
    let mags := re.zipWith squaredMagnitude im
    .next (finish { s with
      mem := writeRun s.mem rc 0 mags
      pwr := powerSummary s.config.magpwrEps mags (runLength s)
      engine := s.engine.afterMagpwr s.draws
      draws := s.draws + 1 })

/-- `HANN ra` written to CMD (R200, R245). -/
def execHann (ra : Bank) (s : State) : Host.Outcome State Fault Refusal :=
  issue (encode (.hann ra)) (issueCheck (.hann ra) s) (runHann ra) s

/-- `FILTER ra, rb` written to CMD (R205, R245). -/
def execFilter (ra rb : Bank) (s : State) : Host.Outcome State Fault Refusal :=
  issue (encode (.filter ra rb)) (issueCheck (.filter ra rb) s) (runFilter ra rb) s

/-- `MAGPWR ra, rb, rc` written to CMD (R210, R245). -/
def execMagpwr (ra rb rc : Bank) (s : State) : Host.Outcome State Fault Refusal :=
  issue (encode (.magpwr ra rb rc)) (issueCheck (.magpwr ra rb rc) s) (runMagpwr ra rb rc) s

end Sys2Proof.Machine
end

