-- ==== Sys2Proof/Machine/Dispatch.lean ====
section
/-! DEFINITION. One arm per command: what a host write of its command word to CMD does. -/

namespace Sys2Proof.Machine

def exec (i : Instr) (s : State) : Host.Outcome State Fault Refusal :=
  match i with
  | .fft ra rb => Sys2Proof.Machine.execFft ra rb s
  | .ifft ra rb => Sys2Proof.Machine.execIfft ra rb s
  | .dct ra => Sys2Proof.Machine.execDct ra s
  | .hann ra => Sys2Proof.Machine.execHann ra s
  | .filter ra rb => Sys2Proof.Machine.execFilter ra rb s
  | .magpwr ra rb rc => Sys2Proof.Machine.execMagpwr ra rb rc s
  | .goertzel ra => Sys2Proof.Machine.execGoertzel ra s

end Sys2Proof.Machine
end

