-- ==== Sys2Proof/Machine/Bus.lean ====
section
/-! DEFINITION. The host bus (spec/20_memory.md), the completion of a running command, and what one pending event does. -/

namespace Sys2Proof.Machine

open Sys2Proof

/-- What stands at a bus offset (R84). -/
inductive Target where
  | reg (r : Reg)
  | bank (b : Bank) (k : Nat)
  | unmapped
deriving DecidableEq, Repr

/-- The bank whose window an offset lies in (R84, R86). -/
def bankOf? (a : Nat) : Option Bank :=
  match a / 0x10000 with
  | 1 => some .A
  | 2 => some .B
  | 3 => some .C
  | _ => none

/-- The address map (R84). -/
def targetOf (c : Config) (a : Nat) : Target :=
  match bankOf? a with
  | some b => if a % 0x10000 / 8 < c.nmax then .bank b (a % 0x10000 / 8) else .unmapped
  | none =>
    match Reg.at? a with
    | some r => .reg r
    | none => .unmapped

/-- The accesses the block takes: 64 bits wide, 8-byte aligned (R83). -/
def isWordAccess (addr : BitVec 18) (bytes : Nat) : Bool := bytes == 8 && addr.toNat % 8 == 0

/-- A transaction's response. It is the only thing a bus error leaves (R95). -/
def respond (r : BusResponse) (s : State) : State := { s with response := some r }

/-- A host read of a bank word: what was last written there, or what the reset left (R53, R87). -/
def bankReadData (s : State) (b : Bank) (k : Nat) : Word :=
  match bankWord? s.mem b k with
  | some w => w
  | none => Config.powerOnWord s.epoch (wordOffset b k)

/-- `MemRead(addr, bytes)`: the response alone changes (R83 to R90, R95). -/
def hostRead (addr : BitVec 18) (bytes : Nat) (s : State) : State :=
  if isWordAccess addr bytes then
    match targetOf s.config addr.toNat with
    | .reg r => respond (.readOkay (readReg s r)) s
    | .bank b k => if s.status.busy then respond (.readError 0) s else respond (.readOkay (bankReadData s b k)) s
    | .unmapped => respond (.readError 0) s
  else respond (.readError 0) s

/-- A malformed word written to CMD: dropped while busy, else rejected with code CMD (R246, R249). -/
def execMalformed (s : State) : Host.Outcome State Fault Refusal :=
  if s.status.busy then .next (overrun s) else .next (reject .cmd s)

/-- A write to CMD presents its word to the issue logic (R34, R245). -/
def writeCmd (v : Word) (s : State) : Host.Outcome State Fault Refusal :=
  match decode v with
  | .ok i => exec i s
  | .error _ => execMalformed s

/-- `MemWrite(addr, bytes, v)` (R83 to R90, R95). -/
def hostWrite (addr : BitVec 18) (bytes : Nat) (v : Word) (s : State) : Host.Outcome State Fault Refusal :=
  if isWordAccess addr bytes then
    match targetOf s.config addr.toNat with
    | .reg .cmd => writeCmd v (respond .writeOkay s)
    | .reg r => .next (writeReg (respond .writeOkay s) r v)
    | .bank b k =>
      if s.status.busy then .next (respond .writeError s)
      else .next { respond .writeOkay s with mem := setBankWord s.mem b k v }
    | .unmapped => .next (respond .writeError s)
  else .next (respond .writeError s)

/-- The effect of a command that was accepted before, from its latches (R257). -/
def runCommand (i : Instr) (s : State) : Host.Outcome State Fault Refusal :=
  match i with
  | .fft ra rb => runFft ra rb s
  | .ifft ra rb => runIfft ra rb s
  | .dct ra => runDct ra s
  | .hann ra => runHann ra s
  | .filter ra rb => runFilter ra rb s
  | .magpwr ra rb rc => runMagpwr ra rb rc s
  | .goertzel ra => runGoertzel ra s

/-- The completion event of the command in the latches (R48, R256). -/
def complete (s : State) : Host.Outcome State Fault Refusal :=
  match decode s.latch.cmd with
  | .ok i => runCommand i s
  | .error _ => .fault .latchedWordMalformed

/-- A host transaction has passed while a command was running: the completion event comes if it was the last one before it
(R256). -/
def tick (s : State) : Host.Outcome State Fault Refusal :=
  if s.wait ≤ 1 then complete s else .next { s with wait := s.wait - 1 }

/-- What follows a host transaction: nothing if the block was idle before it. -/
def afterTransaction (wasBusy : Bool) (o : Host.Outcome State Fault Refusal) : Host.Outcome State Fault Refusal :=
  if wasBusy then andThen o tick else o

/-- Reset: every register at its reset value, no bank word written, nothing running (R281, R283). What is not the block's own
(its parameters, the pending events, the numbers that tell draws apart) is kept. -/
def resetBlock (s : State) : State :=
  { State.resetWith s.config with
    latency := s.latency
    bus := s.bus
    epoch := s.epoch + 1
    draws := s.draws }

/-- One event of the outside world. -/
def serve (e : HostEvent) (s : State) : Host.Outcome State Fault Refusal :=
  match e with
  | .read addr bytes => afterTransaction s.status.busy (.next (hostRead addr bytes s))
  | .write addr bytes v => afterTransaction s.status.busy (hostWrite addr bytes v s)
  | .reset => .next (resetBlock s)

/-- No host transaction is pending: a running command completes (R272), an idle block waits (R282). -/
def quiet (s : State) : Host.Outcome State Fault Refusal :=
  if s.status.busy then complete s else .next s

end Sys2Proof.Machine
end

