-- ==== Sys2Proof/Machine/Step.lean ====
section
/-! DEFINITION. One step of the machine, and the placing of a command word where the next step takes it from. -/

namespace Sys2Proof.Machine

open Sys2Proof

/-- One step: the oldest pending event of the outside world and, where it falls due, the completion event that follows it
(R81, R93, R256). -/
def step (s : State) : Host.Outcome State Fault Refusal :=
  match s.bus with
  | [] => quiet s
  | e :: rest => serve e { s with bus := rest }

/-- The offset of CMD, on the bus. -/
def cmdAddr : BitVec 18 := 0x18#18

/-- The state in which the next step presents the given command word: the block fetches no instruction (R46), so the word is
the data of a pending host write to CMD, ahead of every other pending event, and no command is running that would have the
write dropped. -/
def State.withFetchWord (s : State) (nbits w : Nat) : State :=
  { s with
    status := { s.status with busy := false }
    bus := .write cmdAddr 8 (tableWord nbits w) :: s.bus }

end Sys2Proof.Machine
end

