-- ==== Sys2Proof/Safety.lean ====
section
/-! DEFINITION. The words claims are stated in: what a bank holds, which bytes a command stores to, what a command leaves
alone, and the invariant of the block. -/

namespace Sys2Proof.Machine

open Sys2Proof

/-- The first words of a bank are these, all of them written. -/
abbrev bankHolds (m : Memory) (b : Bank) (ws : List Word) : Prop :=
  ∀ k, k < ws.length → bankWord? m b k = ws[k]?

/-- The bytes of the first `n` words of a bank (R47, R84). -/
abbrev inWords (b : Bank) (n a : Nat) : Prop := wordOffset b 0 ≤ a ∧ a < wordOffset b n

/-- Every byte of memory outside the first `n` words of a bank reads in `t` as in `s`. -/
def onlyWordsStored (b : Bank) (n : Nat) (s t : State) : Prop :=
  ∀ a, ¬ inWords b n a → t.mem.byte? a = s.mem.byte? a

/-- The registers no command writes, and the events that are still pending (R45, R47). -/
def hostStateKept (s t : State) : Prop :=
  t.config = s.config ∧ t.doneIe = s.doneIe ∧ t.len = s.len ∧ t.detectHz = s.detectHz ∧ t.sampleHz = s.sampleHz
    ∧ t.bus = s.bus ∧ t.response = s.response ∧ t.epoch = s.epoch

/-- The latches an acceptance of the command word `v` writes (R48, R245). -/
def latchedAt (v : Word) (s : State) : Latch := { cmd := v, len := s.len, det := s.detectHz, fs := s.sampleHz }

/-- STATUS after a completed command that raised no overflow (R256). -/
def completedStatus (s : State) : Status := { s.status with busy := false, done := true, err := .none }

/-- STATUS of an accepted command (R245). -/
def acceptedStatus (s : State) : Status := { s.status with busy := true, done := false, err := .none }

/-- A bus offset inside some bank (R84). -/
def isBankByte (c : Config) (a : Nat) : Bool :=
  (decide (wordOffset .A 0 ≤ a) && decide (a < wordOffset .A c.nmax))
    || (decide (wordOffset .B 0 ≤ a) && decide (a < wordOffset .B c.nmax))
    || (decide (wordOffset .C 0 ≤ a) && decide (a < wordOffset .C c.nmax))

/-- Every listed byte is a byte of a bank (R84). -/
def Memory.inBanks (c : Config) (m : Memory) : Bool := m.all (fun cell => isBankByte c cell.1)

/-- What is in the latches is a command that passed its checks (R245, R249 to R254). -/
def latchedLegal (s : State) : Bool :=
  match decode s.latch.cmd with
  | .ok i => check s.config i s.latch.len s.latch.det s.latch.fs == .none
  | .error _ => false

/-- The invariant: legal parameters (R7), memory in canonical form and inside the banks (R84), a running command that is legal,
with DONE clear and ERR NONE (R245, R256), nothing waited for while idle, and scratch of `NMAX` words (R50). -/
structure BlockInv (s : State) : Prop where
  configValid : s.config.valid = true
  memWf : s.mem.wf = true
  memInBanks : Memory.inBanks s.config s.mem = true
  running : s.status.busy = true →
    latchedLegal s = true ∧ s.status.done = false ∧ s.status.err = .none ∧ 1 ≤ s.wait
  idle : s.status.busy = false → s.wait = 0
  scratchRe : s.engine.sre.length = s.config.nmax
  scratchIm : s.engine.sim.length = s.config.nmax

/-- The bank words a command reads (R183 to R226, R284): nothing for HANN. -/
def inputBanks : Instr → List Bank
  | .fft ra rb => [ra, rb]
  | .ifft ra rb => [ra, rb]
  | .dct ra => [ra]
  | .hann _ => []
  | .filter ra rb => [ra, rb]
  | .magpwr ra rb _ => [ra, rb]
  | .goertzel ra => [ra]

/-- Every bank word a command of length `n` reads is written (R53, R284). -/
def inputsWritten (i : Instr) (n : Nat) (m : Memory) : Prop :=
  ∀ b, b ∈ inputBanks i → ∀ k, k < n → (bankWord? m b k).isSome = true

/-- The lengths a command accepts, as R252's table writes them. -/
def acceptedLength (c : Config) (i : Instr) (n : Nat) : Prop :=
  match i with
  | .fft _ _ => (∃ l, n = 2 ^ l) ∧ 1 ≤ n ∧ n ≤ c.nmax
  | .ifft _ _ => (∃ l, n = 2 ^ l) ∧ 1 ≤ n ∧ n ≤ c.nmax
  | .dct _ => (∃ l, n = 2 ^ l) ∧ 2 ≤ n ∧ n ≤ c.nmax
  | .hann _ => 2 ≤ n ∧ n ≤ c.nmax
  | .filter _ _ => 1 ≤ n ∧ n ≤ c.nmax
  | .magpwr _ _ _ => 1 ≤ n ∧ n ≤ c.nmax
  | .goertzel _ => 1 ≤ n ∧ n ≤ c.nmax

/-- Half a spacing above the largest finite binary64, in units: from there on a rounding gives infinity (R150). -/
def overflowUnits : Nat := (2 ^ 54 - 1) * 2 ^ 2044

/-- A pattern that is no finite value. -/
def notFinite (w : Word) : Prop := ∀ neg u, classify w ≠ .fin neg u

/-- The frequency arguments GOERTZEL rejects, as R253 lists them. -/
def badFrequencies (n : Nat) (det fs : Word) : Prop :=
  notFinite fs ∨ (∃ u, classify fs = .fin true u) ∨ classify fs = .fin false 0
    ∨ notFinite det
    ∨ notFinite (fdiv (fmul (toF64 n) det) fs)
    ∨ notFinite (fdiv (fmul (fmul f64Two pi64) (fdiv (fmul (toF64 n) det) fs)) (toF64 n))

/-- `r` is the finite value `x` times `2^f`, rounded to the nearest whole number with halfway cases away from zero: the scaled
magnitude is `u * 2^f` units, and `floor(|y| + 1/2)` of it is taken (R161, R229). -/
def scaledRounding (x : Word) (f : Nat) (r : Int) : Prop :=
  ∃ neg u, classify x = .fin neg u ∧
    r = (if neg then -1 else 1) * (((2 * (u * 2 ^ f) + oneUnits) / (2 * oneUnits) : Nat) : Int)

/-- `k` is the coefficient `x` quantised to `f` fractional bits: rounded, and clamped to 16 bits unless the registers are
wide (R229). -/
def isCoefficient (wide : Bool) (x : Word) (f : Nat) (k : Int) : Prop :=
  ∃ r, scaledRounding x f r ∧ k = if wide then r else min (max r (-32768)) 32767

/-- The state a rejection with code `e` leaves (R250). -/
def rejectedWith (e : ErrCode) (s : State) : State :=
  { s with status := { s.status with done := true, err := e } }

/-- The state an acceptance leaves whose completion is still `d` host transactions away (R245, R48). -/
def acceptedWaiting (i : Instr) (d : Nat) (s : State) : State :=
  { s with
    status := acceptedStatus s
    latch := latchedAt (encode i) s
    wait := d
    latency := s.latency.tail }

/-- What every command leaves of the host's side and of the command's own bookkeeping when it has completed in the step that
accepted it: the latches written, nothing waited for, no register of the host's changed (R45, R48, R256). -/
def completedFrame (i : Instr) (s t : State) : Prop :=
  hostStateKept s t ∧ t.latch = latchedAt (encode i) s ∧ t.wait = 0 ∧ t.latency = s.latency.tail

/-- The hidden registers but the twiddle registers are unchanged (R49). -/
def onlyTwiddlesTouched (s t : State) : Prop :=
  { t.engine with twR := s.engine.twR, twI := s.engine.twI, twlR := s.engine.twlR, twlI := s.engine.twlI } = s.engine

/-- A state without its hidden registers and without the number their leftovers were drawn with: what R52 says decides every
result. -/
def hideEngine (s : State) : State := { s with engine := Engine.reset 0, draws := 0 }

/-- An outcome whose next state is seen through `f`. -/
def mapNext (f : State → State) (o : Host.Outcome State Fault Refusal) : Host.Outcome State Fault Refusal :=
  match o with
  | .next t => .next (f t)
  | .fault e => .fault e
  | .refused r => .refused r

/-- A host event that is a transaction, not a reset. -/
def HostEvent.isTransaction : HostEvent → Bool
  | .read _ _ => true
  | .write _ _ _ => true
  | .reset => false

end Sys2Proof.Machine
end

