-- ==== Sys2Proof/Certificates/Slice0/Obligations.lean ====
section
/-! DEFINITION. The statements for the provers. Each docstring names the rules of spec/ the statement is about. -/

open Sys2Proof Sys2Proof.Machine

/-! ### Encoding -/

/-- A word decodes to a command exactly when it is that command's word: no two words share a command, no word has two, and no
field of a command is dropped (R121, R122, R126, R127). -/
def Obligations.DecodeEncodeAgreeBothWays : Prop :=
  ∀ (v : Word) (i : Instr), decode v = .ok i ↔ v = encode i

/-- R125: the decoder rejects exactly the malformed words, and a malformed word written to CMD while idle is rejected with
code CMD. -/
def Obligations.MalformedWordsAreRejected : Prop :=
  ∀ (v : Word), ((∃ e, decode v = .error e) ↔ malformed v = true) ∧
    ∀ (s : State), malformed v = true → s.status.busy = false → writeCmd v s = .next (rejectedWith .cmd s)

/-- R127's examples, and two words of R125. -/
def Obligations.ExampleWordsDecode : Prop :=
  decode 0x41 = .ok (.fft .A .B) ∧ decode 0x42 = .ok (.ifft .A .B) ∧ decode 0x03 = .ok (.dct .A)
    ∧ decode 0x23 = .ok (.dct .C) ∧ decode 0x24 = .ok (.hann .C) ∧ decode 0x85 = .ok (.filter .A .C)
    ∧ decode 0x246 = .ok (.magpwr .A .B .C) ∧ decode 0x17 = .ok (.goertzel .B)
    ∧ decode 0x441 = .error .reservedBits ∧ decode 0x0 = .error .reservedOp

/-! ### The step -/

/-- R34, R81, R256: a step whose event is a host transaction is that read or that write; where a command is running it then
counts towards the completion, which comes in this step where no further transaction is due before it. A write to CMD presents
its word, and a word that decodes to a command runs that command: while idle the step is `exec` of it at the state with the
event taken and the OKAY response given, while a command runs OVERRUN is set and nothing else (R245, R246). -/
def Obligations.StepRunsTheDecodedCommand : Prop :=
  (∀ (s : State) (rest : List HostEvent) (v : Word) (i : Instr),
    s.bus = .write 0x018 8 v :: rest → decode v = .ok i →
      (s.status.busy = false → step s = exec i { s with bus := rest, response := some .writeOkay }) ∧
      (s.status.busy = true → s.wait ≤ 1 →
        step s = complete (overrun { s with bus := rest, response := some .writeOkay })) ∧
      (s.status.busy = true → 2 ≤ s.wait →
        step s = .next (overrun { s with bus := rest, response := some .writeOkay, wait := s.wait - 1 }))) ∧
  (∀ (s : State) (rest : List HostEvent) (addr : BitVec 18) (bytes : Nat), s.bus = .read addr bytes :: rest →
      (s.status.busy = false → step s = .next (hostRead addr bytes { s with bus := rest })) ∧
      (s.status.busy = true → s.wait ≤ 1 → step s = complete (hostRead addr bytes { s with bus := rest })) ∧
      (s.status.busy = true → 2 ≤ s.wait →
        step s = .next { hostRead addr bytes { s with bus := rest } with wait := s.wait - 1 })) ∧
  (∀ (s : State) (rest : List HostEvent) (addr : BitVec 18) (bytes : Nat) (v : Word),
    s.bus = .write addr bytes v :: rest →
      (s.status.busy = false → step s = hostWrite addr bytes v { s with bus := rest }) ∧
      (s.status.busy = true → ∃ u, hostWrite addr bytes v { s with bus := rest } = .next u ∧
        (s.wait ≤ 1 → step s = complete u) ∧ (2 ≤ s.wait → step s = .next { u with wait := s.wait - 1 }))) ∧
  ∀ (v : Word) (s : State), hostWrite 0x018 8 v s = writeCmd v { s with response := some .writeOkay }

/-- Where no event is pending, an idle block waits (R282) and a running command completes (R272). -/
def Obligations.QuietBlockWaitsOrCompletes : Prop :=
  ∀ (s : State), s.bus = [] →
    (s.status.busy = false → step s = .next s) ∧ (s.status.busy = true → step s = complete s)

/-! ### Issue: checks, rejection, acceptance -/

/-- R254, with R249 and R251 to R253: the checks run in the order CMD, OPERAND, LEN, ARG, the first that fails gives the code,
and a rejection changes DONE and ERR alone. -/
def Obligations.ChecksRunInPriorityOrder : Prop :=
  ∀ (v : Word) (s : State), s.status.busy = false →
    (malformed v = true → writeCmd v s = .next (rejectedWith .cmd s)) ∧
    ∀ i, decode v = .ok i →
      (i.wellFormed = false → writeCmd v s = .next (rejectedWith .operand s)) ∧
      (i.wellFormed = true → ¬ acceptedLength s.config i s.len.toNat → writeCmd v s = .next (rejectedWith .len s)) ∧
      (i.wellFormed = true → acceptedLength s.config i s.len.toNat → (∃ ra, i = .goertzel ra) →
        badFrequencies s.len.toNat s.detectHz s.sampleHz → writeCmd v s = .next (rejectedWith .arg s))

/-- R251: FFT and IFFT with one bank for both rails are rejected with OPERAND, whatever the other operands; no other command
ever is. -/
def Obligations.EqualRailsAreRejected : Prop :=
  (∀ (r : Bank) (s : State), s.status.busy = false →
    exec (.fft r r) s = .next (rejectedWith .operand s) ∧ exec (.ifft r r) s = .next (rejectedWith .operand s)) ∧
  ∀ (i : Instr) (s : State), (∀ r, i ≠ .fft r r ∧ i ≠ .ifft r r) → issueCheck i s ≠ .operand

/-- R252: a command is rejected with LEN exactly where its length is not one the table accepts (a well-formed command, an idle
block). -/
def Obligations.IllegalLengthsAreRejected : Prop :=
  ∀ (i : Instr) (s : State), s.status.busy = false → i.wellFormed = true →
    (¬ acceptedLength s.config i s.len.toNat → exec i s = .next (rejectedWith .len s)) ∧
    (acceptedLength s.config i s.len.toNat → issueCheck i s ≠ .len)

/-- R253: GOERTZEL of a legal length is rejected with ARG exactly where its frequency arguments are bad, and no other command
ever is. -/
def Obligations.BadFrequenciesAreRejected : Prop :=
  (∀ (ra : Bank) (s : State), s.status.busy = false → acceptedLength s.config (.goertzel ra) s.len.toNat →
    (badFrequencies s.len.toNat s.detectHz s.sampleHz → exec (.goertzel ra) s = .next (rejectedWith .arg s)) ∧
    (¬ badFrequencies s.len.toNat s.detectHz s.sampleHz → issueCheck (.goertzel ra) s = .none)) ∧
  ∀ (i : Instr) (s : State), (∀ ra, i ≠ .goertzel ra) → issueCheck i s ≠ .arg

/-- R245 and R48: a command that passes its checks, and whose completion is not due at once, leaves the latches written with the
command word and the operand registers, BUSY set, DONE and ERR clear, and everything else as it was. -/
def Obligations.AcceptanceLatchesTheOperands : Prop :=
  ∀ (i : Instr) (s : State) (d : Nat) (rest : List Nat),
    s.status.busy = false → issueCheck i s = .none → s.latency = (d + 1) :: rest →
      exec i s = .next (acceptedWaiting i (d + 1) s)

/-- R246: any word a host writes to CMD while a command runs is dropped with the response OKAY; its only effect is OVERRUN. -/
def Obligations.CommandWhileBusyIsDropped : Prop :=
  ∀ (v : Word) (s : State), s.status.busy = true →
    hostWrite 0x018 8 v s = .next { s with
      response := some .writeOkay
      status := { s.status with overrun := true } }

/-- R260: the interrupt line is DONE and DONE_IE. At a dropped command it stays, at a rejection and a completion it is DONE_IE,
at an acceptance it is low; and over every step it rises only at a completion, at a rejection and where the host sets DONE_IE
while DONE is set, and falls only where the host clears DONE or DONE_IE, at an acceptance and at a reset. -/
def Obligations.InterruptLineFollowsDone : Prop :=
  (∀ (s : State), irq s = (s.status.done && s.doneIe)) ∧
  (∀ (i : Instr) (s t : State), exec i s = .next t →
    (s.status.busy = true → irq t = irq s) ∧
    (s.status.busy = false → t.status.busy = false → irq t = s.doneIe) ∧
    (s.status.busy = false → t.status.busy = true → irq t = false)) ∧
  ∀ (s t : State), step s = .next t →
    (s.status.busy = true → t.status.busy = false → s.bus.head? ≠ some .reset → irq t = t.doneIe) ∧
    (irq s = false → irq t = true →
      (s.status.busy = true ∧ t.status.busy = false) ∨
      (s.status.busy = false ∧ t.status.busy = false ∧ ∃ v, s.bus.head? = some (.write 0x018 8 v)) ∨
      (s.status.done = true ∧ ∃ v, s.bus.head? = some (.write 0x028 8 v) ∧ v.getLsbD 0 = true)) ∧
    (irq s = true → irq t = false →
      (∃ v, s.bus.head? = some (.write 0x020 8 v) ∧ v.getLsbD 1 = true) ∨
      (∃ v, s.bus.head? = some (.write 0x028 8 v) ∧ v.getLsbD 0 = false) ∨
      (s.status.busy = false ∧ t.status.busy = true ∧ ∃ v, s.bus.head? = some (.write 0x018 8 v)) ∨
      s.bus.head? = some .reset)

/-- R35, R47, R238, R246: no command ever clears OVF and no command but GOERTZEL sets it; no command that is issued while idle
changes OVERRUN. Over every step but a reset, OVF and OVERRUN are cleared only by the host's write of a one to their bit of
STATUS; OVF is set only where a GOERTZEL command completes, and OVERRUN only by a write to CMD while a command runs, and by
each such write. -/
def Obligations.StickyFlagsAreKept : Prop :=
  (∀ (i : Instr) (s t : State), exec i s = .next t →
    (s.status.ovf = true → t.status.ovf = true) ∧
    ((∀ ra, i ≠ .goertzel ra) → t.status.ovf = s.status.ovf) ∧
    (s.status.busy = false → t.status.overrun = s.status.overrun)) ∧
  ∀ (s t : State), s.bus.head? ≠ some .reset → step s = .next t →
    (s.status.ovf = true → t.status.ovf = false →
      ∃ v, s.bus.head? = some (.write 0x020 8 v) ∧ v.getLsbD 8 = true) ∧
    (s.status.ovf = false → t.status.ovf = true →
      ∃ ra, decode t.latch.cmd = .ok (.goertzel ra) ∧ t.status.done = true ∧ t.status.busy = false) ∧
    (s.status.overrun = true → t.status.overrun = false →
      ∃ v, s.bus.head? = some (.write 0x020 8 v) ∧ v.getLsbD 9 = true) ∧
    (s.status.overrun = false → t.status.overrun = true →
      s.status.busy = true ∧ ∃ v, s.bus.head? = some (.write 0x018 8 v)) ∧
    (s.status.busy = true → (∃ v, s.bus.head? = some (.write 0x018 8 v)) → t.status.overrun = true)

/-- R41 to R44 and R288, over every step but a reset: PWR changes only where a MAGPWR command completes, and GZ_MAG, GZ_Y and
GZ_COEF only where a GOERTZEL command completes. -/
def Obligations.ResultRegistersHaveOneWriter : Prop :=
  ∀ (s t : State), s.bus.head? ≠ some .reset → step s = .next t →
    (t.pwr ≠ s.pwr → ∃ ra rb rc, decode t.latch.cmd = .ok (.magpwr ra rb rc) ∧ t.status.done = true
      ∧ t.status.busy = false) ∧
    (t.gz ≠ s.gz → ∃ ra, decode t.latch.cmd = .ok (.goertzel ra) ∧ t.status.done = true ∧ t.status.busy = false)

/-! ### Completion and results -/

/-- R175, R181, R183: the engine is the permutation and then the stages 1 to `log2 n` in increasing order, each over the whole
sequence the one before left, on the two rails as one sequence of complex samples. An accepted FFT whose inputs are written
replaces both rails by their transform, and changes nothing else. -/
def Obligations.FftReplacesBothRails : Prop :=
  (∀ (t : TrigUnit) (l : Nat) (xs : List Cplx), xs.length = 2 ^ l →
    ∃ st : Nat → List Cplx, st 0 = bitReverse l xs ∧ (∀ k, k < l → st (k + 1) = stage t (st k) (k + 1)) ∧
      engine t xs = st l) ∧
  (∀ (t : TrigUnit) (re im : List Word), re.length = im.length →
    transform t re im = ((engine t (re.zip im)).map Prod.fst, (engine t (re.zip im)).map Prod.snd)) ∧
  ∀ (ra rb : Bank) (s : State) (re im : List Word),
    s.config.valid = true → s.status.busy = false → s.latency.headD 0 = 0 →
    ra ≠ rb → acceptedLength s.config (.fft ra rb) s.len.toNat →
    re.length = s.len.toNat → im.length = s.len.toNat → bankHolds s.mem ra re → bankHolds s.mem rb im →
      ∃ t, exec (.fft ra rb) s = .next t ∧
        (transform s.config.trig re im).1.length = s.len.toNat ∧
        (transform s.config.trig re im).2.length = s.len.toNat ∧
        bankHolds t.mem ra (transform s.config.trig re im).1 ∧
        bankHolds t.mem rb (transform s.config.trig re im).2 ∧
        (∀ a, ¬ inWords ra s.len.toNat a → ¬ inWords rb s.len.toNat a → t.mem.byte? a = s.mem.byte? a) ∧
        t.status = completedStatus s ∧ completedFrame (.fft ra rb) s t ∧
        t.pwr = s.pwr ∧ t.gz = s.gz ∧ onlyTwiddlesTouched s t

/-- R185 and R186: an accepted IFFT does what FFT would do and then divides every word of both rails by `to_f64(n)`. -/
def Obligations.IfftIsFftDividedByLength : Prop :=
  ∀ (ra rb : Bank) (s : State),
    s.config.valid = true → s.status.busy = false → s.latency.headD 0 = 0 →
    ra ≠ rb → acceptedLength s.config (.ifft ra rb) s.len.toNat →
    inputsWritten (.ifft ra rb) s.len.toNat s.mem →
      ∃ f t, exec (.fft ra rb) s = .next f ∧ exec (.ifft ra rb) s = .next t ∧
        (∀ k, k < s.len.toNat → ∃ x y, bankWord? f.mem ra k = some x ∧ bankWord? f.mem rb k = some y ∧
          bankWord? t.mem ra k = some (fdiv x (toF64 s.len.toNat)) ∧
          bankWord? t.mem rb k = some (fdiv y (toF64 s.len.toNat))) ∧
        (∀ a, ¬ inWords ra s.len.toNat a → ¬ inWords rb s.len.toNat a → t.mem.byte? a = s.mem.byte? a) ∧
        t.status = completedStatus s ∧ completedFrame (.ifft ra rb) s t ∧
        t.pwr = s.pwr ∧ t.gz = s.gz ∧ onlyTwiddlesTouched s t

/-- R190 to R193: an accepted DCT whose input is written replaces the buffer by the coefficients reconstructed from the
transform, at length `n`, of the repacked buffer with a zero imaginary rail. -/
def Obligations.DctReplacesBufferByCoefficients : Prop :=
  ∀ (ra : Bank) (s : State) (val : List Word),
    s.config.valid = true → s.status.busy = false → s.latency.headD 0 = 0 →
    acceptedLength s.config (.dct ra) s.len.toNat → val.length = s.len.toNat → bankHolds s.mem ra val →
      ∃ t, exec (.dct ra) s = .next t ∧
        (∀ i, i < s.len.toNat → ∃ re im,
          (transform s.config.trig (repack val) (List.replicate s.len.toNat 0)).1[i]? = some re ∧
          (transform s.config.trig (repack val) (List.replicate s.len.toNat 0)).2[i]? = some im ∧
          bankWord? t.mem ra i = some
            (fsub
              (fmul (fmul f64Two re)
                (cos64 s.config.trig (fdiv (fmul (fneg pi64) (toF64 i)) (toF64 (2 * s.len.toNat : Nat)))))
              (fmul (fmul f64Two im)
                (sin64 s.config.trig (fdiv (fmul (fneg pi64) (toF64 i)) (toF64 (2 * s.len.toNat : Nat))))))) ∧
        onlyWordsStored ra s.len.toNat s t ∧
        t.status = completedStatus s ∧ completedFrame (.dct ra) s t ∧ t.pwr = s.pwr ∧ t.gz = s.gz ∧
        t.engine.w0 = s.engine.w0 ∧ t.engine.w1 = s.engine.w1 ∧ t.engine.w2 = s.engine.w2 ∧ t.engine.acc = s.engine.acc ∧
        t.engine.fb = s.engine.fb ∧ t.engine.ffr = s.engine.ffr ∧ t.engine.ffi = s.engine.ffi

/-- R200: an accepted HANN fills the buffer with the window, whatever the bank held, and changes nothing else. -/
def Obligations.HannFillsTheWindow : Prop :=
  ∀ (ra : Bank) (s : State),
    s.status.busy = false → s.latency.headD 0 = 0 → acceptedLength s.config (.hann ra) s.len.toNat →
      ∃ t, exec (.hann ra) s = .next t ∧
        (∀ i, i < s.len.toNat → bankWord? t.mem ra i = some
          (fmul f64Half (fsub f64One (cos64 s.config.trig
            (fdiv (fmul (fmul f64Two pi64) (toF64 i)) (toF64 (s.len.toNat - 1 : Nat))))))) ∧
        onlyWordsStored ra s.len.toNat s t ∧
        t.status = completedStatus s ∧ completedFrame (.hann ra) s t ∧
        t.pwr = s.pwr ∧ t.gz = s.gz ∧ t.engine = s.engine

/-- R205: an accepted FILTER multiplies each word by the coefficient of its index, also where both operands name one bank, and
changes nothing else. -/
def Obligations.FilterMultipliesWordByWord : Prop :=
  ∀ (ra rb : Bank) (s : State) (val fval : List Word),
    s.status.busy = false → s.latency.headD 0 = 0 → acceptedLength s.config (.filter ra rb) s.len.toNat →
    val.length = s.len.toNat → fval.length = s.len.toNat → bankHolds s.mem ra val → bankHolds s.mem rb fval →
      ∃ t, exec (.filter ra rb) s = .next t ∧
        (∀ i, i < s.len.toNat → ∃ x y, val[i]? = some x ∧ fval[i]? = some y ∧
          bankWord? t.mem ra i = some (fmul x y)) ∧
        onlyWordsStored ra s.len.toNat s t ∧
        t.status = completedStatus s ∧ completedFrame (.filter ra rb) s t ∧
        t.pwr = s.pwr ∧ t.gz = s.gz ∧ t.engine = s.engine

/-- R210: an accepted MAGPWR writes the squared magnitudes, and to PWR the root of the mean of their sum, taken in index order
from the epsilon; any of its banks may be the same. -/
def Obligations.MagpwrWritesMagnitudesAndPower : Prop :=
  ∀ (ra rb rc : Bank) (s : State) (re im : List Word),
    s.status.busy = false → s.latency.headD 0 = 0 → acceptedLength s.config (.magpwr ra rb rc) s.len.toNat →
    re.length = s.len.toNat → im.length = s.len.toNat → bankHolds s.mem ra re → bankHolds s.mem rb im →
      ∃ (t : State) (mags : List Word), exec (.magpwr ra rb rc) s = .next t ∧
        mags.length = s.len.toNat ∧ bankHolds t.mem rc mags ∧
        (∀ i, i < s.len.toNat → ∃ r m, re[i]? = some r ∧ im[i]? = some m ∧
          mags[i]? = some (fadd (fmul r r) (fmul m m))) ∧
        t.pwr = fsqrt (fdiv (mags.foldl fadd s.config.magpwrEps) (toF64 s.len.toNat)) ∧
        onlyWordsStored rc s.len.toNat s t ∧
        t.status = completedStatus s ∧ completedFrame (.magpwr ra rb rc) s t ∧
        t.gz = s.gz ∧ { t.engine with acc := s.engine.acc } = s.engine

/-- R226 to R239: an accepted GOERTZEL quantises `-cos`, `sin` and `2 cos` of its angle to Q1.15, Q1.15 and Q2.14, runs the
quantised samples and one zero through the filter, multiplies the final delay line by the feedforward coefficient in the form
of the build, reduces by five bits and takes the root of the sum of squares; it writes GZ_COEF, GZ_Y and GZ_MAG, sets OVF where
a value overflowed, and stores to no bank. -/
def Obligations.GoertzelWritesItsResults : Prop :=
  ∀ (ra : Bank) (s : State) (samples : List Word) (m ang : Word),
    s.config.valid = true → s.status.busy = false → s.latency.headD 0 = 0 →
    acceptedLength s.config (.goertzel ra) s.len.toNat → ¬ badFrequencies s.len.toNat s.detectHz s.sampleHz →
    samples.length = s.len.toNat → bankHolds s.mem ra samples →
    m = fdiv (fmul (toF64 s.len.toNat) s.detectHz) s.sampleHz →
    ang = fdiv (fmul (fmul f64Two pi64) m) (toF64 s.len.toNat) →
      ∃ (t : State) (ffr ffi fb : Int) (d : DelayLine) (y : Int × Int), exec (.goertzel ra) s = .next t ∧
        isCoefficient s.config.gzCoefWide (fneg (cos64 s.config.trig ang)) 15 ffr ∧
        isCoefficient s.config.gzCoefWide (sin64 s.config.trig ang) 15 ffi ∧
        isCoefficient s.config.gzCoefWide (fmul f64Two (cos64 s.config.trig ang)) 14 fb ∧
        d = runFilterLine fb (samples.map (fun x => quantise x s.config.gzWQn 32) ++ [(0, false)]) ∧
        (s.config.gzOutForm = .bin → y = (d.w0 + roundShift (d.w1 * ffr) 15, roundShift (d.w1 * ffi) 15)) ∧
        (s.config.gzOutForm = .pair →
          y = (roundShift (d.w0 * ffr - d.w1 * ffi) 15, roundShift (d.w0 * ffi + d.w1 * ffr) 15)) ∧
        t.gz.fb = BitVec.ofInt 20 fb ∧ t.gz.ffr = BitVec.ofInt 20 ffr ∧ t.gz.ffi = BitVec.ofInt 20 ffi ∧
        t.gz.yr = BitVec.ofInt 32 (roundShift y.1 5) ∧ t.gz.yi = BitVec.ofInt 32 (roundShift y.2 5) ∧
        t.gz.mag = truncU32 (fsqrt (toF64 (t.gz.yr.toInt * t.gz.yr.toInt + t.gz.yi.toInt * t.gz.yi.toInt))) ∧
        t.status = { completedStatus s with
          ovf := s.status.ovf || d.ovf || !fitsIn 32 (roundShift y.1 5) || !fitsIn 32 (roundShift y.2 5) } ∧
        completedFrame (.goertzel ra) s t ∧ t.mem = s.mem ∧ t.pwr = s.pwr ∧
        t.engine.twR = s.engine.twR ∧ t.engine.twI = s.engine.twI ∧ t.engine.twlR = s.engine.twlR ∧
        t.engine.twlI = s.engine.twlI ∧ t.engine.sre = s.engine.sre ∧ t.engine.sim = s.engine.sim ∧
        t.engine.acc = s.engine.acc

/-- R53: a command that would read a bank word nothing has written stops with the fault that names such a word. -/
def Obligations.UnwrittenInputStopsTheCommand : Prop :=
  ∀ (i : Instr) (s : State) (b : Bank) (k : Nat),
    s.status.busy = false → s.latency.headD 0 = 0 → issueCheck i s = .none →
    b ∈ inputBanks i → k < s.len.toNat → bankWord? s.mem b k = none →
      ∃ c j, c ∈ inputBanks i ∧ j < s.len.toNat ∧ bankWord? s.mem c j = none ∧ exec i s = .fault (.unwrittenWord c j)

/-- R256 and R257: a command whose completion comes after any number of host transactions, whatever they are, leaves the same
banks and the same result registers as one that completes at once, and, where OVF was clear at issue, the same OVF. -/
def Obligations.CompletionDelayDoesNotChangeResults : Prop :=
  ∀ (i : Instr) (s t : State) (txs : List HostEvent),
    s.status.busy = false → issueCheck i s = .none → txs ≠ [] → (∀ e, e ∈ txs → e.isTransaction = true) →
    exec i { s with latency := [0], bus := txs } = .next t →
      ∃ a u, exec i { s with latency := [txs.length], bus := txs } = .next a ∧
        Sys2Proof.core.run txs.length a = .next u ∧
        u.mem = t.mem ∧ u.pwr = t.pwr ∧ u.gz = t.gz ∧
        u.status.busy = false ∧ u.status.done = true ∧ u.status.err = .none ∧
        (s.status.ovf = false → u.status.ovf = t.status.ovf)

/-- R257: while a command runs and its completion is not yet due, no host transaction changes a bank, a result register or a
latch. That none changes a hidden register either is the model's choice (log entry 6): the model does all the engine's work at
the completion event, which R257 says a model may do. -/
def Obligations.NothingChangesBeforeCompletion : Prop :=
  ∀ (s t : State) (e : HostEvent) (rest : List HostEvent),
    s.status.busy = true → 2 ≤ s.wait → s.bus = e :: rest → e.isTransaction = true → step s = .next t →
      t.mem = s.mem ∧ t.pwr = s.pwr ∧ t.gz = s.gz ∧ t.latch = s.latch ∧ t.engine = s.engine ∧
      t.status.busy = true ∧ t.status.err = s.status.err ∧ t.wait + 1 = s.wait ∧ t.config = s.config

/-! ### The bus -/

/-- R30 to R44, R84: the thirteen registers stand at their offsets, and a read there returns the register with OKAY, while a
command runs too; it changes the response alone (R85, R89, R90). The packed ones are read through `readReg`, whose bits the two
statements below give. -/
def Obligations.RegistersReadAtTheirOffsets : Prop :=
  ∀ (s : State),
    (∀ (r : Reg), hostRead (BitVec.ofNat 18 r.offset) 8 s = { s with response := some (.readOkay (readReg s r)) }) ∧
    hostRead 0x000 8 s = { s with response := some (.readOkay 0x0000000746465442) } ∧
    hostRead 0x008 8 s = { s with response := some (.readOkay (readReg s .config)) } ∧
    hostRead 0x010 8 s = { s with response := some (.readOkay s.config.magpwrEps) } ∧
    hostRead 0x018 8 s = { s with response := some (.readOkay 0) } ∧
    hostRead 0x020 8 s = { s with response := some (.readOkay (readReg s .status)) } ∧
    hostRead 0x028 8 s = { s with response := some (.readOkay (if s.doneIe then 1 else 0)) } ∧
    hostRead 0x030 8 s = { s with response := some (.readOkay (s.len.zeroExtend 64)) } ∧
    hostRead 0x038 8 s = { s with response := some (.readOkay s.detectHz) } ∧
    hostRead 0x040 8 s = { s with response := some (.readOkay s.sampleHz) } ∧
    hostRead 0x048 8 s = { s with response := some (.readOkay s.pwr) } ∧
    hostRead 0x050 8 s = { s with response := some (.readOkay (s.gz.mag.zeroExtend 64)) } ∧
    hostRead 0x058 8 s = { s with response := some (.readOkay (readReg s .gzY)) } ∧
    hostRead 0x060 8 s = { s with response := some (.readOkay (readReg s .gzCoef)) }

/-- R35 and R247: the bits of STATUS. -/
def Obligations.StatusBitsAreWhereTheSpecPutsThem : Prop :=
  ∀ (s : State),
    (readReg s .status).getLsbD 0 = s.status.busy ∧ (readReg s .status).getLsbD 1 = s.status.done ∧
    (readReg s .status).getLsbD 8 = s.status.ovf ∧ (readReg s .status).getLsbD 9 = s.status.overrun ∧
    (readReg s .status).extractLsb' 2 2 = 0 ∧ (readReg s .status).extractLsb' 10 54 = 0 ∧
    (readReg s .status).extractLsb' 4 4 = (match s.status.err with
      | .none => 0 | .cmd => 1 | .operand => 2 | .len => 3 | .arg => 4)

/-- R32, R33, R42 to R44: the fields of the other packed registers. -/
def Obligations.PackedRegisterFields : Prop :=
  ∀ (s : State), s.config.valid = true →
    ((readReg s .config).extractLsb' 0 4).toNat = s.config.log2Nmax ∧
    ((readReg s .config).extractLsb' 4 5).toNat = s.config.gzWQn ∧
    (readReg s .config).getLsbD 9 = s.config.gzCoefWide ∧
    ((readReg s .config).getLsbD 10 = true ↔ s.config.gzOutForm = .pair) ∧
    (readReg s .config).extractLsb' 11 53 = 0 ∧
    readReg s .eps = s.config.magpwrEps ∧
    (readReg s .gzMag).extractLsb' 0 32 = s.gz.mag ∧ (readReg s .gzMag).extractLsb' 32 32 = 0 ∧
    (readReg s .gzY).extractLsb' 0 32 = s.gz.yr ∧ (readReg s .gzY).extractLsb' 32 32 = s.gz.yi ∧
    (readReg s .gzCoef).extractLsb' 0 20 = s.gz.fb ∧ (readReg s .gzCoef).extractLsb' 20 20 = s.gz.ffr ∧
    (readReg s .gzCoef).extractLsb' 40 20 = s.gz.ffi ∧ (readReg s .gzCoef).extractLsb' 60 4 = 0

/-- R35: a write to STATUS clears DONE, OVF and OVERRUN where its bits 1, 8 and 9 are set, and changes nothing else. -/
def Obligations.StatusWriteClearsByOnes : Prop :=
  ∀ (v : Word) (s : State),
    hostWrite 0x020 8 v s = .next { s with
      response := some .writeOkay
      status := { s.status with
        done := if v.getLsbD 1 then false else s.status.done
        ovf := if v.getLsbD 8 then false else s.status.ovf
        overrun := if v.getLsbD 9 then false else s.status.overrun } }

/-- R36 to R39 and R85: read-write registers take the written bits, the length register its low 32 and IRQ_EN its lowest;
read-only registers ignore the write; every register write is OKAY, while a command runs too. -/
def Obligations.RegisterWritesStoreTheirFields : Prop :=
  ∀ (v : Word) (s : State),
    hostWrite 0x028 8 v s
      = .next { s with response := some .writeOkay, doneIe := v.getLsbD 0 } ∧
    hostWrite 0x030 8 v s
      = .next { s with response := some .writeOkay, len := v.extractLsb' 0 32 } ∧
    hostWrite 0x038 8 v s
      = .next { s with response := some .writeOkay, detectHz := v } ∧
    hostWrite 0x040 8 v s
      = .next { s with response := some .writeOkay, sampleHz := v } ∧
    ∀ addr, addr ∈ [0x000#18, 0x008#18, 0x010#18, 0x048#18, 0x050#18, 0x058#18, 0x060#18] →
      hostWrite addr 8 v s = .next { s with response := some .writeOkay }

/-- R40, R82, R84, R86 and R87: the words of the banks stand at their offsets. While idle, a read of a word that is written is
OKAY with that word and changes nothing else; a write to word `k` of a bank is OKAY, the word is then written, in memory lowest
byte first, and reads back with all its 64 bits, and no other byte of memory and no register changes. -/
def Obligations.BankWordsReadBackAsWritten : Prop :=
  (∀ k, wordOffset .A k = 0x10000 + 8 * k ∧ wordOffset .B k = 0x20000 + 8 * k ∧ wordOffset .C k = 0x30000 + 8 * k) ∧
  (∀ (b : Bank) (k : Nat) (w : Word) (s : State),
    s.config.valid = true → s.status.busy = false → k < s.config.nmax → bankWord? s.mem b k = some w →
      hostRead (BitVec.ofNat 18 (wordOffset b k)) 8 s = { s with response := some (.readOkay w) }) ∧
  ∀ (b : Bank) (k : Nat) (v : Word) (s : State),
    s.config.valid = true → s.status.busy = false → k < s.config.nmax →
      ∃ t, hostWrite (BitVec.ofNat 18 (wordOffset b k)) 8 v s = .next t ∧
        bankWord? t.mem b k = some v ∧
        hostRead (BitVec.ofNat 18 (wordOffset b k)) 8 t = { t with response := some (.readOkay v) } ∧
        (∀ j, j < 8 → t.mem.byte? (wordOffset b k + j) = some (v.extractLsb' (8 * j) 8)) ∧
        (∀ a, a < wordOffset b k ∨ wordOffset b k + 8 ≤ a → t.mem.byte? a = s.mem.byte? a) ∧
        { t with mem := s.mem } = { s with response := some .writeOkay }

/-- R88: while a command runs, every host access in a bank window gets SLVERR: a read returns 0, a write changes nothing. -/
def Obligations.BankAccessWhileBusyIsRefused : Prop :=
  ∀ (addr : BitVec 18) (bytes : Nat) (v : Word) (s : State),
    s.status.busy = true → 0x10000 ≤ addr.toNat →
      hostRead addr bytes s = { s with response := some (.readError 0) } ∧
      hostWrite addr bytes v s = .next { s with response := some .writeError }

/-- R83, R84 and R95: an access of another width, a misaligned one, and one to an unmapped offset get SLVERR and change
nothing. -/
def Obligations.BadAccessesChangeNothing : Prop :=
  ∀ (addr : BitVec 18) (bytes : Nat) (v : Word) (s : State),
    (bytes ≠ 8 ∨ addr.toNat % 8 ≠ 0 ∨ (0x68 ≤ addr.toNat ∧ addr.toNat < 0x10000) ∨
      (0x10000 ≤ addr.toNat ∧ 8 * s.config.nmax ≤ addr.toNat % 0x10000)) →
      hostRead addr bytes s = { s with response := some (.readError 0) } ∧
      hostWrite addr bytes v s = .next { s with response := some .writeError }

/-- R90: a read is idempotent: doing it again gives the same response and the same state, an unwritten word included. -/
def Obligations.ReadsHaveNoSideEffects : Prop :=
  ∀ (addr : BitVec 18) (bytes : Nat) (s : State),
    hostRead addr bytes (hostRead addr bytes s) = hostRead addr bytes s ∧
    { hostRead addr bytes s with response := s.response } = s

/-! ### Reset -/

/-- R54: what every register reads after reset, for every legal build; no bank word is written and the interrupt line is low. -/
def Obligations.ResetValuesAreTheSpecs : Prop :=
  ∀ (c : Config) (b : Bank) (k : Nat),
    readReg (State.resetWith c) .id = 0x0000000746465442 ∧ readReg (State.resetWith c) .config = configWord c ∧
    readReg (State.resetWith c) .eps = c.magpwrEps ∧ readReg (State.resetWith c) .cmd = 0 ∧
    readReg (State.resetWith c) .status = 0 ∧ readReg (State.resetWith c) .irqEn = 0 ∧
    readReg (State.resetWith c) .len = 0 ∧ readReg (State.resetWith c) .detectHz = 0 ∧
    readReg (State.resetWith c) .sampleHz = 0 ∧ readReg (State.resetWith c) .pwr = 0 ∧
    readReg (State.resetWith c) .gzMag = 0 ∧ readReg (State.resetWith c) .gzY = 0 ∧
    readReg (State.resetWith c) .gzCoef = 0 ∧
    bankWord? (State.resetWith c).mem b k = none ∧ irq (State.resetWith c) = false

/-- R281 and R283: a reset, whatever is running, leaves every register at its reset value, no command running and no bank word
written. That the block goes on with the same parameters and with the events still pending is the model's (log entry 11). -/
def Obligations.ResetEndsAnyCommand : Prop :=
  ∀ (s : State) (rest : List HostEvent), s.bus = .reset :: rest →
    ∃ t, step s = .next t ∧ t.status.busy = false ∧ t.mem = [] ∧ t.bus = rest ∧ t.config = s.config ∧
      irq t = false ∧ ∀ r, readReg t r = readReg (State.resetWith s.config) r

/-! ### Invariant, progress, hidden state -/

/-- The invariant holds right after reset, for every legal build. -/
def Obligations.InvariantHoldsAtReset : Prop :=
  (∀ c, c.valid = true → BlockInv (State.resetWith c)) ∧ BlockInv State.reset

/-- Every step keeps the invariant. -/
def Obligations.StepKeepsTheInvariant : Prop :=
  ∀ (s t : State), BlockInv s → step s = .next t → BlockInv t

/-- R258 and R272: in a state that meets the invariant, a running command whose inputs are written completes; it never fails. -/
def Obligations.AcceptedCommandAlwaysCompletes : Prop :=
  ∀ (s : State) (i : Instr), BlockInv s → s.status.busy = true → decode s.latch.cmd = .ok i →
    inputsWritten i s.latch.len.toNat s.mem →
      ∃ t, complete s = .next t ∧ t.status.busy = false ∧ t.status.done = true ∧ t.status.err = .none

/-- R52: no step depends on the hidden registers an earlier command left: two states that differ only there stay different only
there, and stop alike. -/
def Obligations.HiddenStateDecidesNothing : Prop :=
  ∀ (s s' : State), hideEngine s = hideEngine s' → mapNext hideEngine (step s) = mapNext hideEngine (step s')

/-! ### Numerics -/

/-- R150: one rounding takes an exact value to the nearest binary64 value, to the one with an even fraction where two are
equally near, and to infinity only from half a spacing above the largest finite value on. R151 to R154: the product, the
quotient, the sum and the difference of finite values and the conversion of an integer are that one rounding of the exact
result; the sum that is exactly zero is `+0`, but `-0` for two negative zeros; a nonzero value over a zero is an infinity. -/
def Obligations.RoundingIsToNearestEven : Prop :=
  (∀ (neg : Bool) (num den : Nat), 0 < den →
    (classify (roundTo neg num den) = .inf neg ∧ overflowUnits * den ≤ num) ∨
    ∃ r, classify (roundTo neg num den) = .fin neg r ∧ num < overflowUnits * den ∧
      ∀ w g v, classify w = .fin g v →
        ((num : Int) - r * den).natAbs ≤ ((num : Int) - v * den).natAbs ∧
        (v ≠ r → ((num : Int) - r * den).natAbs = ((num : Int) - v * den).natAbs →
          (roundTo neg num den).getLsbD 0 = false)) ∧
  (∀ (a b : Word) (na nb : Bool) (ua ub : Nat), classify a = .fin na ua → classify b = .fin nb ub →
    fmul a b = roundTo (na != nb) (ua * ub) oneUnits ∧
    (ub ≠ 0 → fdiv a b = roundTo (na != nb) (ua * oneUnits) ub) ∧
    (ub = 0 → ua ≠ 0 → classify (fdiv a b) = .inf (na != nb)) ∧
    (∀ z : Int, z = (if na then -(ua : Int) else ua) + (if nb then -(ub : Int) else ub) →
      (z ≠ 0 → fadd a b = roundTo (decide (z < 0)) z.natAbs 1) ∧
      (z = 0 → fadd a b = if na = true ∧ nb = true then 0x8000000000000000 else 0)) ∧
    (∀ z : Int, z = (if na then -(ua : Int) else ua) - (if nb then -(ub : Int) else ub) →
      (z ≠ 0 → fsub a b = roundTo (decide (z < 0)) z.natAbs 1) ∧
      (z = 0 → fsub a b = if na = true ∧ nb = false then 0x8000000000000000 else 0))) ∧
  ∀ i : Int, toF64 i = roundTo (decide (i < 0)) (i.natAbs * oneUnits) 1

/-- R154: the square root is the nearest binary64 value to the exact root: no other value lies nearer, said by squares. -/
def Obligations.SquareRootIsNearest : Prop :=
  ∀ (a : Word) (u : Nat), classify a = .fin false u → 0 < u →
    ∃ r, classify (fsqrt a) = .fin false r ∧
      ∀ w g v, classify w = .fin g v →
        (v < r → (r + v) * (r + v) ≤ 4 * (u * oneUnits)) ∧ (r < v → 4 * (u * oneUnits) ≤ (r + v) * (r + v))

/-- R155: every NaN an arithmetic operation or the TRIG unit answers is the canonical one. R151 to R155: a NaN operand and an
invalid operation answer it, and an infinite operand gives otherwise the infinity or the zero of IEEE-754; the root of a zero
is that zero; negation flips bit 63 and nothing else. -/
def Obligations.EveryNanIsCanonical : Prop :=
  ∀ (a b : Word) (t : TrigUnit),
    ((classify (fadd a b) = .nan → fadd a b = 0x7FF8000000000000) ∧
      (classify (fsub a b) = .nan → fsub a b = 0x7FF8000000000000) ∧
      (classify (fmul a b) = .nan → fmul a b = 0x7FF8000000000000) ∧
      (classify (fdiv a b) = .nan → fdiv a b = 0x7FF8000000000000) ∧
      (classify (fsqrt a) = .nan → fsqrt a = 0x7FF8000000000000) ∧
      (classify (cos64 t a) = .nan → cos64 t a = 0x7FF8000000000000) ∧
      (classify (sin64 t a) = .nan → sin64 t a = 0x7FF8000000000000)) ∧
    (classify a = .nan ∨ classify b = .nan →
      classify (fadd a b) = .nan ∧ classify (fsub a b) = .nan ∧ classify (fmul a b) = .nan ∧
      classify (fdiv a b) = .nan) ∧
    (∀ g h, classify a = .inf g → classify b = .inf h →
      classify (fadd a b) = (if g = h then .inf g else .nan) ∧ classify (fsub a b) = (if g = h then .nan else .inf g) ∧
      classify (fmul a b) = .inf (g != h) ∧ classify (fdiv a b) = .nan) ∧
    (∀ g h u, classify a = .inf g → classify b = .fin h u →
      classify (fadd a b) = .inf g ∧ classify (fadd b a) = .inf g ∧
      classify (fsub a b) = .inf g ∧ classify (fsub b a) = .inf (!g) ∧
      classify (fmul a b) = (if u = 0 then .nan else .inf (g != h)) ∧
      classify (fmul b a) = (if u = 0 then .nan else .inf (g != h)) ∧
      classify (fdiv a b) = .inf (g != h) ∧ classify (fdiv b a) = .fin (g != h) 0) ∧
    (∀ g h, classify a = .fin g 0 → classify b = .fin h 0 → classify (fdiv a b) = .nan) ∧
    (classify a = .nan ∨ classify a = .inf true ∨ (∃ u, u ≠ 0 ∧ classify a = .fin true u) →
      classify (fsqrt a) = .nan) ∧
    (classify a = .inf false → classify (fsqrt a) = .inf false) ∧
    (∀ g, classify a = .fin g 0 → fsqrt a = a) ∧
    ∀ i, i < 64 → (fneg a).getLsbD i = if i = 63 then !a.getLsbD 63 else a.getLsbD i

/-- R152 and R153: doubling is exact unless it overflows, and dividing by a power of two is exact where no unit is lost. -/
def Obligations.PowersOfTwoScaleExactly : Prop :=
  ∀ (a : Word) (neg : Bool) (u : Nat), classify a = .fin neg u →
    (2 * u < 2 ^ 2098 → classify (fmul f64Two a) = .fin neg (2 * u)) ∧
    (2 ^ 2098 ≤ 2 * u → classify (fmul f64Two a) = .inf neg) ∧
    ∀ l, l ≤ 13 → u % 2 ^ l = 0 → classify (fdiv a (toF64 (2 ^ l))) = .fin neg (u / 2 ^ l)

/-- R154: the conversion of an integer of at most `2^53` in magnitude is exact. -/
def Obligations.SmallIntegersConvertExactly : Prop :=
  ∀ (i : Int), i.natAbs ≤ 2 ^ 53 → classify (toF64 i) = .fin (decide (i < 0)) (i.natAbs * 2 ^ 1074)

/-- R151: the exact zero of a difference is `+0`, and `(-0) + (-0)` is `-0`. -/
def Obligations.ExactZerosArePositive : Prop :=
  (∀ (a : Word) (neg : Bool) (u : Nat), classify a = .fin neg u → fsub a a = 0) ∧
  fadd 0x8000000000000000 0x8000000000000000 = 0x8000000000000000 ∧ fadd 0 0x8000000000000000 = 0 ∧
  fsub 0x8000000000000000 0 = 0x8000000000000000

/-- R157, R158: the constants of the command rules, and what every TRIG unit of the model satisfies. -/
def Obligations.TrigUnitsAreAdmissible : Prop :=
  (pi64 = 0x400921FB54442D18 ∧ f64One = 0x3FF0000000000000 ∧ f64Two = 0x4000000000000000 ∧
    f64Half = 0x3FE0000000000000) ∧
  ∀ (t : TrigUnit) (a : Word),
    (∀ g u, classify a = .fin g u →
      (∃ g' u', classify (cos64 t a) = .fin g' u' ∧ u' ≤ oneUnits) ∧
      (∃ g' u', classify (sin64 t a) = .fin g' u' ∧ u' ≤ oneUnits)) ∧
    (notFinite a → cos64 t a = 0x7FF8000000000000 ∧ sin64 t a = 0x7FF8000000000000) ∧
    cos64 t 0 = 0x3FF0000000000000 ∧ cos64 t 0x8000000000000000 = 0x3FF0000000000000 ∧ sin64 t 0 = 0 ∧
    sin64 t 0x8000000000000000 = 0x8000000000000000

/-- R160: the round-shift is the nearest integer to `v / 2^s`, ties toward plus infinity. -/
def Obligations.RoundShiftIsNearest : Prop :=
  ∀ (v : Int) (s : Nat),
    2 * (2 ^ s * roundShift v s - v) ≤ 2 ^ s ∧ -(2 ^ s : Int) < 2 * (2 ^ s * roundShift v s - v)

/-- R161: a finite value is scaled by `2^f`, rounded to the nearest whole number, halfway cases away from zero, and saturated to
32 bits, with overflow exactly where it did not fit; a NaN gives 0 and overflow, an infinity the end of the range and
overflow. -/
def Obligations.QuantiseSaturates : Prop :=
  ∀ (x : Word) (f : Nat), f ≤ 30 →
    -(2 ^ 31) ≤ (quantise x f 32).1 ∧ (quantise x f 32).1 < 2 ^ 31 ∧
    (∀ r, scaledRounding x f r →
      (quantise x f 32).1 = min (max r (-(2 ^ 31))) (2 ^ 31 - 1) ∧
      ((quantise x f 32).2 = true ↔ r < -(2 ^ 31) ∨ 2 ^ 31 ≤ r)) ∧
    (classify x = .nan → quantise x f 32 = (0, true)) ∧
    (classify x = .inf false → quantise x f 32 = (2 ^ 31 - 1, true)) ∧
    (classify x = .inf true → quantise x f 32 = (-(2 ^ 31), true))

/-- R229: the quantised coefficients lie in `[-32768, 32768]`, and in 16 bits where `GZ_COEF_WIDE` is 0. -/
def Obligations.CoefficientsStayInRange : Prop :=
  ∀ (c : Config) (ang : Word) (x : Int),
    (x = (goertzelCoefs c ang).fb ∨ x = (goertzelCoefs c ang).ffr ∨ x = (goertzelCoefs c ang).ffi) →
      -32768 ≤ x ∧ x ≤ 32768 ∧ (c.gzCoefWide = false → x ≤ 32767)

/-- R239: the magnitude always fits 32 bits, so its truncation loses nothing. -/
def Obligations.MagnitudeFitsItsRegister : Prop :=
  ∀ (yr yi : BitVec 32),
    ∃ u, classify (fsqrt (toF64 (yr.toInt * yr.toInt + yi.toInt * yi.toInt))) = .fin false u ∧
      u / oneUnits < 2 ^ 32 ∧
      (truncU32 (fsqrt (toF64 (yr.toInt * yr.toInt + yi.toInt * yi.toInt)))).toNat = u / oneUnits

/-! ### The engine and the commands built on it -/

/-- R176: the permutation puts at index `k` the sample at the index whose bits are those of `k` read backwards. -/
def Obligations.BitReversalReadsBitsBackwards : Prop :=
  ∀ (l : Nat) (xs : List Cplx), xs.length = 2 ^ l →
    (bitReverse l xs).length = xs.length ∧
    ∀ k, k < xs.length → bitRev l k < xs.length ∧ (bitReverse l xs)[k]? = xs[bitRev l k]? ∧
      ∀ t, t < l → (bitRev l k).testBit t = k.testBit (l - 1 - t)

/-- R177: the source's swap loop computes the permutation of R176. -/
def Obligations.SwapLoopIsThePermutation : Prop :=
  ∀ (l : Nat) (xs : List Cplx), xs.length = 2 ^ l → bitReverseSwaps (2 ^ l) xs = bitReverse l xs

/-- R182: the twiddles of a block are seeded with `(1.0, +0.0)` and advanced by the stage's ROM entry. -/
def Obligations.TwiddlesFollowTheRecurrence : Prop :=
  ∀ (t : TrigUnit) (s half : Nat),
    (twiddles t s half).length = half ∧
    (0 < half → (twiddles t s half)[0]? = some (0x3FF0000000000000, 0)) ∧
    ∀ j, j + 1 < half → ∃ w, (twiddles t s half)[j]? = some w ∧
      (twiddles t s half)[j + 1]? = some
        (cmul w (cos64 t (fdiv (fmul (fneg f64Two) pi64) (toF64 (2 ^ s))),
          sin64 t (fdiv (fmul (fneg f64Two) pi64) (toF64 (2 ^ s)))))

/-- R156: the complex multiplier. R179 to R181: a stage does, in every block, one butterfly for each index of the low half, and
nothing else. -/
def Obligations.StageDoesEveryButterfly : Prop :=
  (∀ (a b : Cplx), cmul a b = (fsub (fmul a.1 b.1) (fmul a.2 b.2), fadd (fmul a.1 b.2) (fmul a.2 b.1))) ∧
  ∀ (t : TrigUnit) (s blocksCount : Nat) (xs : List Cplx), 1 ≤ s → xs.length = blocksCount * 2 ^ s →
    (stage t xs s).length = xs.length ∧
    ∀ b j, b < blocksCount → j < 2 ^ (s - 1) →
      ∃ u x w, xs[b * 2 ^ s + j]? = some u ∧ xs[b * 2 ^ s + j + 2 ^ (s - 1)]? = some x ∧
        (twiddles t s (2 ^ (s - 1)))[j]? = some w ∧
        (stage t xs s)[b * 2 ^ s + j]? = some (fadd u.1 (cmul x w).1, fadd u.2 (cmul x w).2) ∧
        (stage t xs s)[b * 2 ^ s + j + 2 ^ (s - 1)]? = some (fsub u.1 (cmul x w).1, fsub u.2 (cmul x w).2)

/-- R184: the transform of an impulse is `(1.0, +0.0)` at every bin. R184 states it of every length; the hypothesis that every
twiddle of the stages is finite is log entry 18's. -/
def Obligations.ImpulseHasFlatSpectrum : Prop :=
  ∀ (t : TrigUnit) (l : Nat),
    (∀ s, 1 ≤ s → s ≤ l → ∀ w, w ∈ twiddles t s (2 ^ (s - 1)) → isFinite w.1 = true ∧ isFinite w.2 = true) →
      engine t ((f64One, 0) :: List.replicate (2 ^ l - 1) (0, 0)) = List.replicate (2 ^ l) (f64One, 0)

/-- R191: the repacked rail has the even samples forward and the odd samples from its tail. -/
def Obligations.RepackPlacesEverySample : Prop :=
  ∀ (val : List Word) (h : Nat), val.length = 2 * h →
    (repack val).length = 2 * h ∧
    ∀ i, i < h → (repack val)[i]? = val[2 * i]? ∧ (repack val)[2 * h - 1 - i]? = val[2 * i + 1]?

/-- R200: the first word of every window is `+0.0`, for every TRIG unit. -/
def Obligations.HannStartsAtZero : Prop :=
  ∀ (t : TrigUnit) (n : Nat), 2 ≤ n → n ≤ 8192 → (hannWindow t n)[0]? = some 0

/-- R211: the power summary is above zero wherever no input word is NaN. -/
def Obligations.PowerIsPositive : Prop :=
  ∀ (c : Config) (re im : List Word), c.valid = true → re.length = im.length → 1 ≤ re.length → re.length ≤ c.nmax →
    (∀ w, w ∈ re ∨ w ∈ im → classify w ≠ .nan) →
      classify (powerSummary c.magpwrEps (re.zipWith squaredMagnitude im) re.length) = .inf false ∨
      ∃ u, 0 < u ∧ classify (powerSummary c.magpwrEps (re.zipWith squaredMagnitude im) re.length) = .fin false u

/-- R230 to R234: the filter is the second-order recurrence, wrapped to 32 bits at every step; the final line holds its last two
values; and the overflow is set exactly where a sample overflowed or a value did not fit. -/
def Obligations.FilterIsTheRecurrence : Prop :=
  ∀ (fb : Int) (inputs : List (Int × Bool)),
    ∃ w : Nat → Int, w 0 = 0 ∧ w 1 = 0 ∧
      (∀ k x, inputs[k]? = some x →
        w (k + 2) = (BitVec.ofInt 32 (roundShift (w (k + 1) * fb) 14 + x.1 - w k)).toInt) ∧
      (runFilterLine fb inputs).w0 = w (inputs.length + 1) ∧ (runFilterLine fb inputs).w1 = w inputs.length ∧
      ((runFilterLine fb inputs).ovf = true ↔ ∃ k x, inputs[k]? = some x ∧
        (x.2 = true ∨ roundShift (w (k + 1) * fb) 14 + x.1 - w k < -(2 ^ 31) ∨
          2 ^ 31 ≤ roundShift (w (k + 1) * fb) 14 + x.1 - w k))

/-- R226: silence gives `YR = YI = MAG = 0` and no overflow, whatever the coefficients, the precision and the form. -/
def Obligations.SilenceHasNoMagnitude : Prop :=
  ∀ (c : Config) (k : GoertzelCoefs) (n : Nat), c.valid = true →
    detect c k (List.replicate n 0) = { yr := 0, yi := 0, mag := 0, ovf := false }
end

