-- ==== Sys2Proof/Laws/Binary64.lean ====
section
/-! SUPPORT. Patterns and the values they stand for; what one rounding answers; when it is exact. -/

namespace Sys2Proof.Machine

open Sys2Proof

/-! ### Patterns -/

/-- How many units the low 63 bits of a finite pattern stand for (R82, R150). -/
def unitsOf (m : Nat) : Nat := if m / 2 ^ 52 = 0 then m % 2 ^ 52 else (2 ^ 52 + m % 2 ^ 52) * 2 ^ (m / 2 ^ 52 - 1)

theorem toNat_pack {neg : Bool} {m : Nat} (h : m < 2 ^ 63) : (pack neg m).toNat = (if neg then 2 ^ 63 else 0) + m := by
  simp only [pack, BitVec.toNat_ofNat]
  cases neg <;> simp <;> omega

theorem expField_pack {neg : Bool} {m : Nat} (h : m < 2 ^ 63) : expField (pack neg m) = m / 2 ^ 52 := by
  simp only [expField, BitVec.extractLsb'_toNat, toNat_pack h, Nat.shiftRight_eq_div_pow]
  cases neg <;> simp <;> omega

theorem fracField_pack {neg : Bool} {m : Nat} (h : m < 2 ^ 63) : fracField (pack neg m) = m % 2 ^ 52 := by
  simp only [fracField, BitVec.extractLsb'_toNat, toNat_pack h, Nat.shiftRight_eq_div_pow]
  cases neg <;> simp
  omega

theorem signBit_pack {neg : Bool} {m : Nat} (h : m < 2 ^ 63) : signBit (pack neg m) = neg := by
  simp only [signBit, BitVec.getLsbD, toNat_pack h, Nat.testBit_eq_decide_div_mod_eq]
  cases neg <;> simp <;> omega

/-- A pattern below the infinities is a finite value. -/
theorem classify_pack {neg : Bool} {m : Nat} (h : m < infMagnitude) : classify (pack neg m) = .fin neg (unitsOf m) := by
  have h63 : m < 2 ^ 63 := by unfold infMagnitude at h; omega
  have he : m / 2 ^ 52 ≠ 2047 := by unfold infMagnitude at h; omega
  rw [classify, expField_pack h63, fracField_pack h63, signBit_pack h63, if_neg he, unitsOf]
  split <;> rfl

theorem classify_pack_inf (neg : Bool) : classify (pack neg infMagnitude) = .inf neg := by cases neg <;> decide

/-- Every pattern is the pack of its sign and its other bits. -/
theorem eq_pack (w : Word) : ∃ neg m, m < 2 ^ 63 ∧ w = pack neg m := by
  have hw := w.isLt
  by_cases h : w.toNat < 2 ^ 63
  · exact ⟨false, w.toNat, h, by apply BitVec.eq_of_toNat_eq; rw [toNat_pack h]; simp⟩
  · have h' : w.toNat - 2 ^ 63 < 2 ^ 63 := by omega
    exact ⟨true, w.toNat - 2 ^ 63, h', by apply BitVec.eq_of_toNat_eq; rw [toNat_pack h']; simp; omega⟩

/-- A finite value is the pack of its sign and a pattern below the infinities. -/
theorem classify_eq_fin {w : Word} {neg : Bool} {u : Nat} :
    classify w = .fin neg u ↔ ∃ m, m < infMagnitude ∧ w = pack neg m ∧ u = unitsOf m := by
  constructor
  · intro h
    obtain ⟨g, m, hm, rfl⟩ := eq_pack w
    by_cases hi : m < infMagnitude
    · rw [classify_pack hi] at h
      cases h
      exact ⟨m, hi, rfl, rfl⟩
    · have he : m / 2 ^ 52 = 2047 := by unfold infMagnitude at hi; omega
      rw [classify, expField_pack hm, if_pos he] at h
      split at h <;> cases h
  · rintro ⟨m, hm, rfl, rfl⟩
    exact classify_pack hm

/-- A larger pattern is a larger value. -/
theorem unitsOf_succ (m : Nat) : unitsOf m < unitsOf (m + 1) := by
  unfold unitsOf
  by_cases h : (m + 1) % 2 ^ 52 = 0
  · have h1 : m % 2 ^ 52 = 2 ^ 52 - 1 := by omega
    have h2 : (m + 1) / 2 ^ 52 = m / 2 ^ 52 + 1 := by omega
    rw [h, h1, h2]
    by_cases h0 : m / 2 ^ 52 = 0
    · rw [if_pos h0, if_neg (by omega), h0]
      norm_num
    · rw [if_neg h0, if_neg (by omega), show m / 2 ^ 52 + 1 - 1 = m / 2 ^ 52 - 1 + 1 by omega]
      have hp : 2 ^ (m / 2 ^ 52 - 1 + 1) = 2 ^ (m / 2 ^ 52 - 1) * 2 := rfl
      rw [hp]
      have : 0 < 2 ^ (m / 2 ^ 52 - 1) := by positivity
      generalize 2 ^ (m / 2 ^ 52 - 1) = p at this ⊢
      omega
  · have h1 : (m + 1) % 2 ^ 52 = m % 2 ^ 52 + 1 := by omega
    have h2 : (m + 1) / 2 ^ 52 = m / 2 ^ 52 := by omega
    rw [h1, h2]
    split
    · omega
    · have : 0 < 2 ^ (m / 2 ^ 52 - 1) := by positivity
      nlinarith

theorem unitsOf_strictMono : StrictMono unitsOf := strictMono_nat_of_lt_succ unitsOf_succ

/-- A significand of at most `2^53` at a spacing: the value its pattern stands for. -/
theorem unitsOf_significand {sh n : Nat} (hn : n ≤ 2 ^ 53) (h : sh = 0 ∨ 2 ^ 52 ≤ n) :
    unitsOf (sh * 2 ^ 52 + n) = n * 2 ^ sh := by
  unfold unitsOf
  by_cases h53 : n = 2 ^ 53
  · subst h53
    have e1 : (sh * 2 ^ 52 + 2 ^ 53) / 2 ^ 52 = sh + 2 := by omega
    have e2 : (sh * 2 ^ 52 + 2 ^ 53) % 2 ^ 52 = 0 := by omega
    rw [e1, e2, if_neg (by omega), show sh + 2 - 1 = sh + 1 by omega, Nat.pow_succ]
    ring
  · by_cases h52 : 2 ^ 52 ≤ n
    · have e1 : (sh * 2 ^ 52 + n) / 2 ^ 52 = sh + 1 := by omega
      have e2 : (sh * 2 ^ 52 + n) % 2 ^ 52 = n - 2 ^ 52 := by omega
      rw [e1, e2, if_neg (by omega), Nat.add_sub_cancel, Nat.add_sub_cancel' h52]
    · have h0 : sh = 0 := by omega
      subst h0
      have e1 : (0 * 2 ^ 52 + n) / 2 ^ 52 = 0 := by omega
      have e2 : (0 * 2 ^ 52 + n) % 2 ^ 52 = n := by omega
      rw [e1, e2, if_pos rfl]
      simp

/-- Every finite value is a significand below `2^53` at a spacing. -/
theorem unitsOf_eq (m : Nat) :
    ∃ k sh, k < 2 ^ 53 ∧ (sh = 0 ∨ 2 ^ 52 ≤ k) ∧ m = sh * 2 ^ 52 + k ∧ unitsOf m = k * 2 ^ sh := by
  by_cases h : m / 2 ^ 52 = 0
  · refine ⟨m, 0, by omega, .inl rfl, by omega, ?_⟩
    rw [unitsOf, if_pos h]
    simp
    omega
  · refine ⟨2 ^ 52 + m % 2 ^ 52, m / 2 ^ 52 - 1, by omega, .inr (by omega), by omega, ?_⟩
    rw [unitsOf, if_neg h]

/-! ### Rounding -/

theorem roundMagnitude_le (num den : Nat) : roundMagnitude num den ≤ infMagnitude := Nat.min_le_right _ _

/-- A rounding never answers a NaN. -/
theorem classify_roundTo_ne_nan (neg : Bool) (num den : Nat) : classify (roundTo neg num den) ≠ .nan := by
  unfold roundTo
  rcases Nat.lt_or_eq_of_le (roundMagnitude_le num den) with h | h
  · rw [classify_pack h]; simp
  · rw [h, classify_pack_inf]; simp

/-- The nearest whole number lies between the quotient and the next one. -/
theorem nearestEven_bounds (num den : Nat) : num / den ≤ nearestEven num den ∧ nearestEven num den ≤ num / den + 1 := by
  unfold nearestEven
  split <;> omega

/-- An exact quotient is its own nearest whole number. -/
theorem nearestEven_of_dvd {num den k : Nat} (hd : 0 < den) (h : num = k * den) : nearestEven num den = k := by
  subst h
  unfold nearestEven
  rw [Nat.mul_mod_left, Nat.mul_div_cancel _ hd, if_neg]
  simp
  omega

/-- The quotient at its own spacing has at most 53 bits, and exactly 53 where the spacing is above a unit. -/
theorem quotient_at_spacing {num den : Nat} :
    num / (den * 2 ^ spacing num den) < 2 ^ 53 ∧
      (spacing num den = 0 ∨ 2 ^ 52 ≤ num / (den * 2 ^ spacing num den)) := by
  rw [← Nat.div_div_eq_div_mul]
  unfold spacing
  generalize num / den = q
  by_cases hq : q = 0
  · simp [hq]
  · have h1 := Nat.lt_log2_self (n := q)
    have h2 := Nat.log2_self_le hq
    by_cases h : 52 ≤ q.log2
    · constructor
      · rw [Nat.div_lt_iff_lt_mul (by positivity), ← Nat.pow_add, show 53 + (q.log2 - 52) = q.log2 + 1 by omega]
        exact h1
      · right
        rw [Nat.le_div_iff_mul_le (by positivity), ← Nat.pow_add, show 52 + (q.log2 - 52) = q.log2 by omega]
        exact h2
    · have h0 : q.log2 - 52 = 0 := by omega
      rw [h0]
      refine ⟨?_, .inl rfl⟩
      simp only [Nat.pow_zero, Nat.div_one]
      calc q < 2 ^ (q.log2 + 1) := h1
        _ ≤ 2 ^ 53 := Nat.pow_le_pow_right (by omega) (by omega)

/-- Everything a rounding answers: the infinity, where the rounded significand passes the largest finite pattern, and else the
rounded significand at its spacing. -/
theorem classify_roundTo (neg : Bool) (num den : Nat) :
    classify (roundTo neg num den) =
      if infMagnitude ≤ spacing num den * 2 ^ 52 + nearestEven num (den * 2 ^ spacing num den) then .inf neg
      else .fin neg (nearestEven num (den * 2 ^ spacing num den) * 2 ^ spacing num den) := by
  obtain ⟨h1, h2⟩ := quotient_at_spacing (num := num) (den := den)
  obtain ⟨h3, h4⟩ := nearestEven_bounds num (den * 2 ^ spacing num den)
  unfold roundTo roundMagnitude
  dsimp only
  split
  · next h => rw [Nat.min_eq_right h, classify_pack_inf]
  · next h => rw [Nat.min_eq_left (by omega), classify_pack (by omega), unitsOf_significand (by omega) (by omega)]

/-- A value with a significand of at most 53 bits, below `2^2098` units, rounds to itself. -/
theorem classify_roundTo_exact {neg : Bool} {num den k e : Nat} (hd : 0 < den) (hk : k ≤ 2 ^ 53)
    (hn : num = k * 2 ^ e * den) (hlt : k * 2 ^ e < 2 ^ 2098) : classify (roundTo neg num den) = .fin neg (k * 2 ^ e) := by
  have hq : num / den = k * 2 ^ e := by rw [hn, Nat.mul_div_cancel _ hd]
  have hdvd : 2 ^ spacing num den ∣ k * 2 ^ e := by
    clear hlt
    unfold spacing
    rw [hq]
    by_cases h0 : k = 0
    · simp [h0]
    by_cases h53 : k = 2 ^ 53
    · rw [h53, ← Nat.pow_add, Nat.log2_two_pow]
      exact Nat.pow_dvd_pow 2 (by omega)
    · refine Nat.dvd_trans (Nat.pow_dvd_pow 2 ?_) (Nat.dvd_mul_left _ _)
      have : (k * 2 ^ e).log2 < 53 + e := by
        rw [Nat.log2_lt (by positivity), Nat.pow_add]
        exact Nat.mul_lt_mul_of_pos_right (by omega) (by positivity)
      omega
  obtain ⟨n, hn'⟩ := hdvd
  have hne : nearestEven num (den * 2 ^ spacing num den) = n := by
    refine nearestEven_of_dvd (by positivity) ?_
    conv_lhs => rw [hn, hn']
    generalize spacing num den = sh
    ring
  rw [classify_roundTo, hne, if_neg, hn', Nat.mul_comm]
  have hs : spacing num den ≤ 2045 := by
    unfold spacing
    rw [hq]
    by_cases h0 : k * 2 ^ e = 0
    · simp [h0]
    · have := (Nat.log2_lt h0).2 hlt
      omega
  obtain ⟨h1, h2⟩ := quotient_at_spacing (num := num) (den := den)
  have h3 : num / (den * 2 ^ spacing num den) = n := by
    rw [← Nat.div_div_eq_div_mul, hq, hn', Nat.mul_div_cancel_left _ (by positivity)]
  rw [h3] at h1
  unfold infMagnitude
  omega

/-- The integers of at most 53 bits, as units, have such a significand. -/
theorem classify_toF64_natCast {n : Nat} (h : n ≤ 2 ^ 53) : classify (toF64 n) = .fin false (n * 2 ^ 1074) := by
  unfold toF64
  have hneg : decide ((n : Int) < 0) = false := by simp
  rw [hneg]
  refine classify_roundTo_exact (by omega) h (by rw [Int.natAbs_natCast, Nat.mul_one, oneUnits]) ?_
  calc n * 2 ^ 1074 ≤ 2 ^ 53 * 2 ^ 1074 := Nat.mul_le_mul_right _ h
    _ < 2 ^ 2098 := by rw [← Nat.pow_add]; exact Nat.pow_lt_pow_right (by omega) (by omega)

/-- Zero rounds to the zero of the given sign. -/
theorem roundTo_zero (neg : Bool) (den : Nat) : roundTo neg 0 den = pack neg 0 := by
  have h : spacing 0 den = 0 := by simp [spacing]
  have h' : nearestEven 0 (den * 2 ^ 0) = 0 := by simp [nearestEven]
  unfold roundTo roundMagnitude
  dsimp only
  rw [h, h']
  rfl

/-! ### Operations on finite values

Each answers one rounding of its exact result (R150). -/

theorem oneUnits_pos : 0 < oneUnits := by unfold oneUnits; positivity

theorem classify_canonNaN : classify canonNaN = .nan := by decide

theorem classify_pack_zero (neg : Bool) : classify (pack neg 0) = .fin neg 0 := by cases neg <;> decide

theorem fmul_fin {a b : Word} {na nb : Bool} {ua ub : Nat} (ha : classify a = .fin na ua) (hb : classify b = .fin nb ub) :
    fmul a b = roundTo (na ^^ nb) (ua * ub) oneUnits := by
  simp only [fmul, ha, hb]

theorem fdiv_fin {a b : Word} {na nb : Bool} {ua ub : Nat} (ha : classify a = .fin na ua) (hb : classify b = .fin nb ub)
    (h : ub ≠ 0) : fdiv a b = roundTo (na ^^ nb) (ua * oneUnits) ub := by
  simp only [fdiv, ha, hb, if_neg h]

theorem fadd_fin {a b : Word} {na nb : Bool} {ua ub : Nat} (ha : classify a = .fin na ua) (hb : classify b = .fin nb ub) :
    fadd a b = addFinite na ua nb ub := by
  simp only [fadd, ha, hb]

/-- Negation changes the sign of what a pattern stands for (R154). -/
theorem classify_fneg (a : Word) : classify (fneg a) =
    match classify a with
    | .fin neg u => .fin (!neg) u
    | .inf neg => .inf (!neg)
    | .nan => .nan := by
  have bit : ∀ i, i < 64 → (fneg a).getLsbD i = if i = 63 then !a.getLsbD 63 else a.getLsbD i := by
    intro i h
    have hb : ∀ i, i < 64 → (0x8000000000000000#64).getLsbD i = decide (i = 63) := by decide
    rw [fneg, BitVec.getLsbD_xor, hb i h]
    split <;> simp_all
  have hs : signBit (fneg a) = !signBit a := by unfold signBit; rw [bit 63 (by omega)]; rfl
  have he : expField (fneg a) = expField a := by
    unfold expField
    congr 1
    apply BitVec.eq_of_getLsbD_eq
    intro i hi
    rw [BitVec.getLsbD_extractLsb', BitVec.getLsbD_extractLsb', bit _ (by omega), if_neg (by omega)]
  have hf : fracField (fneg a) = fracField a := by
    unfold fracField
    congr 1
    apply BitVec.eq_of_getLsbD_eq
    intro i hi
    rw [BitVec.getLsbD_extractLsb', BitVec.getLsbD_extractLsb', bit _ (by omega), if_neg (by omega)]
  unfold classify
  rw [hs, he, hf]
  split <;> split <;> rfl

theorem fsqrt_fin {a : Word} {u : Nat} (h : classify a = .fin false u) (h0 : u ≠ 0) : fsqrt a = sqrtUnits u := by
  unfold fsqrt
  rw [h]
  dsimp only
  rw [if_neg h0, if_neg (by simp)]

theorem truncU32_fin {a : Word} {neg : Bool} {u : Nat} (h : classify a = .fin neg u) :
    truncU32 a = BitVec.ofNat 32 (u / oneUnits) := by
  unfold truncU32
  rw [h]

theorem toF64_natCast (n : Nat) : toF64 n = roundTo false (n * oneUnits) 1 := by
  unfold toF64
  rw [show decide ((n : Int) < 0) = false by simp]
  simp

/-! ### The integer square root -/

theorem isqrtFrom_spec {bits n r : Nat} (h : r * r ≤ n) (h' : n < (r + 2 ^ bits) * (r + 2 ^ bits)) :
    isqrtFrom bits n r * isqrtFrom bits n r ≤ n ∧ n < (isqrtFrom bits n r + 1) * (isqrtFrom bits n r + 1) := by
  induction bits generalizing r with
  | zero => exact ⟨h, by simpa [isqrtFrom] using h'⟩
  | succ bits ih =>
    unfold isqrtFrom
    split
    · next hle => exact ih hle (by rw [Nat.pow_succ] at h'; rwa [show r + 2 ^ bits + 2 ^ bits = r + 2 ^ bits * 2 by ring])
    · next hle => exact ih h (by omega)

/-- The root is the floor of the square root. -/
theorem isqrt_spec (n : Nat) : isqrt n * isqrt n ≤ n ∧ n < (isqrt n + 1) * (isqrt n + 1) := by
  refine isqrtFrom_spec (by omega) ?_
  rw [Nat.zero_add, ← Nat.pow_add]
  exact lt_of_lt_of_le Nat.lt_log2_self (Nat.pow_le_pow_right (by omega) (by omega))

end Sys2Proof.Machine
end

