-- ==== Sys2Proof/Laws/Memory.lean ====
section
/-! SUPPORT. Memory: reading after writing, what a write leaves alone, and that every write keeps the canonical form. -/

namespace Sys2Proof.Machine

open Sys2Proof

/-! ### One byte -/

theorem byte?_setByte_same (m : Memory) (a : Nat) (b : Byte) : (m.setByte a b).byte? a = some b := by
  induction m with
  | nil => simp [Memory.setByte, Memory.byte?]
  | cons c rest ih =>
    obtain ⟨x, v⟩ := c
    unfold Memory.setByte
    split
    · simp [Memory.byte?]
    · split
      · simp [Memory.byte?]
      · have : x ≠ a := by omega
        simpa [Memory.byte?, this] using ih

theorem byte?_setByte_other (m : Memory) {a c : Nat} (b : Byte) (h : c ≠ a) : (m.setByte a b).byte? c = m.byte? c := by
  induction m with
  | nil => simp [Memory.setByte, Memory.byte?, Ne.symm h]
  | cons d rest ih =>
    obtain ⟨x, v⟩ := d
    unfold Memory.setByte
    split
    · simp [Memory.byte?, Ne.symm h]
    · split
      · next hx => subst hx; simp [Memory.byte?, Ne.symm h]
      · simp [Memory.byte?, ih]

theorem byte?_setByte (m : Memory) (a c : Nat) (b : Byte) :
    (m.setByte a b).byte? c = if c = a then some b else m.byte? c := by
  split
  · next h => subst h; exact byte?_setByte_same m c b
  · next h => exact byte?_setByte_other m b h

theorem risesFrom_mono {m : Memory} {a b : Nat} (hb : b ≤ a) (h : m.risesFrom a = true) : m.risesFrom b = true := by
  cases m with
  | nil => rfl
  | cons c rest =>
    simp only [Memory.risesFrom, Bool.and_eq_true, decide_eq_true_eq] at h ⊢
    exact ⟨by omega, h.2⟩

theorem risesFrom_setByte {m : Memory} {l a : Nat} (b : Byte) (hl : l ≤ a) (h : m.risesFrom l = true) :
    (m.setByte a b).risesFrom l = true := by
  induction m generalizing l with
  | nil => simpa [Memory.setByte, Memory.risesFrom] using hl
  | cons c rest ih =>
    obtain ⟨x, v⟩ := c
    simp only [Memory.risesFrom, Bool.and_eq_true, decide_eq_true_eq] at h
    unfold Memory.setByte
    split
    · simp only [Memory.risesFrom, Bool.and_eq_true, decide_eq_true_eq]
      exact ⟨hl, by omega, h.2⟩
    · split
      · next hx =>
        subst hx
        simpa only [Memory.risesFrom, Bool.and_eq_true, decide_eq_true_eq] using h
      · simp only [Memory.risesFrom, Bool.and_eq_true, decide_eq_true_eq]
        exact ⟨h.1, ih (by omega) h.2⟩

/-- Writing a byte keeps the canonical form. -/
theorem wf_setByte {m : Memory} (a : Nat) (b : Byte) (h : m.wf = true) : (m.setByte a b).wf = true :=
  risesFrom_setByte b (Nat.zero_le a) h

theorem inBanks_setByte {c : Config} {m : Memory} {a : Nat} (b : Byte) (ha : isBankByte c a = true)
    (h : m.inBanks c = true) : (m.setByte a b).inBanks c = true := by
  induction m with
  | nil => simpa [Memory.setByte, Memory.inBanks] using ha
  | cons d rest ih =>
    obtain ⟨x, v⟩ := d
    simp only [Memory.inBanks, List.all_cons, Bool.and_eq_true] at h ih
    unfold Memory.setByte
    split
    · simpa [Memory.inBanks, ha] using h
    · split
      · simpa [Memory.inBanks, ha] using h.2
      · simpa [Memory.inBanks, h.1] using ih h.2

/-! ### Bytes in a row -/

theorem byte?_setBytes (m : Memory) (a c : Nat) (bs : List Byte) :
    (m.setBytes a bs).byte? c = if a ≤ c ∧ c < a + bs.length then bs[c - a]? else m.byte? c := by
  induction bs generalizing m a with
  | nil => simp [Memory.setBytes]
  | cons b bs ih =>
    rw [Memory.setBytes, ih, byte?_setByte]
    by_cases h1 : a + 1 ≤ c ∧ c < a + 1 + bs.length
    · have : a ≤ c ∧ c < a + (b :: bs).length := by simp; omega
      rw [if_pos h1, if_pos this, show c - a = (c - (a + 1)) + 1 by omega, List.getElem?_cons_succ]
    · rw [if_neg h1]
      by_cases h2 : c = a
      · subst h2; simp
      · have : ¬ (a ≤ c ∧ c < a + (b :: bs).length) := by simp; omega
        rw [if_neg h2, if_neg this]

theorem wf_setBytes {m : Memory} (a : Nat) (bs : List Byte) (h : m.wf = true) : (m.setBytes a bs).wf = true := by
  induction bs generalizing m a with
  | nil => exact h
  | cons b bs ih => exact ih (a + 1) (wf_setByte a b h)

theorem inBanks_setBytes {c : Config} {m : Memory} {a : Nat} {bs : List Byte}
    (ha : ∀ i, i < bs.length → isBankByte c (a + i) = true) (h : m.inBanks c = true) :
    (m.setBytes a bs).inBanks c = true := by
  induction bs generalizing m a with
  | nil => exact h
  | cons b bs ih =>
    refine ih (fun i hi => ?_) (inBanks_setByte b (by simpa using ha 0 (by simp)) h)
    have := ha (i + 1) (by simpa using hi)
    rwa [show a + 1 + i = a + (i + 1) by omega]

theorem bytes?_eq_some {m : Memory} {a n : Nat} {bs : List Byte} :
    m.bytes? a n = some bs ↔ bs.length = n ∧ ∀ i, i < n → m.byte? (a + i) = bs[i]? := by
  induction n generalizing a bs with
  | zero => simp [Memory.bytes?, eq_comm (a := ([] : List Byte))]
  | succ n ih =>
    cases bs with
    | nil => simp [Memory.bytes?]; split <;> simp_all
    | cons b bs =>
      have key : m.bytes? a (n + 1) = some (b :: bs) ↔ m.byte? a = some b ∧ m.bytes? (a + 1) n = some bs := by
        clear ih; simp only [Memory.bytes?]; split <;> simp_all
      rw [key, ih]
      constructor
      · rintro ⟨h0, hl, h⟩
        refine ⟨by simp [hl], fun i hi => ?_⟩
        cases i with
        | zero => simpa using h0
        | succ i => rw [show a + (i + 1) = a + 1 + i by omega, h i (by omega)]; simp
      · rintro ⟨hl, h⟩
        refine ⟨by simpa using h 0 (by omega), by simpa using hl, fun i hi => ?_⟩
        have := h (i + 1) (by omega)
        rw [show a + (i + 1) = a + 1 + i by omega] at this
        simpa using this

/-- Bytes read the same where every one of them reads the same. -/
theorem bytes?_congr {m m' : Memory} {a n : Nat} (h : ∀ i, i < n → m'.byte? (a + i) = m.byte? (a + i)) :
    m'.bytes? a n = m.bytes? a n := by
  induction n generalizing a with
  | zero => rfl
  | succ n ih =>
    have h0 : m'.byte? a = m.byte? a := by simpa using h 0 (by omega)
    have ih' := ih (a := a + 1) (fun i hi => by
      have := h (i + 1) (by omega); rwa [show a + (i + 1) = a + 1 + i by omega] at this)
    simp only [Memory.bytes?, h0, ih']

/-! ### Words -/

@[simp] theorem length_bytesOfWord (n : Nat) (w : Word) : (bytesOfWord n w).length = n := by
  induction n generalizing w with
  | zero => rfl
  | succ n ih => simp [bytesOfWord, ih]

/-- A word's eight bytes make the word again (R82). -/
theorem wordOfBytes_bytesOfWord (w : Word) : wordOfBytes (bytesOfWord 8 w) = w := by
  apply BitVec.eq_of_getLsbD_eq
  intro i hi
  simp only [bytesOfWord, wordOfBytes]
  simp only [BitVec.getLsbD_or, BitVec.getLsbD_shiftLeft, BitVec.getLsbD_setWidth, BitVec.getLsbD_ushiftRight,
    BitVec.getLsbD_zero]
  interval_cases i <;> simp

theorem word?_setWord_same (m : Memory) (a : Nat) (v : Word) : (m.setWord a v).word? a = some v := by
  have : (m.setWord a v).bytes? a 8 = some (bytesOfWord 8 v) := by
    rw [bytes?_eq_some]
    refine ⟨by simp, fun i hi => ?_⟩
    rw [Memory.setWord, byte?_setBytes, if_pos (by simp; omega)]
    congr 1; omega
  rw [Memory.word?, this, Option.map_some, wordOfBytes_bytesOfWord]

theorem word?_setWord_other (m : Memory) {a c : Nat} (v : Word) (h : c + 8 ≤ a ∨ a + 8 ≤ c) :
    (m.setWord a v).word? c = m.word? c := by
  rw [Memory.word?, Memory.word?, bytes?_congr (fun i hi => ?_)]
  rw [Memory.setWord, byte?_setBytes, if_neg (by simp; omega)]

theorem wf_setWord {m : Memory} (a : Nat) (v : Word) (h : m.wf = true) : (m.setWord a v).wf = true :=
  wf_setBytes a _ h

/-! ### Bank words -/

theorem bankWord?_setBankWord_same (m : Memory) (b : Bank) (k : Nat) (v : Word) :
    bankWord? (setBankWord m b k v) b k = some v := word?_setWord_same m _ v

theorem bankWord?_setBankWord_other (m : Memory) (b : Bank) {k j : Nat} (v : Word) (h : j ≠ k) :
    bankWord? (setBankWord m b k v) b j = bankWord? m b j :=
  word?_setWord_other m v (by unfold wordOffset; omega)

/-- Words of different banks lie apart, as long as they lie inside their windows (R84). -/
theorem bankWord?_setBankWord_bank (m : Memory) {b c : Bank} {k j : Nat} (v : Word) (h : c ≠ b) (hk : k < 8192)
    (hj : j < 8192) : bankWord? (setBankWord m b k v) c j = bankWord? m c j := by
  apply word?_setWord_other
  cases b <;> cases c <;> first | exact absurd rfl h | (simp only [wordOffset, bankBase]; omega)

theorem byte?_setBankWord (m : Memory) (b : Bank) (k : Nat) (v : Word) {a : Nat}
    (h : a < wordOffset b k ∨ wordOffset b k + 8 ≤ a) : (setBankWord m b k v).byte? a = m.byte? a := by
  rw [setBankWord, Memory.setWord, byte?_setBytes, if_neg (by simp; omega)]

theorem wf_setBankWord {m : Memory} (b : Bank) (k : Nat) (v : Word) (h : m.wf = true) :
    (setBankWord m b k v).wf = true := wf_setWord _ v h

theorem isBankByte_wordOffset {c : Config} {b : Bank} {k i : Nat} (hk : k < c.nmax) (hi : i < 8) :
    isBankByte c (wordOffset b k + i) = true := by
  have key : wordOffset b 0 ≤ wordOffset b k + i ∧ wordOffset b k + i < wordOffset b c.nmax := by
    simp only [wordOffset]; omega
  cases b <;> simp [isBankByte, key]

theorem inBanks_setBankWord {c : Config} {m : Memory} {b : Bank} {k : Nat} (v : Word) (hk : k < c.nmax)
    (h : m.inBanks c = true) : (setBankWord m b k v).inBanks c = true :=
  inBanks_setBytes (fun _ hi => isBankByte_wordOffset hk (by simpa using hi)) h

/-! ### Runs of bank words -/

theorem bankWord?_writeRun_before (m : Memory) (b : Bank) {k j : Nat} (ws : List Word) (h : j < k) :
    bankWord? (writeRun m b k ws) b j = bankWord? m b j := by
  induction ws generalizing m k with
  | nil => rfl
  | cons w ws ih =>
    rw [writeRun, ih _ (by omega), bankWord?_setBankWord_other _ _ _ (by omega)]

/-- What a bank holds after a run of words was written to it. -/
theorem bankWord?_writeRun (m : Memory) (b : Bank) (k j : Nat) (ws : List Word) :
    bankWord? (writeRun m b k ws) b j = if k ≤ j ∧ j < k + ws.length then ws[j - k]? else bankWord? m b j := by
  induction ws generalizing m k with
  | nil => simp [writeRun]
  | cons w ws ih =>
    rw [writeRun, ih]
    by_cases h1 : k + 1 ≤ j ∧ j < k + 1 + ws.length
    · have : k ≤ j ∧ j < k + (w :: ws).length := by simp; omega
      rw [if_pos h1, if_pos this, show j - k = (j - (k + 1)) + 1 by omega, List.getElem?_cons_succ]
    · rw [if_neg h1]
      by_cases h2 : j = k
      · subst h2; simp [bankWord?_setBankWord_same]
      · have : ¬ (k ≤ j ∧ j < k + (w :: ws).length) := by simp; omega
        rw [if_neg this, bankWord?_setBankWord_other _ _ _ h2]

/-- A run written to one bank leaves the other banks alone. -/
theorem bankWord?_writeRun_bank (m : Memory) {b c : Bank} {k j : Nat} (ws : List Word) (h : c ≠ b)
    (hk : k + ws.length ≤ 8192) (hj : j < 8192) : bankWord? (writeRun m b k ws) c j = bankWord? m c j := by
  induction ws generalizing m k with
  | nil => rfl
  | cons w ws ih =>
    simp only [List.length_cons] at hk
    rw [writeRun, ih _ (by omega), bankWord?_setBankWord_bank _ _ h (by omega) hj]

/-- A run of words stores to the bytes of those words alone. -/
theorem byte?_writeRun (m : Memory) (b : Bank) (k : Nat) (ws : List Word) {a : Nat}
    (h : a < wordOffset b k ∨ wordOffset b (k + ws.length) ≤ a) : (writeRun m b k ws).byte? a = m.byte? a := by
  induction ws generalizing m k with
  | nil => rfl
  | cons w ws ih =>
    simp only [wordOffset, List.length_cons] at h ih
    rw [writeRun, ih _ _ (by omega), byte?_setBankWord _ _ _ _ (by simp only [wordOffset]; omega)]

theorem wf_writeRun {m : Memory} (b : Bank) (k : Nat) (ws : List Word) (h : m.wf = true) :
    (writeRun m b k ws).wf = true := by
  induction ws generalizing m k with
  | nil => exact h
  | cons w ws ih => exact ih (k + 1) (wf_setBankWord b k w h)

theorem inBanks_writeRun {c : Config} {m : Memory} {b : Bank} {k : Nat} {ws : List Word} (hk : k + ws.length ≤ c.nmax)
    (h : m.inBanks c = true) : (writeRun m b k ws).inBanks c = true := by
  induction ws generalizing m k with
  | nil => exact h
  | cons w ws ih =>
    simp only [List.length_cons] at hk
    exact ih (by omega) (inBanks_setBankWord w (by omega) h)

/-- Everything the engine's read of a run can answer when it succeeds: exactly the words of the bank. -/
theorem readRun_eq_ok {m : Memory} {b : Bank} {k n : Nat} {ws : List Word} :
    readRun m b k n = .ok ws ↔ ws.length = n ∧ ∀ i, i < n → bankWord? m b (k + i) = ws[i]? := by
  induction n generalizing k ws with
  | zero => simp [readRun, eq_comm (a := ([] : List Word))]
  | succ n ih =>
    cases ws with
    | nil => simp [readRun]; split <;> (try split) <;> simp_all
    | cons w ws =>
      have key : readRun m b k (n + 1) = .ok (w :: ws) ↔ bankWord? m b k = some w ∧ readRun m b (k + 1) n = .ok ws := by
        clear ih; simp only [readRun]; split <;> (try split) <;> simp_all
      rw [key, ih]
      constructor
      · rintro ⟨h0, hl, h⟩
        refine ⟨by simp [hl], fun i hi => ?_⟩
        cases i with
        | zero => simpa using h0
        | succ i => rw [show k + (i + 1) = k + 1 + i by omega, h i (by omega)]; simp
      · rintro ⟨hl, h⟩
        refine ⟨by simpa using h 0 (by omega), by simpa using hl, fun i hi => ?_⟩
        have := h (i + 1) (by omega)
        rw [show k + (i + 1) = k + 1 + i by omega] at this
        simpa using this

/-- Where the engine's read stops, it stops at a word of the run that nothing has written (R53). -/
theorem readRun_eq_error {m : Memory} {b : Bank} {k n : Nat} {e : Fault} (h : readRun m b k n = .error e) :
    ∃ i, i < n ∧ bankWord? m b (k + i) = none ∧ e = .unwrittenWord b (k + i) := by
  induction n generalizing k with
  | zero => simp [readRun] at h
  | succ n ih =>
    simp only [readRun] at h
    split at h
    · next hn => exact ⟨0, by omega, by simpa using hn, by simpa using h.symm⟩
    · split at h
      · next e' he =>
        obtain rfl : e' = e := by simpa using h
        obtain ⟨i, hi, hw, hf⟩ := ih he
        exact ⟨i + 1, by omega, by rwa [show k + (i + 1) = k + 1 + i by omega],
          by rwa [show k + (i + 1) = k + 1 + i by omega]⟩
      · simp at h

/-- A run whose words are all written reads as some words. -/
theorem readRun_of_written {m : Memory} {b : Bank} {k n : Nat}
    (h : ∀ i, i < n → (bankWord? m b (k + i)).isSome = true) : ∃ ws, readRun m b k n = .ok ws := by
  cases hr : readRun m b k n with
  | ok ws => exact ⟨ws, rfl⟩
  | error e =>
    obtain ⟨i, hi, hn, -⟩ := readRun_eq_error hr
    have := h i hi
    simp [hn] at this

/-- A bank holds the run of words last written from its word 0 on. -/
theorem bankHolds_writeRun (m : Memory) (b : Bank) (ws : List Word) : bankHolds (writeRun m b 0 ws) b ws := by
  intro k hk
  rw [bankWord?_writeRun, if_pos (by omega)]
  simp

/-- What a bank holds stays where a run is written to another bank. -/
theorem bankHolds_writeRun_other {m : Memory} {b c : Bank} {ws vs : List Word} (h : bankHolds m c vs) (hne : c ≠ b)
    (hw : ws.length ≤ 8192) (hv : vs.length ≤ 8192) : bankHolds (writeRun m b 0 ws) c vs := by
  intro k hk
  rw [bankWord?_writeRun_bank _ _ hne (by omega) (by omega)]
  exact h k hk

/-- A run from word 0 on stores to the bytes of its words alone. -/
theorem byte?_writeRun_of_not_inWords {m : Memory} {b : Bank} {ws : List Word} {a n : Nat} (hn : ws.length = n)
    (h : ¬ inWords b n a) : (writeRun m b 0 ws).byte? a = m.byte? a := by
  subst hn
  refine byte?_writeRun m b 0 ws ?_
  simp only [inWords] at h
  simp only [Nat.zero_add]
  omega

/-- The words of a bank whose first `n` words are written. -/
theorem exists_bankHolds {m : Memory} {b : Bank} {n : Nat} (h : ∀ k, k < n → (bankWord? m b k).isSome = true) :
    ∃ ws, ws.length = n ∧ bankHolds m b ws := by
  obtain ⟨ws, hr⟩ := readRun_of_written (k := 0) (n := n) (fun k hk => by simpa using h k hk)
  obtain ⟨hl, hw⟩ := readRun_eq_ok.1 hr
  exact ⟨ws, hl, fun k hk => by simpa using hw k (by omega)⟩

end Sys2Proof.Machine
end

