-- ==== Sys2Proof/Laws/State.lean ====
section
/-! SUPPORT. One lemma per field for each named update of the state, so that no proof unfolds an update. -/

namespace Sys2Proof.Machine

open Sys2Proof

/-- A host read changes the response alone (R90). -/
theorem hostRead_eq_respond (a : BitVec 18) (n : Nat) (s : State) : ∃ r, hostRead a n s = respond r s := by
  unfold hostRead
  split
  · split
    · exact ⟨_, rfl⟩
    · split <;> exact ⟨_, rfl⟩
    · exact ⟨_, rfl⟩
  · exact ⟨_, rfl⟩

@[simp] theorem reject_config (e : ErrCode) (s : State) : (reject e s).config = s.config := rfl
@[simp] theorem reject_status (e : ErrCode) (s : State) : (reject e s).status = { s.status with done := true, err := e } := rfl
@[simp] theorem reject_doneIe (e : ErrCode) (s : State) : (reject e s).doneIe = s.doneIe := rfl
@[simp] theorem reject_len (e : ErrCode) (s : State) : (reject e s).len = s.len := rfl
@[simp] theorem reject_detectHz (e : ErrCode) (s : State) : (reject e s).detectHz = s.detectHz := rfl
@[simp] theorem reject_sampleHz (e : ErrCode) (s : State) : (reject e s).sampleHz = s.sampleHz := rfl
@[simp] theorem reject_pwr (e : ErrCode) (s : State) : (reject e s).pwr = s.pwr := rfl
@[simp] theorem reject_gz (e : ErrCode) (s : State) : (reject e s).gz = s.gz := rfl
@[simp] theorem reject_mem (e : ErrCode) (s : State) : (reject e s).mem = s.mem := rfl
@[simp] theorem reject_latch (e : ErrCode) (s : State) : (reject e s).latch = s.latch := rfl
@[simp] theorem reject_engine (e : ErrCode) (s : State) : (reject e s).engine = s.engine := rfl
@[simp] theorem reject_wait (e : ErrCode) (s : State) : (reject e s).wait = s.wait := rfl
@[simp] theorem reject_latency (e : ErrCode) (s : State) : (reject e s).latency = s.latency := rfl
@[simp] theorem reject_bus (e : ErrCode) (s : State) : (reject e s).bus = s.bus := rfl
@[simp] theorem reject_response (e : ErrCode) (s : State) : (reject e s).response = s.response := rfl
@[simp] theorem reject_epoch (e : ErrCode) (s : State) : (reject e s).epoch = s.epoch := rfl
@[simp] theorem reject_draws (e : ErrCode) (s : State) : (reject e s).draws = s.draws := rfl

@[simp] theorem overrun_config (s : State) : (overrun s).config = s.config := rfl
@[simp] theorem overrun_status (s : State) : (overrun s).status = { s.status with overrun := true } := rfl
@[simp] theorem overrun_doneIe (s : State) : (overrun s).doneIe = s.doneIe := rfl
@[simp] theorem overrun_len (s : State) : (overrun s).len = s.len := rfl
@[simp] theorem overrun_detectHz (s : State) : (overrun s).detectHz = s.detectHz := rfl
@[simp] theorem overrun_sampleHz (s : State) : (overrun s).sampleHz = s.sampleHz := rfl
@[simp] theorem overrun_pwr (s : State) : (overrun s).pwr = s.pwr := rfl
@[simp] theorem overrun_gz (s : State) : (overrun s).gz = s.gz := rfl
@[simp] theorem overrun_mem (s : State) : (overrun s).mem = s.mem := rfl
@[simp] theorem overrun_latch (s : State) : (overrun s).latch = s.latch := rfl
@[simp] theorem overrun_engine (s : State) : (overrun s).engine = s.engine := rfl
@[simp] theorem overrun_wait (s : State) : (overrun s).wait = s.wait := rfl
@[simp] theorem overrun_latency (s : State) : (overrun s).latency = s.latency := rfl
@[simp] theorem overrun_bus (s : State) : (overrun s).bus = s.bus := rfl
@[simp] theorem overrun_response (s : State) : (overrun s).response = s.response := rfl
@[simp] theorem overrun_epoch (s : State) : (overrun s).epoch = s.epoch := rfl
@[simp] theorem overrun_draws (s : State) : (overrun s).draws = s.draws := rfl

@[simp] theorem accept_config (v : Word) (s : State) : (accept v s).config = s.config := rfl
@[simp] theorem accept_status (v : Word) (s : State) : (accept v s).status = acceptedStatus s := rfl
@[simp] theorem accept_doneIe (v : Word) (s : State) : (accept v s).doneIe = s.doneIe := rfl
@[simp] theorem accept_len (v : Word) (s : State) : (accept v s).len = s.len := rfl
@[simp] theorem accept_detectHz (v : Word) (s : State) : (accept v s).detectHz = s.detectHz := rfl
@[simp] theorem accept_sampleHz (v : Word) (s : State) : (accept v s).sampleHz = s.sampleHz := rfl
@[simp] theorem accept_pwr (v : Word) (s : State) : (accept v s).pwr = s.pwr := rfl
@[simp] theorem accept_gz (v : Word) (s : State) : (accept v s).gz = s.gz := rfl
@[simp] theorem accept_mem (v : Word) (s : State) : (accept v s).mem = s.mem := rfl
@[simp] theorem accept_latch (v : Word) (s : State) : (accept v s).latch = latchedAt v s := rfl
@[simp] theorem accept_engine (v : Word) (s : State) : (accept v s).engine = s.engine := rfl
@[simp] theorem accept_wait (v : Word) (s : State) : (accept v s).wait = s.latency.headD 0 := rfl
@[simp] theorem accept_latency (v : Word) (s : State) : (accept v s).latency = s.latency.tail := rfl
@[simp] theorem accept_bus (v : Word) (s : State) : (accept v s).bus = s.bus := rfl
@[simp] theorem accept_response (v : Word) (s : State) : (accept v s).response = s.response := rfl
@[simp] theorem accept_epoch (v : Word) (s : State) : (accept v s).epoch = s.epoch := rfl
@[simp] theorem accept_draws (v : Word) (s : State) : (accept v s).draws = s.draws := rfl

@[simp] theorem finish_config (s : State) : (finish s).config = s.config := rfl
@[simp] theorem finish_status (s : State) : (finish s).status = { s.status with busy := false, done := true } := rfl
@[simp] theorem finish_doneIe (s : State) : (finish s).doneIe = s.doneIe := rfl
@[simp] theorem finish_len (s : State) : (finish s).len = s.len := rfl
@[simp] theorem finish_detectHz (s : State) : (finish s).detectHz = s.detectHz := rfl
@[simp] theorem finish_sampleHz (s : State) : (finish s).sampleHz = s.sampleHz := rfl
@[simp] theorem finish_pwr (s : State) : (finish s).pwr = s.pwr := rfl
@[simp] theorem finish_gz (s : State) : (finish s).gz = s.gz := rfl
@[simp] theorem finish_mem (s : State) : (finish s).mem = s.mem := rfl
@[simp] theorem finish_latch (s : State) : (finish s).latch = s.latch := rfl
@[simp] theorem finish_engine (s : State) : (finish s).engine = s.engine := rfl
@[simp] theorem finish_wait (s : State) : (finish s).wait = 0 := rfl
@[simp] theorem finish_latency (s : State) : (finish s).latency = s.latency := rfl
@[simp] theorem finish_bus (s : State) : (finish s).bus = s.bus := rfl
@[simp] theorem finish_response (s : State) : (finish s).response = s.response := rfl
@[simp] theorem finish_epoch (s : State) : (finish s).epoch = s.epoch := rfl
@[simp] theorem finish_draws (s : State) : (finish s).draws = s.draws := rfl

@[simp] theorem respond_config (r : BusResponse) (s : State) : (respond r s).config = s.config := rfl
@[simp] theorem respond_status (r : BusResponse) (s : State) : (respond r s).status = s.status := rfl
@[simp] theorem respond_doneIe (r : BusResponse) (s : State) : (respond r s).doneIe = s.doneIe := rfl
@[simp] theorem respond_len (r : BusResponse) (s : State) : (respond r s).len = s.len := rfl
@[simp] theorem respond_detectHz (r : BusResponse) (s : State) : (respond r s).detectHz = s.detectHz := rfl
@[simp] theorem respond_sampleHz (r : BusResponse) (s : State) : (respond r s).sampleHz = s.sampleHz := rfl
@[simp] theorem respond_pwr (r : BusResponse) (s : State) : (respond r s).pwr = s.pwr := rfl
@[simp] theorem respond_gz (r : BusResponse) (s : State) : (respond r s).gz = s.gz := rfl
@[simp] theorem respond_mem (r : BusResponse) (s : State) : (respond r s).mem = s.mem := rfl
@[simp] theorem respond_latch (r : BusResponse) (s : State) : (respond r s).latch = s.latch := rfl
@[simp] theorem respond_engine (r : BusResponse) (s : State) : (respond r s).engine = s.engine := rfl
@[simp] theorem respond_wait (r : BusResponse) (s : State) : (respond r s).wait = s.wait := rfl
@[simp] theorem respond_latency (r : BusResponse) (s : State) : (respond r s).latency = s.latency := rfl
@[simp] theorem respond_bus (r : BusResponse) (s : State) : (respond r s).bus = s.bus := rfl
@[simp] theorem respond_response (r : BusResponse) (s : State) : (respond r s).response = some r := rfl
@[simp] theorem respond_epoch (r : BusResponse) (s : State) : (respond r s).epoch = s.epoch := rfl
@[simp] theorem respond_draws (r : BusResponse) (s : State) : (respond r s).draws = s.draws := rfl

@[simp] theorem finishTransform_config (ra rb : Bank) (re im : List Word) (s : State) : (finishTransform ra rb re im s).config = s.config := rfl
@[simp] theorem finishTransform_status (ra rb : Bank) (re im : List Word) (s : State) : (finishTransform ra rb re im s).status = { s.status with busy := false, done := true } := rfl
@[simp] theorem finishTransform_doneIe (ra rb : Bank) (re im : List Word) (s : State) : (finishTransform ra rb re im s).doneIe = s.doneIe := rfl
@[simp] theorem finishTransform_len (ra rb : Bank) (re im : List Word) (s : State) : (finishTransform ra rb re im s).len = s.len := rfl
@[simp] theorem finishTransform_detectHz (ra rb : Bank) (re im : List Word) (s : State) : (finishTransform ra rb re im s).detectHz = s.detectHz := rfl
@[simp] theorem finishTransform_sampleHz (ra rb : Bank) (re im : List Word) (s : State) : (finishTransform ra rb re im s).sampleHz = s.sampleHz := rfl
@[simp] theorem finishTransform_pwr (ra rb : Bank) (re im : List Word) (s : State) : (finishTransform ra rb re im s).pwr = s.pwr := rfl
@[simp] theorem finishTransform_gz (ra rb : Bank) (re im : List Word) (s : State) : (finishTransform ra rb re im s).gz = s.gz := rfl
@[simp] theorem finishTransform_mem (ra rb : Bank) (re im : List Word) (s : State) : (finishTransform ra rb re im s).mem = writeRun (writeRun s.mem ra 0 re) rb 0 im := rfl
@[simp] theorem finishTransform_latch (ra rb : Bank) (re im : List Word) (s : State) : (finishTransform ra rb re im s).latch = s.latch := rfl
@[simp] theorem finishTransform_engine (ra rb : Bank) (re im : List Word) (s : State) : (finishTransform ra rb re im s).engine = s.engine.afterTransform s.draws := rfl
@[simp] theorem finishTransform_wait (ra rb : Bank) (re im : List Word) (s : State) : (finishTransform ra rb re im s).wait = 0 := rfl
@[simp] theorem finishTransform_latency (ra rb : Bank) (re im : List Word) (s : State) : (finishTransform ra rb re im s).latency = s.latency := rfl
@[simp] theorem finishTransform_bus (ra rb : Bank) (re im : List Word) (s : State) : (finishTransform ra rb re im s).bus = s.bus := rfl
@[simp] theorem finishTransform_response (ra rb : Bank) (re im : List Word) (s : State) : (finishTransform ra rb re im s).response = s.response := rfl
@[simp] theorem finishTransform_epoch (ra rb : Bank) (re im : List Word) (s : State) : (finishTransform ra rb re im s).epoch = s.epoch := rfl
@[simp] theorem finishTransform_draws (ra rb : Bank) (re im : List Word) (s : State) : (finishTransform ra rb re im s).draws = s.draws + 1 := rfl

@[simp] theorem hostRead_config (a : BitVec 18) (n : Nat) (s : State) : (hostRead a n s).config = s.config := by
  obtain ⟨r, hr⟩ := hostRead_eq_respond a n s; rw [hr]; rfl
@[simp] theorem hostRead_status (a : BitVec 18) (n : Nat) (s : State) : (hostRead a n s).status = s.status := by
  obtain ⟨r, hr⟩ := hostRead_eq_respond a n s; rw [hr]; rfl
@[simp] theorem hostRead_doneIe (a : BitVec 18) (n : Nat) (s : State) : (hostRead a n s).doneIe = s.doneIe := by
  obtain ⟨r, hr⟩ := hostRead_eq_respond a n s; rw [hr]; rfl
@[simp] theorem hostRead_len (a : BitVec 18) (n : Nat) (s : State) : (hostRead a n s).len = s.len := by
  obtain ⟨r, hr⟩ := hostRead_eq_respond a n s; rw [hr]; rfl
@[simp] theorem hostRead_detectHz (a : BitVec 18) (n : Nat) (s : State) : (hostRead a n s).detectHz = s.detectHz := by
  obtain ⟨r, hr⟩ := hostRead_eq_respond a n s; rw [hr]; rfl
@[simp] theorem hostRead_sampleHz (a : BitVec 18) (n : Nat) (s : State) : (hostRead a n s).sampleHz = s.sampleHz := by
  obtain ⟨r, hr⟩ := hostRead_eq_respond a n s; rw [hr]; rfl
@[simp] theorem hostRead_pwr (a : BitVec 18) (n : Nat) (s : State) : (hostRead a n s).pwr = s.pwr := by
  obtain ⟨r, hr⟩ := hostRead_eq_respond a n s; rw [hr]; rfl
@[simp] theorem hostRead_gz (a : BitVec 18) (n : Nat) (s : State) : (hostRead a n s).gz = s.gz := by
  obtain ⟨r, hr⟩ := hostRead_eq_respond a n s; rw [hr]; rfl
@[simp] theorem hostRead_mem (a : BitVec 18) (n : Nat) (s : State) : (hostRead a n s).mem = s.mem := by
  obtain ⟨r, hr⟩ := hostRead_eq_respond a n s; rw [hr]; rfl
@[simp] theorem hostRead_latch (a : BitVec 18) (n : Nat) (s : State) : (hostRead a n s).latch = s.latch := by
  obtain ⟨r, hr⟩ := hostRead_eq_respond a n s; rw [hr]; rfl
@[simp] theorem hostRead_engine (a : BitVec 18) (n : Nat) (s : State) : (hostRead a n s).engine = s.engine := by
  obtain ⟨r, hr⟩ := hostRead_eq_respond a n s; rw [hr]; rfl
@[simp] theorem hostRead_wait (a : BitVec 18) (n : Nat) (s : State) : (hostRead a n s).wait = s.wait := by
  obtain ⟨r, hr⟩ := hostRead_eq_respond a n s; rw [hr]; rfl
@[simp] theorem hostRead_latency (a : BitVec 18) (n : Nat) (s : State) : (hostRead a n s).latency = s.latency := by
  obtain ⟨r, hr⟩ := hostRead_eq_respond a n s; rw [hr]; rfl
@[simp] theorem hostRead_bus (a : BitVec 18) (n : Nat) (s : State) : (hostRead a n s).bus = s.bus := by
  obtain ⟨r, hr⟩ := hostRead_eq_respond a n s; rw [hr]; rfl
@[simp] theorem hostRead_epoch (a : BitVec 18) (n : Nat) (s : State) : (hostRead a n s).epoch = s.epoch := by
  obtain ⟨r, hr⟩ := hostRead_eq_respond a n s; rw [hr]; rfl
@[simp] theorem hostRead_draws (a : BitVec 18) (n : Nat) (s : State) : (hostRead a n s).draws = s.draws := by
  obtain ⟨r, hr⟩ := hostRead_eq_respond a n s; rw [hr]; rfl

@[simp] theorem hideEngine_config (s : State) : (hideEngine s).config = s.config := rfl
@[simp] theorem hideEngine_status (s : State) : (hideEngine s).status = s.status := rfl
@[simp] theorem hideEngine_doneIe (s : State) : (hideEngine s).doneIe = s.doneIe := rfl
@[simp] theorem hideEngine_len (s : State) : (hideEngine s).len = s.len := rfl
@[simp] theorem hideEngine_detectHz (s : State) : (hideEngine s).detectHz = s.detectHz := rfl
@[simp] theorem hideEngine_sampleHz (s : State) : (hideEngine s).sampleHz = s.sampleHz := rfl
@[simp] theorem hideEngine_pwr (s : State) : (hideEngine s).pwr = s.pwr := rfl
@[simp] theorem hideEngine_gz (s : State) : (hideEngine s).gz = s.gz := rfl
@[simp] theorem hideEngine_mem (s : State) : (hideEngine s).mem = s.mem := rfl
@[simp] theorem hideEngine_latch (s : State) : (hideEngine s).latch = s.latch := rfl
@[simp] theorem hideEngine_engine (s : State) : (hideEngine s).engine = Engine.reset 0 := rfl
@[simp] theorem hideEngine_wait (s : State) : (hideEngine s).wait = s.wait := rfl
@[simp] theorem hideEngine_latency (s : State) : (hideEngine s).latency = s.latency := rfl
@[simp] theorem hideEngine_bus (s : State) : (hideEngine s).bus = s.bus := rfl
@[simp] theorem hideEngine_response (s : State) : (hideEngine s).response = s.response := rfl
@[simp] theorem hideEngine_epoch (s : State) : (hideEngine s).epoch = s.epoch := rfl
@[simp] theorem hideEngine_draws (s : State) : (hideEngine s).draws = 0 := rfl

/-! A register write changes no other field than its register's own (R85). -/

@[simp] theorem writeReg_config (s : State) (r : Reg) (v : Word) : (writeReg s r v).config = s.config := by cases r <;> rfl
@[simp] theorem writeReg_pwr (s : State) (r : Reg) (v : Word) : (writeReg s r v).pwr = s.pwr := by cases r <;> rfl
@[simp] theorem writeReg_gz (s : State) (r : Reg) (v : Word) : (writeReg s r v).gz = s.gz := by cases r <;> rfl
@[simp] theorem writeReg_mem (s : State) (r : Reg) (v : Word) : (writeReg s r v).mem = s.mem := by cases r <;> rfl
@[simp] theorem writeReg_latch (s : State) (r : Reg) (v : Word) : (writeReg s r v).latch = s.latch := by cases r <;> rfl
@[simp] theorem writeReg_engine (s : State) (r : Reg) (v : Word) : (writeReg s r v).engine = s.engine := by cases r <;> rfl
@[simp] theorem writeReg_wait (s : State) (r : Reg) (v : Word) : (writeReg s r v).wait = s.wait := by cases r <;> rfl
@[simp] theorem writeReg_latency (s : State) (r : Reg) (v : Word) : (writeReg s r v).latency = s.latency := by cases r <;> rfl
@[simp] theorem writeReg_bus (s : State) (r : Reg) (v : Word) : (writeReg s r v).bus = s.bus := by cases r <;> rfl
@[simp] theorem writeReg_response (s : State) (r : Reg) (v : Word) : (writeReg s r v).response = s.response := by cases r <;> rfl
@[simp] theorem writeReg_epoch (s : State) (r : Reg) (v : Word) : (writeReg s r v).epoch = s.epoch := by cases r <;> rfl
@[simp] theorem writeReg_draws (s : State) (r : Reg) (v : Word) : (writeReg s r v).draws = s.draws := by cases r <;> rfl
@[simp] theorem writeReg_busy (s : State) (r : Reg) (v : Word) : (writeReg s r v).status.busy = s.status.busy := by
  cases r <;> rfl
@[simp] theorem writeReg_err (s : State) (r : Reg) (v : Word) : (writeReg s r v).status.err = s.status.err := by
  cases r <;> rfl

end Sys2Proof.Machine
end

