-- ==== Sys2Proof/Laws/Issue.lean ====
section
/-! SUPPORT. What the shared operations of issue and completion can do, said once each. -/

namespace Sys2Proof.Machine

open Sys2Proof

abbrev Out := Host.Outcome State Fault Refusal

/-! ### Sequencing -/

@[simp] theorem andThen_next (s : State) (f : State → Out) : andThen (.next s) f = f s := rfl
@[simp] theorem andThen_fault (e : Fault) (f : State → Out) : andThen (.fault e) f = .fault e := rfl
@[simp] theorem andThen_refused (r : Refusal) (f : State → Out) : andThen (.refused r) f = .refused r := rfl

theorem andThen_eq_next {o : Out} {f : State → Out} {t : State} :
    andThen o f = .next t ↔ ∃ s, o = .next s ∧ f s = .next t := by
  cases o <;> simp

/-- A read of bank words goes on exactly with the words of the bank. -/
theorem withWords_eq_next {s : State} {b : Bank} {n : Nat} {go : List Word → Out} {t : State} :
    withWords s b n go = .next t ↔
      ∃ ws, ws.length = n ∧ (∀ k, k < n → bankWord? s.mem b k = ws[k]?) ∧ go ws = .next t := by
  unfold withWords
  constructor
  · intro h
    split at h
    · cases h
    · next ws hr => exact ⟨ws, by simpa using (readRun_eq_ok.1 hr).1, by simpa using (readRun_eq_ok.1 hr).2, h⟩
  · rintro ⟨ws, hl, hw, hg⟩
    rw [readRun_eq_ok.2 ⟨hl, by simpa using hw⟩]
    exact hg

/-- A read of words that a bank holds goes on with them. -/
theorem withWords_of_holds {s : State} {b : Bank} {n : Nat} {ws : List Word} {go : List Word → Out}
    (hl : ws.length = n) (h : bankHolds s.mem b ws) : withWords s b n go = go ws := by
  unfold withWords
  rw [readRun_eq_ok.2 ⟨hl, fun i hi => by simpa using h i (by omega)⟩]

/-- A read of bank words never refuses, and faults only at an unwritten word (R53). -/
theorem withWords_cases (s : State) (b : Bank) (n : Nat) (go : List Word → Out) :
    (∃ ws, ws.length = n ∧ bankHolds s.mem b ws ∧ withWords s b n go = go ws) ∨
    (∃ k, k < n ∧ bankWord? s.mem b k = none ∧ withWords s b n go = .fault (.unwrittenWord b k)) := by
  cases h : readRun s.mem b 0 n with
  | ok ws =>
    left
    obtain ⟨hl, hw⟩ := readRun_eq_ok.1 h
    exact ⟨ws, hl, fun k hk => by simpa using hw k (by omega), by simp [withWords, h]⟩
  | error e =>
    right
    obtain ⟨i, hi, hn, rfl⟩ := readRun_eq_error h
    exact ⟨i, hi, by simpa using hn, by simp [withWords, h]⟩

/-! ### Issue -/

theorem issue_of_busy {v : Word} {e : ErrCode} {run : State → Out} {s : State} (h : s.status.busy = true) :
    issue v e run s = .next (overrun s) := by simp [issue, h]

theorem issue_of_error {v : Word} {e : ErrCode} {run : State → Out} {s : State} (h : s.status.busy = false)
    (he : e ≠ .none) : issue v e run s = .next (reject e s) := by simp [issue, h, he]

theorem issue_of_ok {v : Word} {run : State → Out} {s : State} (h : s.status.busy = false) :
    issue v .none run s = settle run (accept v s) := by simp [issue, h]

theorem settle_of_due {run : State → Out} {s : State} (h : s.wait = 0) : settle run s = run s := by simp [settle, h]

theorem settle_of_waiting {run : State → Out} {s : State} (h : s.wait ≠ 0) : settle run s = .next s := by
  simp [settle, h]

/-- Everything the issue of a command can answer when it answers a next state (R245, R246, R250, R256). -/
theorem issue_eq_next {v : Word} {e : ErrCode} {run : State → Out} {s t : State} (h : issue v e run s = .next t) :
    (s.status.busy = true ∧ t = overrun s) ∨
    (s.status.busy = false ∧ e ≠ .none ∧ t = reject e s) ∨
    (s.status.busy = false ∧ e = .none ∧ (accept v s).wait ≠ 0 ∧ t = accept v s) ∨
    (s.status.busy = false ∧ e = .none ∧ (accept v s).wait = 0 ∧ run (accept v s) = .next t) := by
  unfold issue settle at h
  split at h
  · next hb => exact .inl ⟨hb, by simpa using h.symm⟩
  · next hb =>
    simp only [Bool.not_eq_true] at hb
    split at h
    · next he =>
      split at h
      · next hw => exact .inr (.inr (.inr ⟨hb, he, hw, h⟩))
      · next hw => exact .inr (.inr (.inl ⟨hb, he, hw, by simpa using h.symm⟩))
    · next he => exact .inr (.inl ⟨hb, he, by simpa using h.symm⟩)

/-- One statement of `exec` for every command: the issue of its word with its checks and its own effect (R245). -/
theorem exec_eq_issue (i : Instr) (s : State) : exec i s = issue (encode i) (issueCheck i s) (runCommand i) s := by
  cases i <;> rfl

/-! ### Checks -/

theorem check_eq_none {c : Config} {i : Instr} {len : BitVec 32} {det fs : Word} :
    check c i len det fs = .none ↔
      i.wellFormed = true ∧ lenOk c i len.toNat = true ∧ argOk i len.toNat det fs = true := by
  unfold check
  cases i.wellFormed <;> cases lenOk c i len.toNat <;> cases argOk i len.toNat det fs <;> simp

/-- Every accepted length is at most `NMAX` (R252). -/
theorem le_nmax_of_lenOk {c : Config} {i : Instr} {n : Nat} (h : lenOk c i n = true) : n ≤ c.nmax := by
  cases i <;> simp only [lenOk, Bool.and_eq_true, decide_eq_true_eq] at h <;> exact h.2

theorem nmax_le_of_valid {c : Config} (h : c.valid = true) : c.nmax ≤ 8192 := by
  simp only [Config.valid, Bool.and_eq_true, decide_eq_true_eq] at h
  exact Nat.pow_le_pow_right (by omega : 0 < 2) h.1.1.1.1.2

/-- A power of two, as R252 tests for it. -/
theorem isPow2_iff {n : Nat} : isPow2 n = true ↔ ∃ l, n = 2 ^ l := by
  simp only [isPow2, Bool.and_eq_true, bne_iff_ne, ne_eq, beq_iff_eq]
  constructor
  · rintro ⟨h0, h⟩
    exact (Nat.and_sub_one_eq_zero_iff_isPowerOfTwo h0).1 h
  · rintro ⟨l, rfl⟩
    exact ⟨by positivity, (Nat.and_sub_one_eq_zero_iff_isPowerOfTwo (by positivity)).2 ⟨l, rfl⟩⟩

end Sys2Proof.Machine
end

