-- ==== Sys2Proof/Laws/Checks.lean ====
section
/-! SUPPORT. The checks of a command read as the spec's tables, and what `exec` is once they are known. -/

namespace Sys2Proof.Machine

open Sys2Proof

/-- The length check is R252's table. -/
theorem lenOk_iff {c : Config} {i : Instr} {n : Nat} : lenOk c i n = true ↔ acceptedLength c i n := by
  cases i <;> simp only [lenOk, acceptedLength, Bool.and_eq_true, decide_eq_true_eq, isPow2_iff, and_assoc]

theorem isFinite_iff {w : Word} : isFinite w = true ↔ ∃ neg u, classify w = .fin neg u := by
  unfold isFinite classify
  split
  · next h => simp [h]; split <;> simp
  · next h => simp [h]; split <;> simp

theorem isFinite_eq_false_iff {w : Word} : isFinite w = false ↔ notFinite w := by
  rw [← not_iff_not, Bool.not_eq_false, isFinite_iff, notFinite]
  push Not
  rfl

theorem isPositiveFinite_eq_false_iff {w : Word} : isPositiveFinite w = false ↔
    (notFinite w ∨ (∃ u, classify w = .fin true u) ∨ classify w = .fin false 0) := by
  unfold isPositiveFinite notFinite
  split
  · next neg u h => simp [h]; cases neg <;> simp
  · next h => simp [h]
  · next h => simp [h]

/-- GOERTZEL's ARG check fails exactly at the arguments R253 lists. -/
theorem argOk_goertzel_eq_false_iff {ra : Bank} {n : Nat} {det fs : Word} :
    argOk (.goertzel ra) n det fs = false ↔ badFrequencies n det fs := by
  simp only [argOk, Bool.and_eq_false_iff, isPositiveFinite_eq_false_iff, isFinite_eq_false_iff, badFrequencies,
    goertzelAngle, goertzelBin, or_assoc]

/-- No command but GOERTZEL has an ARG check. -/
theorem argOk_of_not_goertzel {i : Instr} (h : ∀ ra, i ≠ .goertzel ra) (n : Nat) (det fs : Word) :
    argOk i n det fs = true := by
  cases i <;> first | rfl | exact absurd rfl (h _)

theorem issueCheck_eq_none {i : Instr} {s : State} (hw : i.wellFormed = true) (hl : acceptedLength s.config i s.len.toNat)
    (ha : argOk i s.len.toNat s.detectHz s.sampleHz = true) : issueCheck i s = .none :=
  check_eq_none.2 ⟨hw, lenOk_iff.2 hl, ha⟩

/-- A failed check: the rejection with its code (R249, R250). -/
theorem exec_of_failed_check {i : Instr} {s : State} {e : ErrCode} (hb : s.status.busy = false) (h : issueCheck i s = e)
    (he : e ≠ .none) : exec i s = .next (rejectedWith e s) := by
  rw [exec_eq_issue, h, issue_of_error hb he]
  rfl

/-- Passed checks and a completion due at once: the command's effect, after its acceptance (R245, R256). -/
theorem exec_of_passed_checks {i : Instr} {s : State} (hb : s.status.busy = false) (hl : s.latency.headD 0 = 0)
    (hc : issueCheck i s = .none) : exec i s = runCommand i (accept (encode i) s) := by
  rw [exec_eq_issue, hc, issue_of_ok hb, settle_of_due (by simpa using hl)]

/-- Passed checks and a completion not yet due: the acceptance alone (R245). -/
theorem exec_of_waiting {i : Instr} {s : State} (hb : s.status.busy = false) (hl : s.latency.headD 0 ≠ 0)
    (hc : issueCheck i s = .none) : exec i s = .next (accept (encode i) s) := by
  rw [exec_eq_issue, hc, issue_of_ok hb, settle_of_waiting (by simpa using hl)]

/-- A command word while a command runs (R246). -/
theorem exec_of_busy {i : Instr} {s : State} (hb : s.status.busy = true) : exec i s = .next (overrun s) := by
  rw [exec_eq_issue, issue_of_busy hb]

end Sys2Proof.Machine
end

