-- ==== Sys2Proof/Laws/Engine.lean ====
section
/-! SUPPORT. The lengths of what the engine and the commands compute, and what each command's effect can answer. -/

namespace Sys2Proof.Machine

open Sys2Proof

/-! ### Lengths -/

@[simp] theorem length_bitReverse (l : Nat) (xs : List Cplx) : (bitReverse l xs).length = xs.length := by
  simp [bitReverse]

@[simp] theorem length_twiddlesFrom (base : Cplx) (n : Nat) (w : Cplx) : (twiddlesFrom base n w).length = n := by
  induction n generalizing w with
  | zero => rfl
  | succ n ih => simp [twiddlesFrom, ih]

@[simp] theorem length_twiddles (t : TrigUnit) (s half : Nat) : (twiddles t s half).length = half := by
  simp [twiddles]

theorem length_halfBlock (f : Cplx → Cplx → Cplx → Cplx) (us xs ws : List Cplx) :
    (halfBlock f us xs ws).length = min us.length (min xs.length ws.length) := by
  induction us generalizing xs ws with
  | nil => simp [halfBlock]
  | cons u us ih => cases xs <;> cases ws <;> simp [halfBlock, ih]

theorem length_block (ws lo hi : List Cplx) :
    (block ws lo hi).length = 2 * min lo.length (min hi.length ws.length) := by
  simp [block, length_halfBlock]; omega

/-- The blocks of a stage never make the sequence longer. -/
theorem length_blocks_le (ws : List Cplx) (half n : Nat) (xs : List Cplx) :
    (blocks ws half n xs).length ≤ xs.length := by
  induction n generalizing xs with
  | zero => exact le_rfl
  | succ n ih =>
    have := ih (xs.drop (2 * half))
    simp only [blocks, List.length_append, length_block, List.length_take, List.length_drop] at this ⊢
    omega

/-- Whole blocks, with a twiddle for each butterfly, keep the length. -/
theorem length_blocks {ws : List Cplx} {half n : Nat} {xs : List Cplx} (hw : ws.length = half)
    (hx : n * (2 * half) ≤ xs.length) : (blocks ws half n xs).length = xs.length := by
  induction n generalizing xs with
  | zero => rfl
  | succ n ih =>
    have hx' : 2 * half + n * (2 * half) ≤ xs.length := by rw [Nat.succ_mul] at hx; omega
    have := ih (xs := xs.drop (2 * half)) (by simp only [List.length_drop]; omega)
    simp only [blocks, List.length_append, length_block, List.length_take, List.length_drop, hw] at this ⊢
    omega

theorem length_stage_le (t : TrigUnit) (xs : List Cplx) (s : Nat) : (stage t xs s).length ≤ xs.length :=
  length_blocks_le _ _ _ _

/-- A stage keeps the length. -/
theorem length_stage (t : TrigUnit) (xs : List Cplx) {s : Nat} (hs : 1 ≤ s) : (stage t xs s).length = xs.length := by
  refine length_blocks (by simp) ?_
  rw [show 2 * 2 ^ (s - 1) = 2 ^ s by rw [← Nat.pow_succ']; congr 1; omega]
  exact Nat.div_mul_le_self _ _

/-- The engine keeps the length. -/
theorem length_engine (t : TrigUnit) (xs : List Cplx) : (engine t xs).length = xs.length := by
  have key : ∀ (ss : List Nat) (ys : List Cplx), (∀ s, s ∈ ss → 1 ≤ s) → (ss.foldl (stage t) ys).length = ys.length := by
    intro ss
    induction ss with
    | nil => intros; rfl
    | cons s ss ih =>
      intro ys h
      rw [List.foldl_cons, ih _ (fun x hx => h x (List.mem_cons_of_mem _ hx)), length_stage t ys (h s (by simp))]
  unfold engine
  rw [key _ _ (by simp), length_bitReverse]

theorem length_transform_re {t : TrigUnit} {re im : List Word} (h : im.length = re.length) :
    (transform t re im).1.length = re.length := by
  simp [transform, length_engine, h]

theorem length_transform_im {t : TrigUnit} {re im : List Word} (h : im.length = re.length) :
    (transform t re im).2.length = re.length := by
  simp [transform, length_engine, h]

@[simp] theorem length_scaleRail (n : Nat) (ws : List Word) : (scaleRail n ws).length = ws.length := by
  simp [scaleRail]

theorem length_evens_odds (xs : List Word) : (evens xs).length + (odds xs).length = xs.length := by
  induction xs using evens.induct with
  | case1 => rfl
  | case2 x => rfl
  | case3 x y rest ih => simp only [evens, odds, List.length_cons]; omega

@[simp] theorem length_repack (xs : List Word) : (repack xs).length = xs.length := by
  simp [repack, length_evens_odds]

theorem length_reconstructFrom (t : TrigUnit) (n i : Nat) (rs ms : List Word) :
    (reconstructFrom t n i rs ms).length = min rs.length ms.length := by
  induction rs generalizing i ms with
  | nil => simp [reconstructFrom]
  | cons r rs ih => cases ms <;> simp [reconstructFrom, ih]

/-- DCT gives as many coefficients as it reads samples. -/
@[simp] theorem length_dct (t : TrigUnit) (val : List Word) : (dct t val).length = val.length := by
  simp [dct, length_reconstructFrom, length_transform_re, length_transform_im]

@[simp] theorem length_hannWindow (t : TrigUnit) (n : Nat) : (hannWindow t n).length = n := by simp [hannWindow]

/-! ### What a command's effect can answer

Each is the whole of it: the words it read, and the one state it answers with (R257). -/

theorem runFft_eq_next {ra rb : Bank} {s t : State} (h : runFft ra rb s = .next t) :
    ∃ re im, re.length = runLength s ∧ im.length = runLength s ∧ bankHolds s.mem ra re ∧ bankHolds s.mem rb im ∧
      t = finishTransform ra rb (transform s.config.trig re im).1 (transform s.config.trig re im).2 s := by
  obtain ⟨re, hl, hr, h⟩ := withWords_eq_next.1 h
  obtain ⟨im, hl', hi, h⟩ := withWords_eq_next.1 h
  exact ⟨re, im, hl, hl', fun k hk => hr k (hl ▸ hk), fun k hk => hi k (hl' ▸ hk), by simpa using h.symm⟩

theorem runIfft_eq_next {ra rb : Bank} {s t : State} (h : runIfft ra rb s = .next t) :
    ∃ re im, re.length = runLength s ∧ im.length = runLength s ∧ bankHolds s.mem ra re ∧ bankHolds s.mem rb im ∧
      t = finishTransform ra rb (scaleRail (runLength s) (transform s.config.trig re im).1)
        (scaleRail (runLength s) (transform s.config.trig re im).2) s := by
  obtain ⟨re, hl, hr, h⟩ := withWords_eq_next.1 h
  obtain ⟨im, hl', hi, h⟩ := withWords_eq_next.1 h
  exact ⟨re, im, hl, hl', fun k hk => hr k (hl ▸ hk), fun k hk => hi k (hl' ▸ hk), by simpa using h.symm⟩

theorem runDct_eq_next {ra : Bank} {s t : State} (h : runDct ra s = .next t) :
    ∃ val, val.length = runLength s ∧ bankHolds s.mem ra val ∧
      t = finish { s with
        mem := writeRun s.mem ra 0 (dct s.config.trig val)
        engine := s.engine.afterDct s.draws s.config.nmax
        draws := s.draws + 1 } := by
  obtain ⟨val, hl, hr, h⟩ := withWords_eq_next.1 h
  exact ⟨val, hl, fun k hk => hr k (hl ▸ hk), by simpa using h.symm⟩

theorem runFilter_eq_next {ra rb : Bank} {s t : State} (h : runFilter ra rb s = .next t) :
    ∃ val fval, val.length = runLength s ∧ fval.length = runLength s ∧ bankHolds s.mem ra val ∧ bankHolds s.mem rb fval ∧
      t = finish { s with mem := writeRun s.mem ra 0 (val.zipWith fmul fval) } := by
  obtain ⟨re, hl, hr, h⟩ := withWords_eq_next.1 h
  obtain ⟨im, hl', hi, h⟩ := withWords_eq_next.1 h
  exact ⟨re, im, hl, hl', fun k hk => hr k (hl ▸ hk), fun k hk => hi k (hl' ▸ hk), by simpa using h.symm⟩

theorem runMagpwr_eq_next {ra rb rc : Bank} {s t : State} (h : runMagpwr ra rb rc s = .next t) :
    ∃ re im, re.length = runLength s ∧ im.length = runLength s ∧ bankHolds s.mem ra re ∧ bankHolds s.mem rb im ∧
      t = finish { s with
        mem := writeRun s.mem rc 0 (re.zipWith squaredMagnitude im)
        pwr := powerSummary s.config.magpwrEps (re.zipWith squaredMagnitude im) (runLength s)
        engine := s.engine.afterMagpwr s.draws
        draws := s.draws + 1 } := by
  obtain ⟨re, hl, hr, h⟩ := withWords_eq_next.1 h
  obtain ⟨im, hl', hi, h⟩ := withWords_eq_next.1 h
  exact ⟨re, im, hl, hl', fun k hk => hr k (hl ▸ hk), fun k hk => hi k (hl' ▸ hk), by simpa using h.symm⟩

theorem runGoertzel_eq_next {ra : Bank} {s t : State} (h : runGoertzel ra s = .next t) :
    ∃ samples, samples.length = runLength s ∧ bankHolds s.mem ra samples ∧
      t = finish { s with
        gz := resultRegs (latchedCoefs s) (detect s.config (latchedCoefs s) samples)
        status := s.status.withOverflow (detect s.config (latchedCoefs s) samples).ovf
        engine := s.engine.afterGoertzel s.draws
        draws := s.draws + 1 } := by
  obtain ⟨val, hl, hr, h⟩ := withWords_eq_next.1 h
  exact ⟨val, hl, fun k hk => hr k (hl ▸ hk), by simpa using h.symm⟩

theorem length_leftoverWords (draw start n : Nat) : (leftoverWords draw start n).length = n := by
  simp [leftoverWords]

/-- What every command's effect leaves as it was, and how it leaves STATUS (R47, R256). -/
theorem runCommand_kept {i : Instr} {s t : State} (h : runCommand i s = .next t) :
    hostStateKept s t ∧ t.latch = s.latch ∧ t.wait = 0 ∧ t.latency = s.latency ∧ t.status.busy = false ∧
      t.status.done = true ∧ t.status.err = s.status.err ∧ t.status.overrun = s.status.overrun ∧
      (s.status.ovf = true → t.status.ovf = true) := by
  cases i with
  | fft ra rb => obtain ⟨re, im, -, -, -, -, rfl⟩ := runFft_eq_next h; simp [hostStateKept]
  | ifft ra rb => obtain ⟨re, im, -, -, -, -, rfl⟩ := runIfft_eq_next h; simp [hostStateKept]
  | dct ra => obtain ⟨val, -, -, rfl⟩ := runDct_eq_next h; simp [hostStateKept]
  | hann ra => cases h; simp [hostStateKept]
  | filter ra rb => obtain ⟨re, im, -, -, -, -, rfl⟩ := runFilter_eq_next h; simp [hostStateKept]
  | magpwr ra rb rc => obtain ⟨re, im, -, -, -, -, rfl⟩ := runMagpwr_eq_next h; simp [hostStateKept]
  | goertzel ra =>
    obtain ⟨val, -, -, rfl⟩ := runGoertzel_eq_next h
    simp only [finish_status, finish_wait, Status.withOverflow, hostStateKept, finish_config, finish_doneIe, finish_len,
      finish_detectHz, finish_sampleHz, finish_bus, finish_response, finish_epoch, finish_latch, finish_latency]
    simp +contextual

/-- Where its input words are written, a command's effect answers a next state (R258). -/
theorem runCommand_completes {i : Instr} {s : State} (h : inputsWritten i (runLength s) s.mem) :
    ∃ t, runCommand i s = .next t := by
  have rd (b : Bank) (hb : b ∈ inputBanks i) (go : List Word → Out) :
      ∃ ws, ws.length = runLength s ∧ bankHolds s.mem b ws ∧ withWords s b (runLength s) go = go ws := by
    rcases withWords_cases s b (runLength s) go with h' | ⟨k, hk, hn, -⟩
    · exact h'
    · have := h b hb k hk
      simp [hn] at this
  cases i with
  | fft ra rb =>
    obtain ⟨re, -, -, h1⟩ := rd ra (by simp [inputBanks]) _
    obtain ⟨im, -, -, h2⟩ := rd rb (by simp [inputBanks]) _
    exact ⟨_, by simp only [runCommand, runFft]; rw [h1, h2]⟩
  | ifft ra rb =>
    obtain ⟨re, -, -, h1⟩ := rd ra (by simp [inputBanks]) _
    obtain ⟨im, -, -, h2⟩ := rd rb (by simp [inputBanks]) _
    exact ⟨_, by simp only [runCommand, runIfft]; rw [h1, h2]⟩
  | dct ra =>
    obtain ⟨re, -, -, h1⟩ := rd ra (by simp [inputBanks]) _
    exact ⟨_, by simp only [runCommand, runDct]; rw [h1]⟩
  | hann ra => exact ⟨_, rfl⟩
  | filter ra rb =>
    obtain ⟨re, -, -, h1⟩ := rd ra (by simp [inputBanks]) _
    obtain ⟨im, -, -, h2⟩ := rd rb (by simp [inputBanks]) _
    exact ⟨_, by simp only [runCommand, runFilter]; rw [h1, h2]⟩
  | magpwr ra rb rc =>
    obtain ⟨re, -, -, h1⟩ := rd ra (by simp [inputBanks]) _
    obtain ⟨im, -, -, h2⟩ := rd rb (by simp [inputBanks]) _
    exact ⟨_, by simp only [runCommand, runMagpwr]; rw [h1, h2]⟩
  | goertzel ra =>
    obtain ⟨re, -, -, h1⟩ := rd ra (by simp [inputBanks]) _
    exact ⟨_, by simp only [runCommand, runGoertzel]; rw [h1]⟩

/-! ### Elements -/

/-- Element `k` of the reconstruction is the coefficient of its index (R193). -/
theorem getElem?_reconstructFrom (t : TrigUnit) (n i : Nat) (rs ms : List Word) (k : Nat) (hr : k < rs.length)
    (hm : k < ms.length) :
    (reconstructFrom t n i rs ms)[k]? = some (dctCoefficient t n (i + k) rs[k] ms[k]) := by
  induction rs generalizing i ms k with
  | nil => simp at hr
  | cons r rs ih =>
    cases ms with
    | nil => simp at hm
    | cons m ms =>
      cases k with
      | zero => simp [reconstructFrom]
      | succ k =>
        simp only [reconstructFrom, List.getElem?_cons_succ, List.getElem_cons_succ]
        rw [ih (i + 1) ms k (by simpa using hr) (by simpa using hm)]
        congr 2
        omega

end Sys2Proof.Machine
end

