-- ==== Sys2Proof/Laws/PerInstr.lean ====
section
/-! SUPPORT. What holds of every command as syntax, command by command. -/

namespace Sys2Proof.Laws.RoundTrip

open Sys2Proof

/-- The command word of a command decodes to that command (R121 to R123, R127). -/
def Statement (i : Instr) : Prop := decode (encode i) = .ok i

theorem fft (ra rb : Bank) : Statement (.fft ra rb) := by cases ra <;> cases rb <;> rfl

theorem ifft (ra rb : Bank) : Statement (.ifft ra rb) := by cases ra <;> cases rb <;> rfl

theorem dct (ra : Bank) : Statement (.dct ra) := by cases ra <;> rfl

theorem hann (ra : Bank) : Statement (.hann ra) := by cases ra <;> rfl

theorem filter (ra rb : Bank) : Statement (.filter ra rb) := by cases ra <;> cases rb <;> rfl

theorem magpwr (ra rb rc : Bank) : Statement (.magpwr ra rb rc) := by cases ra <;> cases rb <;> cases rc <;> rfl

theorem goertzel (ra : Bank) : Statement (.goertzel ra) := by cases ra <;> rfl

/-- All of them. -/
theorem all (i : Instr) : Statement i := by
  cases i with
  | fft ra rb => exact fft ra rb
  | ifft ra rb => exact ifft ra rb
  | dct ra => exact dct ra
  | hann ra => exact hann ra
  | filter ra rb => exact filter ra rb
  | magpwr ra rb rc => exact magpwr ra rb rc
  | goertzel ra => exact goertzel ra

end Sys2Proof.Laws.RoundTrip
end

