-- ==== Sys2Proof/Laws/Step.lean ====
section
/-! SUPPORT. What a command's effect, a host transaction and a step can do, said once each. -/

namespace Sys2Proof.Machine

open Sys2Proof

/-- A command's effect keeps the canonical form of memory. -/
theorem runCommand_wf {i : Instr} {s t : State} (h : runCommand i s = .next t) (hm : s.mem.wf = true) :
    t.mem.wf = true := by
  cases i with
  | fft ra rb => obtain ⟨re, im, -, -, -, -, rfl⟩ := runFft_eq_next h; exact wf_writeRun _ _ _ (wf_writeRun _ _ _ hm)
  | ifft ra rb => obtain ⟨re, im, -, -, -, -, rfl⟩ := runIfft_eq_next h; exact wf_writeRun _ _ _ (wf_writeRun _ _ _ hm)
  | dct ra => obtain ⟨val, -, -, rfl⟩ := runDct_eq_next h; exact wf_writeRun _ _ _ hm
  | hann ra => cases h; exact wf_writeRun _ _ _ hm
  | filter ra rb => obtain ⟨re, im, -, -, -, -, rfl⟩ := runFilter_eq_next h; exact wf_writeRun _ _ _ hm
  | magpwr ra rb rc => obtain ⟨re, im, -, -, -, -, rfl⟩ := runMagpwr_eq_next h; exact wf_writeRun _ _ _ hm
  | goertzel ra => obtain ⟨val, -, -, rfl⟩ := runGoertzel_eq_next h; exact hm

/-- A command of a length within the banks stores inside the banks (R252). -/
theorem runCommand_inBanks {i : Instr} {s t : State} (h : runCommand i s = .next t) (hn : runLength s ≤ s.config.nmax)
    (hm : Memory.inBanks s.config s.mem = true) : Memory.inBanks s.config t.mem = true := by
  cases i with
  | fft ra rb =>
    obtain ⟨re, im, hr, hi, -, -, rfl⟩ := runFft_eq_next h
    have h1 := length_transform_re (t := s.config.trig) (re := re) (im := im) (by omega)
    have h2 := length_transform_im (t := s.config.trig) (re := re) (im := im) (by omega)
    exact inBanks_writeRun (by omega) (inBanks_writeRun (by omega) hm)
  | ifft ra rb =>
    obtain ⟨re, im, hr, hi, -, -, rfl⟩ := runIfft_eq_next h
    have h1 := length_transform_re (t := s.config.trig) (re := re) (im := im) (by omega)
    have h2 := length_transform_im (t := s.config.trig) (re := re) (im := im) (by omega)
    exact inBanks_writeRun (by rw [length_scaleRail]; omega) (inBanks_writeRun (by rw [length_scaleRail]; omega) hm)
  | dct ra =>
    obtain ⟨val, hv, -, rfl⟩ := runDct_eq_next h
    exact inBanks_writeRun (by rw [length_dct]; omega) hm
  | hann ra => cases h; exact inBanks_writeRun (by rw [length_hannWindow]; omega) hm
  | filter ra rb =>
    obtain ⟨re, im, hr, hi, -, -, rfl⟩ := runFilter_eq_next h
    exact inBanks_writeRun (by rw [List.length_zipWith]; omega) hm
  | magpwr ra rb rc =>
    obtain ⟨re, im, hr, hi, -, -, rfl⟩ := runMagpwr_eq_next h
    exact inBanks_writeRun (by rw [List.length_zipWith]; omega) hm
  | goertzel ra => obtain ⟨val, -, -, rfl⟩ := runGoertzel_eq_next h; exact hm

/-- A command's effect leaves the scratch rails as long as they were, or `NMAX` long (R50). -/
theorem runCommand_scratch {i : Instr} {s t : State} (h : runCommand i s = .next t)
    (hr : s.engine.sre.length = s.config.nmax) (hi : s.engine.sim.length = s.config.nmax) :
    t.engine.sre.length = s.config.nmax ∧ t.engine.sim.length = s.config.nmax := by
  cases i with
  | fft ra rb => obtain ⟨re, im, -, -, -, -, rfl⟩ := runFft_eq_next h; exact ⟨hr, hi⟩
  | ifft ra rb => obtain ⟨re, im, -, -, -, -, rfl⟩ := runIfft_eq_next h; exact ⟨hr, hi⟩
  | dct ra =>
    obtain ⟨val, -, -, rfl⟩ := runDct_eq_next h
    exact ⟨length_leftoverWords _ _ _, length_leftoverWords _ _ _⟩
  | hann ra => cases h; exact ⟨hr, hi⟩
  | filter ra rb => obtain ⟨re, im, -, -, -, -, rfl⟩ := runFilter_eq_next h; exact ⟨hr, hi⟩
  | magpwr ra rb rc => obtain ⟨re, im, -, -, -, -, rfl⟩ := runMagpwr_eq_next h; exact ⟨hr, hi⟩
  | goertzel ra => obtain ⟨val, -, -, rfl⟩ := runGoertzel_eq_next h; exact ⟨hr, hi⟩

/-- Only MAGPWR writes PWR (R41). -/
theorem runCommand_pwr {i : Instr} {s t : State} (h : runCommand i s = .next t) :
    t.pwr = s.pwr ∨ ∃ ra rb rc, i = .magpwr ra rb rc := by
  cases i with
  | fft ra rb => obtain ⟨re, im, -, -, -, -, rfl⟩ := runFft_eq_next h; exact .inl rfl
  | ifft ra rb => obtain ⟨re, im, -, -, -, -, rfl⟩ := runIfft_eq_next h; exact .inl rfl
  | dct ra => obtain ⟨val, -, -, rfl⟩ := runDct_eq_next h; exact .inl rfl
  | hann ra => cases h; exact .inl rfl
  | filter ra rb => obtain ⟨re, im, -, -, -, -, rfl⟩ := runFilter_eq_next h; exact .inl rfl
  | magpwr ra rb rc => exact .inr ⟨ra, rb, rc, rfl⟩
  | goertzel ra => obtain ⟨val, -, -, rfl⟩ := runGoertzel_eq_next h; exact .inl rfl

/-- Only GOERTZEL writes GZ_MAG, GZ_Y and GZ_COEF, and OVF (R42 to R44, R238). -/
theorem runCommand_gz {i : Instr} {s t : State} (h : runCommand i s = .next t) :
    (t.gz = s.gz ∧ t.status.ovf = s.status.ovf) ∨ ∃ ra, i = .goertzel ra := by
  cases i with
  | fft ra rb => obtain ⟨re, im, -, -, -, -, rfl⟩ := runFft_eq_next h; exact .inl ⟨rfl, rfl⟩
  | ifft ra rb => obtain ⟨re, im, -, -, -, -, rfl⟩ := runIfft_eq_next h; exact .inl ⟨rfl, rfl⟩
  | dct ra => obtain ⟨val, -, -, rfl⟩ := runDct_eq_next h; exact .inl ⟨rfl, rfl⟩
  | hann ra => cases h; exact .inl ⟨rfl, rfl⟩
  | filter ra rb => obtain ⟨re, im, -, -, -, -, rfl⟩ := runFilter_eq_next h; exact .inl ⟨rfl, rfl⟩
  | magpwr ra rb rc => obtain ⟨re, im, -, -, -, -, rfl⟩ := runMagpwr_eq_next h; exact .inl ⟨rfl, rfl⟩
  | goertzel ra => exact .inr ⟨ra, rfl⟩

/-- A command's effect on the banks and the result registers depends on the parameters, the banks, the latches and the
result registers alone, and its effect on OVF on these and OVF (R257). -/
theorem runCommand_congr {i : Instr} {s s' t : State} (hc : s'.config = s.config) (hm : s'.mem = s.mem)
    (hl : s'.latch = s.latch) (hp : s'.pwr = s.pwr) (hg : s'.gz = s.gz) (h : runCommand i s = .next t) :
    ∃ t', runCommand i s' = .next t' ∧ t'.mem = t.mem ∧ t'.pwr = t.pwr ∧ t'.gz = t.gz ∧
      (s'.status.ovf = s.status.ovf → t'.status.ovf = t.status.ovf) := by
  have hn : runLength s' = runLength s := by rw [runLength, runLength, hl]
  cases i with
  | fft ra rb =>
    obtain ⟨re, im, lr, li, hr, hi, rfl⟩ := runFft_eq_next h
    have e : runCommand (.fft ra rb) s' = runFft ra rb s' := rfl
    unfold runFft at e
    rw [withWords_of_holds (by rw [hn]; exact lr) (by rw [hm]; exact hr),
      withWords_of_holds (by rw [hn]; exact li) (by rw [hm]; exact hi)] at e
    exact ⟨_, e, by simp [hm, hc, hp, hg]⟩
  | ifft ra rb =>
    obtain ⟨re, im, lr, li, hr, hi, rfl⟩ := runIfft_eq_next h
    have e : runCommand (.ifft ra rb) s' = runIfft ra rb s' := rfl
    unfold runIfft at e
    rw [withWords_of_holds (by rw [hn]; exact lr) (by rw [hm]; exact hr),
      withWords_of_holds (by rw [hn]; exact li) (by rw [hm]; exact hi)] at e
    exact ⟨_, e, by simp [hm, hc, hp, hg, hn]⟩
  | dct ra =>
    obtain ⟨val, lr, hr, rfl⟩ := runDct_eq_next h
    have e : runCommand (.dct ra) s' = runDct ra s' := rfl
    unfold runDct at e
    rw [withWords_of_holds (by rw [hn]; exact lr) (by rw [hm]; exact hr)] at e
    exact ⟨_, e, by simp [hm, hc, hp, hg]⟩
  | hann ra => cases h; exact ⟨_, rfl, by simp [hm, hc, hp, hg, hn]⟩
  | filter ra rb =>
    obtain ⟨re, im, lr, li, hr, hi, rfl⟩ := runFilter_eq_next h
    have e : runCommand (.filter ra rb) s' = runFilter ra rb s' := rfl
    unfold runFilter at e
    rw [withWords_of_holds (by rw [hn]; exact lr) (by rw [hm]; exact hr),
      withWords_of_holds (by rw [hn]; exact li) (by rw [hm]; exact hi)] at e
    exact ⟨_, e, by simp [hm, hp, hg]⟩
  | magpwr ra rb rc =>
    obtain ⟨re, im, lr, li, hr, hi, rfl⟩ := runMagpwr_eq_next h
    have e : runCommand (.magpwr ra rb rc) s' = runMagpwr ra rb rc s' := rfl
    unfold runMagpwr at e
    rw [withWords_of_holds (by rw [hn]; exact lr) (by rw [hm]; exact hr),
      withWords_of_holds (by rw [hn]; exact li) (by rw [hm]; exact hi)] at e
    exact ⟨_, e, by simp [hm, hc, hg, hn]⟩
  | goertzel ra =>
    obtain ⟨val, lr, hr, rfl⟩ := runGoertzel_eq_next h
    have e : runCommand (.goertzel ra) s' = runGoertzel ra s' := rfl
    unfold runGoertzel at e
    rw [withWords_of_holds (by rw [hn]; exact lr) (by rw [hm]; exact hr)] at e
    exact ⟨_, e, by simp [hm, hc, hp, hl, latchedCoefs, hn, Status.withOverflow]; intro h; rw [h]⟩

/-! ### Issue from the bus -/

/-- Everything a write to CMD can do when it answers a next state (R245, R246, R250, R256). -/
theorem writeCmd_eq_next {v : Word} {s t : State} (h : writeCmd v s = .next t) :
    (s.status.busy = true ∧ t = overrun s) ∨
    (s.status.busy = false ∧ ∃ e, e ≠ .none ∧ t = reject e s) ∨
    (s.status.busy = false ∧ ∃ i, decode v = .ok i ∧ issueCheck i s = .none ∧ s.latency.headD 0 ≠ 0 ∧
      t = accept (encode i) s) ∨
    (s.status.busy = false ∧ ∃ i, decode v = .ok i ∧ issueCheck i s = .none ∧ s.latency.headD 0 = 0 ∧
      runCommand i (accept (encode i) s) = .next t) := by
  unfold writeCmd at h
  split at h
  · next i hi =>
    rw [exec_eq_issue] at h
    rcases issue_eq_next h with h | ⟨hb, he, rfl⟩ | ⟨hb, he, hw, rfl⟩ | ⟨hb, he, hw, h⟩
    · exact .inl h
    · exact .inr (.inl ⟨hb, _, he, rfl⟩)
    · exact .inr (.inr (.inl ⟨hb, i, hi, he, hw, rfl⟩))
    · exact .inr (.inr (.inr ⟨hb, i, hi, he, hw, h⟩))
  · unfold execMalformed at h
    split at h
    · next hb => exact .inl ⟨hb, by simpa using h.symm⟩
    · next hb => exact .inr (.inl ⟨by simpa using hb, .cmd, by decide, by simpa using h.symm⟩)

/-- The register at an offset has that offset. -/
theorem offset_of_at? {a : Nat} {r : Reg} (h : Reg.at? a = some r) : a = r.offset := by
  unfold Reg.at? at h
  split at h <;> first | (cases h; rfl) | cases h

/-- A register is reached at its own offset alone (R84). -/
theorem offset_of_target {c : Config} {addr : BitVec 18} {r : Reg} (h : targetOf c addr.toNat = .reg r) :
    addr = BitVec.ofNat 18 r.offset := by
  unfold targetOf at h
  split at h
  · split at h <;> cases h
  · split at h
    · next h' => cases h; rw [← offset_of_at? h', BitVec.ofNat_toNat, BitVec.setWidth_eq]
    · cases h

/-- A bank word that is reached lies inside its bank (R84). -/
theorem lt_nmax_of_target {c : Config} {a : Nat} {b : Bank} {k : Nat} (h : targetOf c a = .bank b k) : k < c.nmax := by
  unfold targetOf at h
  split at h
  · split at h
    · next hk => cases h; exact hk
    · cases h
  · split at h <;> cases h

/-- Everything a host write can do when it answers a next state: a register but CMD, a refused access, a bank word, CMD
(R83 to R88). -/
theorem hostWrite_eq_next {addr : BitVec 18} {bytes : Nat} {v : Word} {s t : State}
    (h : hostWrite addr bytes v s = .next t) :
    (∃ r, r ≠ .cmd ∧ addr = BitVec.ofNat 18 r.offset ∧ bytes = 8 ∧ t = writeReg (respond .writeOkay s) r v) ∨
    t = respond .writeError s ∨
    (s.status.busy = false ∧ ∃ b k, k < s.config.nmax ∧
      t = { respond .writeOkay s with mem := setBankWord s.mem b k v }) ∨
    (addr = 0x018 ∧ bytes = 8 ∧ writeCmd v (respond .writeOkay s) = .next t) := by
  unfold hostWrite at h
  split at h
  · next hw =>
    have h8 : bytes = 8 := by simp only [isWordAccess, Bool.and_eq_true, beq_iff_eq] at hw; exact hw.1
    split at h
    · next ht => exact .inr (.inr (.inr ⟨offset_of_target ht, h8, h⟩))
    · next r hne ht => exact .inl ⟨r, by rintro rfl; exact hne rfl, offset_of_target ht, h8, by simpa using h.symm⟩
    · next b k ht =>
      split at h
      · exact .inr (.inl (by simpa using h.symm))
      · next hb => exact .inr (.inr (.inl ⟨by simpa using hb, b, k, lt_nmax_of_target ht, by simpa using h.symm⟩))
    · exact .inr (.inl (by simpa using h.symm))
  · exact .inr (.inl (by simpa using h.symm))

/-- Everything a host write can do while a command runs: the response, and one of a register write and OVERRUN (R88, R89,
R246). -/
theorem hostWrite_of_busy {addr : BitVec 18} {bytes : Nat} {v : Word} {s t : State} (hb : s.status.busy = true)
    (h : hostWrite addr bytes v s = .next t) :
    (∃ r, r ≠ .cmd ∧ addr = BitVec.ofNat 18 r.offset ∧ bytes = 8 ∧ t = writeReg (respond .writeOkay s) r v) ∨
      t = respond .writeError s ∨ (addr = 0x018 ∧ bytes = 8 ∧ t = overrun (respond .writeOkay s)) := by
  rcases hostWrite_eq_next h with h | h | ⟨h, -⟩ | ⟨ha, h8, h⟩
  · exact .inl h
  · exact .inr (.inl h)
  · simp [hb] at h
  · rcases writeCmd_eq_next h with ⟨-, h⟩ | ⟨h, -⟩ | ⟨h, -⟩ | ⟨h, -⟩
    · exact .inr (.inr ⟨ha, h8, h⟩)
    all_goals simp [hb] at h

/-- A host write while a command runs always answers a next state. -/
theorem exists_hostWrite_of_busy (addr : BitVec 18) (bytes : Nat) (v : Word) {s : State} (hb : s.status.busy = true) :
    ∃ t, hostWrite addr bytes v s = .next t := by
  have hc : ∃ t, writeCmd v (respond .writeOkay s) = .next t := by
    unfold writeCmd
    split
    · exact ⟨_, exec_of_busy hb⟩
    · exact ⟨overrun (respond .writeOkay s), by simp [execMalformed, hb]⟩
  unfold hostWrite
  split
  · split
    · exact hc
    · exact ⟨_, rfl⟩
    · exact ⟨_, rfl⟩
    · exact ⟨_, rfl⟩
  · exact ⟨_, rfl⟩

/-! ### One step -/

/-- A completion is the effect of the latched command (R48). -/
theorem complete_eq_next {s t : State} (h : complete s = .next t) :
    ∃ i, decode s.latch.cmd = .ok i ∧ runCommand i s = .next t := by
  unfold complete at h
  split at h
  · next i hi => exact ⟨i, hi, h⟩
  · cases h

/-- A transaction of a running command is followed by the completion, or is one of those before it (R256). -/
theorem tick_eq_next {s t : State} (h : tick s = .next t) :
    (s.wait ≤ 1 ∧ complete s = .next t) ∨ (2 ≤ s.wait ∧ t = { s with wait := s.wait - 1 }) := by
  unfold tick at h
  split at h
  · next hw => exact .inl ⟨hw, h⟩
  · next hw => exact .inr ⟨by omega, by simpa using h.symm⟩

/-- Everything a step can do when it answers a next state (R81, R256, R272, R281, R282). -/
theorem step_eq_next {s t : State} (h : step s = .next t) :
    (s.bus = [] ∧ s.status.busy = false ∧ t = s) ∨
    (s.bus = [] ∧ s.status.busy = true ∧ complete s = .next t) ∨
    (∃ rest, s.bus = .reset :: rest ∧ t = resetBlock { s with bus := rest }) ∨
    (∃ a n rest, s.bus = .read a n :: rest ∧ s.status.busy = false ∧ t = hostRead a n { s with bus := rest }) ∨
    (∃ a n rest, s.bus = .read a n :: rest ∧ s.status.busy = true ∧ tick (hostRead a n { s with bus := rest }) = .next t) ∨
    (∃ a n v rest, s.bus = .write a n v :: rest ∧ s.status.busy = false ∧
      hostWrite a n v { s with bus := rest } = .next t) ∨
    (∃ a n v rest u, s.bus = .write a n v :: rest ∧ s.status.busy = true ∧
      hostWrite a n v { s with bus := rest } = .next u ∧ tick u = .next t) := by
  unfold step at h
  split at h
  · next hn =>
    unfold quiet at h
    split at h
    · next hb => exact .inr (.inl ⟨hn, hb, h⟩)
    · next hb => exact .inl ⟨hn, by simpa using hb, by simpa using h.symm⟩
  · next e rest he =>
    cases e with
    | reset => exact .inr (.inr (.inl ⟨rest, he, by simpa [serve] using h.symm⟩))
    | read a n =>
      simp only [serve, afterTransaction] at h
      split at h
      · next hb => exact .inr (.inr (.inr (.inr (.inl ⟨a, n, rest, he, hb, h⟩))))
      · next hb => exact .inr (.inr (.inr (.inl ⟨a, n, rest, he, by simpa using hb, by simpa using h.symm⟩)))
    | write a n v =>
      simp only [serve, afterTransaction] at h
      split at h
      · next hb =>
        obtain ⟨u, hu, h⟩ := andThen_eq_next.1 h
        exact .inr (.inr (.inr (.inr (.inr (.inr ⟨a, n, v, rest, u, he, hb, hu, h⟩)))))
      · next hb => exact .inr (.inr (.inr (.inr (.inr (.inl ⟨a, n, v, rest, he, by simpa using hb, h⟩)))))

end Sys2Proof.Machine
end

