-- ==== Sys2Proof/Tests/Slice0.lean ====
section
/-! SUPPORT. The model's own tests. Expected values are the spec's: the words of spec/30_encoding.md R127 and the vectors of
spec/95_test_vectors.md, each cited by its label. Below them, for each statement with hypotheses, a witness that meets them. -/

namespace Sys2Proof.Tests

open Sys2Proof Sys2Proof.Machine

set_option Elab.async false

/-! ### Helpers -/

/-- The reset state of a build, with LEN written. -/
def built (c : Config) (n : Nat) : State := { State.resetWith c with len := BitVec.ofNat 32 n }

/-- The reset state with LEN written. -/
def idle (n : Nat) : State := built .reference n

/-- A state with the first words of a bank written. -/
def withBank (b : Bank) (ws : List Word) (s : State) : State := { s with mem := writeRun s.mem b 0 ws }

/-- A state with the two frequencies written. -/
def withHz (det fs : Word) (s : State) : State := { s with detectHz := det, sampleHz := fs }

/-- A state in which a host write of `v` to CMD is pending. -/
def writing (v : Word) (s : State) : State := { s with bus := [.write cmdAddr 8 v] }

/-- Whether an outcome is a next state. -/
def isNext (o : Host.Outcome State Fault Refusal) : Bool :=
  match o with
  | .next _ => true
  | .fault _ => false
  | .refused _ => false

/-- The next state of an outcome; the reset state where there is none. -/
def after (o : Host.Outcome State Fault Refusal) : State :=
  match o with
  | .next t => t
  | .fault _ => State.reset
  | .refused _ => State.reset

theorem eq_next_of_isNext {o : Host.Outcome State Fault Refusal} (h : isNext o = true) : o = .next (after o) := by
  cases o with
  | next t => rfl
  | fault e => exact absurd h Bool.false_ne_true
  | refused r => exact absurd h Bool.false_ne_true

/-- The first words of a bank. -/
def reads (t : State) (b : Bank) (n : Nat) : List (Option Word) := (List.range n).map (bankWord? t.mem b)

/-- What one step after a host write of `v` to CMD leaves. -/
def ran (v : Word) (s : State) : State := after (step (writing v s))

/-- STATUS after a host write of `v` to CMD. -/
def statusAfter (v : Word) (s : State) : Word := (ran v s).status.word

/-- A running command: HANN C of length 2 whose completion is five host transactions away. -/
def hannRunning : State := after (exec (.hann .C) { idle 2 with latency := [5] })

/-- A state with one event pending. -/
def pending (e : HostEvent) (s : State) : State := { s with bus := [e] }

/-- A state with the interrupt enabled and the given STATUS. -/
def flagged (st : Status) (s : State) : State := { s with status := st, doneIe := true }

/-- The interrupt line before a step and after it. -/
def irqAround (s : State) : Bool × Bool := (irq s, irq (after (step s)))

/-- STATUS with DONE, with OVF and OVERRUN, and of a running command. -/
def doneStatus : Status := ⟨false, true, .none, false, false⟩
def stickyStatus : Status := ⟨false, false, .none, true, true⟩
def busyStatus : Status := ⟨true, false, .none, false, false⟩

/-- 1.0 to 4.0. -/
def oneToFour : List Word := [0x3FF0000000000000, 0x4000000000000000, 0x4008000000000000, 0x4010000000000000]

/-- `base` of spec/95 2.7. -/
def base : List Word :=
  [0x3FE0000000000000, 0x3FD0000000000000, 0, 0xBFD0000000000000, 0xBFE0000000000000, 0xBFD0000000000000, 0,
    0x3FD0000000000000]

/-- G1's start state: `base` in bank A, 1000 Hz of 8000 Hz. -/
def goertzelReady : State := withBank .A base (withHz 0x408F400000000000 0x40BF400000000000 (idle 8))

/-- G1's start state in a build with the other form of the feedforward multiply. -/
def goertzelPairReady : State := { goertzelReady with config := { Config.reference with gzOutForm := .pair } }

/-- G10's start state: a delay line that overflows. -/
def overflowReady : State :=
  withBank .A (List.replicate 4 0x3FF0000000000000)
    (withHz 0 0x40AF400000000000 (built { Config.reference with gzWQn := 30 } 4))

/-! ### Well-formedness -/

theorem test_equal_rails_are_ill_formed :
    Instr.wellFormed (.fft .A .A) = false ∧ Instr.wellFormed (.fft .C .C) = false
      ∧ Instr.wellFormed (.ifft .B .B) = false := by decide

theorem test_equal_operands_elsewhere_are_well_formed :
    Instr.wellFormed (.fft .A .B) = true ∧ Instr.wellFormed (.filter .A .A) = true
      ∧ Instr.wellFormed (.magpwr .B .B .B) = true := by decide

/-! ### Decoding: words written out field by field, RES then BC, BB, BA, OP (R120 to R127) -/

theorem test_decode_fft : decode 0b00_01_00_0001 = .ok (.fft .A .B) := by decide
theorem test_decode_ifft : decode 0b00_00_10_0010 = .ok (.ifft .C .A) := by decide
theorem test_decode_dct : decode 0b00_00_10_0011 = .ok (.dct .C) := by decide
theorem test_decode_hann : decode 0b00_00_01_0100 = .ok (.hann .B) := by decide
theorem test_decode_filter : decode 0b00_10_00_0101 = .ok (.filter .A .C) := by decide
theorem test_decode_magpwr : decode 0b10_00_01_0110 = .ok (.magpwr .B .A .C) := by decide
theorem test_decode_goertzel : decode 0b00_00_01_0111 = .ok (.goertzel .B) := by decide

theorem test_decode_rejects :
    decode 0b00_00_00_1000 = .error .reservedOp ∧ decode 0b00_01_11_0001 = .error .reservedBank
      ∧ decode 0b01_01_00_0001 = .error .unusedField ∧ decode 0b11_00_00_0110 = .error .reservedBank
      ∧ decode 0x8000000000000003 = .error .reservedBits := by decide

theorem test_decode_bytes :
    decodeBytes [0x46, 0x02, 0, 0, 0, 0, 0, 0] = .ok (.magpwr .A .B .C)
      ∧ decodeBytes [0x41, 0, 0, 0, 0, 0, 0] = .error .notOneWord := by decide

theorem test_decode_table_words :
    decodeTableWord 64 0x41 = some (.fft .A .B) ∧ decodeTableWord 64 0x1 = some (.fft .A .A)
      ∧ decodeTableWord 64 0x7 = some (.goertzel .A) ∧ decodeTableWord 64 0x0 = none := by decide

/-! ### One command each -/

/-- F1. -/
theorem test_fft_four :
    reads (ran 0x41 (withBank .B [0, 0, 0, 0] (withBank .A oneToFour (idle 4)))) .A 4
        = [0x4024000000000000, 0xC000000000000000, 0xC000000000000000, 0xBFFFFFFFFFFFFFFF].map some ∧
      reads (ran 0x41 (withBank .B [0, 0, 0, 0] (withBank .A oneToFour (idle 4)))) .B 4
        = [0, 0x4000000000000000, 0, 0xC000000000000000].map some := by decide +kernel

/-- F5: the signs of zeros. -/
theorem test_fft_signed_zeros :
    reads (ran 0x41 (withBank .B [0x8000000000000000, 0x8000000000000000]
        (withBank .A [0x8000000000000000, 0x8000000000000000] (idle 2)))) .A 2 = [0, 0x8000000000000000].map some ∧
      reads (ran 0x41 (withBank .B [0x8000000000000000, 0x8000000000000000]
        (withBank .A [0x8000000000000000, 0x8000000000000000] (idle 2)))) .B 2 = [0x8000000000000000, 0].map some := by
  decide +kernel

/-- I5. -/
theorem test_ifft_reverses :
    reads (ran 0x42 (withBank .B [0, 0x4000000000000000, 0, 0xC000000000000000]
        (withBank .A [0x4024000000000000, 0xC000000000000000, 0xC000000000000000, 0xBFFFFFFFFFFFFFFF] (idle 4)))) .A 4
        = [0x3FF0000000000000, 0x4010000000000000, 0x4008000000000000, 0x4000000000000000].map some ∧
      reads (ran 0x42 (withBank .B [0, 0x4000000000000000, 0, 0xC000000000000000]
        (withBank .A [0x4024000000000000, 0xC000000000000000, 0xC000000000000000, 0xBFFFFFFFFFFFFFFF] (idle 4)))) .B 4
        = [0, 0x3CA0D313198A2E04, 0, 0xBCA0D313198A2E04].map some := by decide +kernel

/-- I4: a NaN becomes the canonical one at length 1. -/
theorem test_ifft_nan :
    reads (ran 0x42 (withBank .B [0] (withBank .A [0x7FF0000000000001] (idle 1)))) .A 1 = [some 0x7FF8000000000000] := by
  decide +kernel

/-- D1. -/
theorem test_dct_four :
    reads (ran 0x03 (withBank .A oneToFour (idle 4))) .A 4
      = [0x4034000000000000, 0xC0193C0D303BBF20, 0, 0xBFDCB1A0AB4DC340].map some := by decide +kernel

/-- S4c. -/
theorem test_dct_constant :
    reads (ran 0x03 (withBank .A (List.replicate 8 0x4008000000000000) (idle 8))) .A 8
      = (0x4048000000000000 :: List.replicate 7 0).map some := by decide +kernel

/-- H4. -/
theorem test_hann_five :
    reads (ran 0x24 (idle 5)) .C 6
      = [some 0, some 0x3FDFFFFFFFFFFFFF, some 0x3FF0000000000000, some 0x3FE0000000000001, some 0, none] := by
  decide +kernel

/-- H3: an even window, not symmetric bit for bit. -/
theorem test_hann_four :
    reads (ran 0x24 (idle 4)) .C 4 = [0, 0x3FE7FFFFFFFFFFFF, 0x3FE8000000000002, 0].map some := by decide +kernel

/-- L1. -/
theorem test_filter_three :
    reads (ran 0x85 (withBank .C [0x3FE0000000000000, 0x3FE0000000000000, 0xC010000000000000]
        (withBank .A [0x3FF0000000000000, 0xC000000000000000, 0x3FE0000000000000] (idle 3)))) .A 3
      = [0x3FE0000000000000, 0xBFF0000000000000, 0xC000000000000000].map some := by decide +kernel

/-- L3: zero times infinity. -/
theorem test_filter_zero_times_infinity :
    reads (ran 0x85 (withBank .C [0x7FF0000000000000] (withBank .A [0] (idle 1)))) .A 1 = [some 0x7FF8000000000000] := by
  decide +kernel

/-- M1. -/
theorem test_magpwr_two :
    reads (ran 0x246 (withBank .B [0x4010000000000000, 0] (withBank .A [0x4008000000000000, 0] (idle 2)))) .C 2
        = [0x4039000000000000, 0].map some ∧
      (ran 0x246 (withBank .B [0x4010000000000000, 0] (withBank .A [0x4008000000000000, 0] (idle 2)))).pwr
        = 0x400C48C6001F0B5F := by decide +kernel

/-- M4: the output on the real input. -/
theorem test_magpwr_aliased :
    reads (ran 0x046 (withBank .B [0x4010000000000000, 0] (withBank .A [0x4008000000000000, 0] (idle 2)))) .A 2
      = [0x4039000000000000, 0].map some := by decide +kernel

/-- G1. -/
theorem test_goertzel_base :
    (ran 0x07 goertzelReady).gz.mag = 1748 ∧ (ran 0x07 goertzelReady).gz.yWord = 0x6D4 ∧
      (ran 0x07 goertzelReady).gz.coefWord = 0x005A82FA57E05A82 ∧ (ran 0x07 goertzelReady).status.word = 0x2 := by
  decide +kernel

/-- G10: the delay line wraps at `GZ_W_QN = 30`. -/
theorem test_goertzel_overflows :
    (ran 0x07 overflowReady).gz.yWord = 0x00000000FFFFE001 ∧ (ran 0x07 overflowReady).status.word = 0x102 := by
  decide +kernel

/-! ### Issue -/

/-- X1, X2, X3, X5, X8, X9, X11: the four codes and their order. -/
theorem test_rejections :
    statusAfter 0x41 (idle 3) = 0x32 ∧ statusAfter 0x01 (idle 3) = 0x22 ∧ statusAfter 0x441 (idle 3) = 0x12 ∧
      statusAfter 0x03 (idle 1) = 0x32 ∧ statusAfter 0x41 (idle 2048) = 0x32 ∧
      statusAfter 0x07 (withHz 0x408F400000000000 0 (idle 8)) = 0x42 ∧
      statusAfter 0x07 (withHz 0x7FEAB36D48E1ACF0 0x000730D67819E8D2 (idle 8)) = 0x42 := by decide +kernel

/-- X16: a CMD write while a command runs. -/
theorem test_overrun : hannRunning.status.word = 0x1 ∧ statusAfter 0x0 hannRunning = 0x201 := by decide +kernel

/-- X14: a rejection keeps OVF. -/
theorem test_rejection_keeps_overflow :
    statusAfter 0x41 { idle 3 with status := ⟨false, true, .none, true, false⟩ } = 0x132 := by decide +kernel

/-- From reset, with no length set, the table's first word is rejected; the step runs it all the same. -/
theorem test_first_word_after_reset :
    isNext (step (State.reset.withFetchWord 64 0x1)) = true ∧
      (after (step (State.reset.withFetchWord 64 0x1))).status.word = 0x22 := by decide +kernel

/-! ### The bus -/

/-- P1's first reads. -/
theorem test_identity_registers :
    readReg State.reset .id = 0x0000000746465442 ∧ readReg State.reset .config = 0x00000000000000FA ∧
      readReg State.reset .eps = 0x3D719799812DEA11 := by decide +kernel

/-- X17 and X18. -/
theorem test_bus_errors :
    (hostRead 0x10000 8 hannRunning).response = some (.readError 0) ∧
      (hostRead 0x20 8 hannRunning).response = some (.readOkay 1) ∧
      (hostRead 0x068 8 State.reset).response = some (.readError 0) ∧
      (hostRead 0x004 8 State.reset).response = some (.readError 0) ∧
      (hostRead 0x12000 8 State.reset).response = some (.readError 0) := by decide +kernel

/-! ### Numerics -/

/-- R178's worked entry: the ROM at stage 3. -/
theorem test_twiddle_rom : twRom .reference 3 = (0x3FE6A09E667F3BCD, 0xBFE6A09E667F3BCC) := by decide +kernel

/-- spec/95 2.1: the permutation of eight samples. -/
theorem test_bit_reversal : (List.range 8).map (bitRev 3) = [0, 4, 2, 6, 1, 5, 3, 7] := by decide

/-! ### Witnesses: each meets all the hypotheses of the statement it is named after -/

theorem witness_MalformedWordsAreRejected : malformed 0x441 = true ∧ State.reset.status.busy = false := by decide

/-- A command word, a read and a write, each while idle, while the completion is due, and while it is not. -/
theorem witness_StepRunsTheDecodedCommand :
    (writing 0x41 (idle 4)).bus = .write 0x018 8 0x41 :: [] ∧ decode 0x41 = .ok (.fft .A .B) ∧
      (writing 0x41 (idle 4)).status.busy = false ∧ (writing 0x41 hannRunning).bus = .write 0x018 8 0x41 :: [] ∧
      (writing 0x41 hannRunning).status.busy = true ∧ 2 ≤ (writing 0x41 hannRunning).wait ∧
      ({ hannRunning with wait := 1 }.status.busy = true ∧ { hannRunning with wait := 1 }.wait ≤ 1) ∧
      2 ≤ { hannRunning with wait := 2 }.wait ∧
      (pending (.read 0x10000 8) hannRunning).bus = .read 0x10000 8 :: [] ∧
      (pending (.write 0x10000 8 1) hannRunning).bus = .write 0x10000 8 1 :: [] := by decide +kernel

theorem witness_QuietBlockWaitsOrCompletes :
    State.reset.bus = [] ∧ State.reset.status.busy = false ∧ hannRunning.bus = [] ∧ hannRunning.status.busy = true := by
  decide +kernel

theorem not_acceptedLength {c : Config} {i : Instr} {n : Nat} (h : lenOk c i n = false) : ¬ acceptedLength c i n := by
  rw [← lenOk_iff, h]; decide

theorem not_badFrequencies {n : Nat} {det fs : Word} (h : argOk (.goertzel .A) n det fs = true) :
    ¬ badFrequencies n det fs := by
  rw [← argOk_goertzel_eq_false_iff (ra := .A), h]; decide

/-- One word for each check, an equal pair of rails with a bad length, and both ends of the lengths. -/
theorem witness_ChecksRunInPriorityOrder :
    (idle 3).status.busy = false ∧ malformed 0x441 = true ∧
      (decode 0x01 = .ok (.fft .A .A) ∧ Instr.wellFormed (.fft .A .A) = false) ∧
      (decode 0x41 = .ok (.fft .A .B) ∧ Instr.wellFormed (.fft .A .B) = true ∧
        ¬ acceptedLength (idle 3).config (.fft .A .B) (idle 3).len.toNat ∧
        ¬ acceptedLength (idle 0).config (.fft .A .B) (idle 0).len.toNat ∧
        ¬ acceptedLength (idle 2048).config (.fft .A .B) (idle 2048).len.toNat) ∧
      (decode 0x07 = .ok (.goertzel .A) ∧ Instr.wellFormed (.goertzel .A) = true ∧
        acceptedLength (idle 1024).config (.goertzel .A) (idle 1024).len.toNat ∧
        badFrequencies (idle 1024).len.toNat (idle 1024).detectHz (idle 1024).sampleHz) :=
  ⟨rfl, by decide, ⟨by decide, rfl⟩,
    ⟨by decide, rfl, not_acceptedLength (by decide), not_acceptedLength (by decide), not_acceptedLength (by decide)⟩,
    by decide, rfl, lenOk_iff.1 (by decide), argOk_goertzel_eq_false_iff (ra := .A).1 (by decide +kernel)⟩

theorem witness_EqualRailsAreRejected :
    (idle 4).status.busy = false ∧ ∀ r, Instr.magpwr .A .A .A ≠ .fft r r ∧ Instr.magpwr .A .A .A ≠ .ifft r r :=
  ⟨rfl, by intro r; cases r <;> decide⟩

/-- Both ends of every row of R252's table, and the lengths just outside. -/
theorem witness_IllegalLengthsAreRejected :
    (idle 0).status.busy = false ∧ Instr.wellFormed (.hann .A) = true ∧
      ¬ acceptedLength .reference (.fft .A .B) 0 ∧ acceptedLength .reference (.fft .A .B) 1 ∧
      acceptedLength .reference (.fft .A .B) 1024 ∧ ¬ acceptedLength .reference (.ifft .A .B) 3 ∧
      ¬ acceptedLength .reference (.dct .A) 1 ∧ acceptedLength .reference (.dct .A) 2 ∧
      ¬ acceptedLength .reference (.hann .A) 1 ∧ acceptedLength .reference (.hann .A) 2 ∧
      acceptedLength .reference (.hann .A) 1024 ∧ ¬ acceptedLength .reference (.filter .A .B) 1025 ∧
      acceptedLength .reference (.magpwr .A .B .C) 1 ∧ ¬ acceptedLength .reference (.goertzel .A) 0 :=
  ⟨rfl, rfl, not_acceptedLength (by decide), lenOk_iff.1 (by decide), lenOk_iff.1 (by decide),
    not_acceptedLength (by decide), not_acceptedLength (by decide), lenOk_iff.1 (by decide),
    not_acceptedLength (by decide), lenOk_iff.1 (by decide), lenOk_iff.1 (by decide), not_acceptedLength (by decide),
    lenOk_iff.1 (by decide), not_acceptedLength (by decide)⟩

/-- Good frequencies, and one bad pair for each reason R253 names. -/
theorem witness_BadFrequenciesAreRejected :
    goertzelReady.status.busy = false ∧ acceptedLength goertzelReady.config (.goertzel .A) goertzelReady.len.toNat ∧
      ¬ badFrequencies goertzelReady.len.toNat goertzelReady.detectHz goertzelReady.sampleHz ∧
      badFrequencies 8 0x408F400000000000 0x7FF0000000000000 ∧ badFrequencies 8 0x408F400000000000 0xC08F400000000000 ∧
      badFrequencies 8 0x408F400000000000 0x8000000000000000 ∧ badFrequencies 8 0x7FF8000000000000 0x40BF400000000000 ∧
      badFrequencies 8 0x7FEAB36D48E1ACF0 0x000730D67819E8D2 ∧ ∀ ra, Instr.hann .A ≠ .goertzel ra :=
  ⟨by decide +kernel, lenOk_iff.1 (by decide +kernel), not_badFrequencies (by decide +kernel),
    argOk_goertzel_eq_false_iff (ra := .A).1 (by decide +kernel), argOk_goertzel_eq_false_iff (ra := .A).1 (by decide +kernel),
    argOk_goertzel_eq_false_iff (ra := .A).1 (by decide +kernel), argOk_goertzel_eq_false_iff (ra := .A).1 (by decide +kernel),
    argOk_goertzel_eq_false_iff (ra := .A).1 (by decide +kernel), by intro ra; cases ra <;> decide⟩

theorem witness_AcceptanceLatchesTheOperands :
    { idle 2 with latency := [1] }.status.busy = false ∧ issueCheck (.hann .C) { idle 2 with latency := [1] } = .none ∧
      { idle 2 with latency := [1] }.latency = (0 + 1) :: [] := by decide +kernel

theorem witness_CommandWhileBusyIsDropped : hannRunning.status.busy = true := by decide +kernel

/-- A dropped command, a rejected one, and one that stays running; then steps at which the line rises: a completion, a rejection
and the setting of DONE_IE; and steps at which it falls: the clearing of DONE, the clearing of DONE_IE, an acceptance and a
reset. -/
theorem witness_InterruptLineFollowsDone :
    (hannRunning.status.busy = true ∧ isNext (exec (.hann .A) hannRunning) = true) ∧
      ((idle 0).status.busy = false ∧ isNext (exec (.hann .A) (idle 0)) = true ∧
        (after (exec (.hann .A) (idle 0))).status.busy = false) ∧
      ((idle 2).status.busy = false ∧ hannRunning.status.busy = true ∧
        isNext (exec (.hann .C) { idle 2 with latency := [5] }) = true) ∧
      (isNext (step { hannRunning with doneIe := true }) = true ∧
        irqAround { hannRunning with doneIe := true } = (false, true) ∧
        (after (step { hannRunning with doneIe := true })).status.busy = false) ∧
      irqAround (writing 0 (flagged .reset (idle 4))) = (false, true) ∧
      irqAround (pending (.write 0x028 8 1) { idle 4 with status := doneStatus }) = (false, true) ∧
      irqAround (pending (.write 0x020 8 2) (flagged doneStatus (idle 4))) = (true, false) ∧
      irqAround (pending (.write 0x028 8 0) (flagged doneStatus (idle 4))) = (true, false) ∧
      irqAround (writing 0x24 (flagged doneStatus { idle 4 with latency := [5] })) = (true, false) ∧
      irqAround (pending .reset (flagged doneStatus (idle 4))) = (true, false) ∧
      isNext (step (writing 0x24 (flagged doneStatus { idle 4 with latency := [5] }))) = true := by decide +kernel

/-- Two commands with the flags set; then steps that clear each flag and steps that set each: OVF at a completion in the step of
the issue and at one that comes later. -/
theorem witness_StickyFlagsAreKept :
    (isNext (exec (.goertzel .A) { goertzelReady with status := stickyStatus }) = true ∧
      isNext (exec (.hann .A) (idle 2)) = true ∧ ∀ ra, Instr.hann .A ≠ .goertzel ra) ∧
      (pending (.write 0x020 8 0x300) (flagged stickyStatus (idle 4))).bus.head? ≠ some .reset ∧
      isNext (step (pending (.write 0x020 8 0x300) (flagged stickyStatus (idle 4)))) = true ∧
      (after (step (pending (.write 0x020 8 0x300) (flagged stickyStatus (idle 4))))).status = .reset ∧
      (overflowReady.status.ovf = false ∧ isNext (step (writing 0x07 overflowReady)) = true ∧
        (ran 0x07 overflowReady).status.ovf = true) ∧
      ((after (exec (.goertzel .A) { overflowReady with latency := [1] })).status = busyStatus ∧
        isNext (step (after (exec (.goertzel .A) { overflowReady with latency := [1] }))) = true ∧
        (after (step (after (exec (.goertzel .A) { overflowReady with latency := [1] })))).status.ovf = true) ∧
      (hannRunning.status = busyStatus ∧ isNext (step (writing 0 hannRunning)) = true ∧
        (ran 0 hannRunning).status.overrun = true) :=
  ⟨⟨by decide +kernel, by decide +kernel, by intro ra; cases ra <;> decide⟩, by decide +kernel, by decide +kernel,
    by decide +kernel, by decide +kernel, by decide +kernel, by decide +kernel⟩

/-- A step that changes PWR, and one that changes the three GOERTZEL registers. -/
theorem witness_ResultRegistersHaveOneWriter :
    ((writing 0x246 (withBank .B [0] (withBank .A [0x4000000000000000] (idle 1)))).bus.head? ≠ some .reset ∧
      isNext (step (writing 0x246 (withBank .B [0] (withBank .A [0x4000000000000000] (idle 1))))) = true ∧
      (ran 0x246 (withBank .B [0] (withBank .A [0x4000000000000000] (idle 1)))).pwr ≠ 0) ∧
    ((writing 0x07 goertzelReady).bus.head? ≠ some .reset ∧ isNext (step (writing 0x07 goertzelReady)) = true ∧
      (ran 0x07 goertzelReady).gz ≠ goertzelReady.gz) := by decide +kernel

/-- Lengths 1 and 4. -/
theorem witness_FftReplacesBothRails :
    [((f64One : Word), (0 : Word))].length = 2 ^ 0 ∧ (oneToFour.zip oneToFour).length = 2 ^ 2 ∧
      oneToFour.length = oneToFour.length ∧ Config.valid .reference = true ∧ (idle 1).status.busy = false ∧ (idle 1).latency.headD 0 = 0 ∧ Bank.A ≠ .B ∧
      acceptedLength .reference (.fft .A .B) (idle 1).len.toNat ∧ [f64One].length = (idle 1).len.toNat ∧
      bankHolds (withBank .B [0] (withBank .A [f64One] (idle 1))).mem .A [f64One] ∧
      bankHolds (withBank .B [0] (withBank .A [f64One] (idle 1))).mem .B [0] ∧
      acceptedLength .reference (.fft .A .B) (idle 4).len.toNat ∧ oneToFour.length = (idle 4).len.toNat ∧
      bankHolds (withBank .B oneToFour (withBank .A oneToFour (idle 4))).mem .A oneToFour ∧
      bankHolds (withBank .B oneToFour (withBank .A oneToFour (idle 4))).mem .B oneToFour :=
  ⟨rfl, rfl, rfl, by decide, rfl, rfl, by decide, lenOk_iff.1 (by decide), rfl, by decide +kernel, by decide +kernel,
    lenOk_iff.1 (by decide), rfl, by decide +kernel, by decide +kernel⟩

theorem inputsWritten_four {i : Instr} (h : ∀ b, b ∈ inputBanks i → b = .A ∨ b = .B) :
    inputsWritten i (idle 4).len.toNat (withBank .B oneToFour (withBank .A oneToFour (idle 4))).mem := by
  intro b hb
  rcases h b hb with rfl | rfl <;> decide +kernel

theorem witness_IfftIsFftDividedByLength :
    Config.valid .reference = true ∧ (idle 4).status.busy = false ∧ (idle 4).latency.headD 0 = 0 ∧ Bank.A ≠ .B ∧
      acceptedLength .reference (.ifft .A .B) (idle 4).len.toNat ∧
      inputsWritten (.ifft .A .B) (idle 4).len.toNat (withBank .B oneToFour (withBank .A oneToFour (idle 4))).mem :=
  ⟨by decide, rfl, rfl, by decide, lenOk_iff.1 (by decide), inputsWritten_four (by decide)⟩

theorem witness_DctReplacesBufferByCoefficients :
    Config.valid .reference = true ∧ (idle 4).status.busy = false ∧ (idle 4).latency.headD 0 = 0 ∧
      acceptedLength .reference (.dct .A) (idle 4).len.toNat ∧ oneToFour.length = (idle 4).len.toNat ∧
      bankHolds (withBank .A oneToFour (idle 4)).mem .A oneToFour :=
  ⟨by decide, rfl, rfl, lenOk_iff.1 (by decide), rfl, by decide +kernel⟩

/-- The shortest and the longest window. -/
theorem witness_HannFillsTheWindow :
    (idle 2).status.busy = false ∧ (idle 2).latency.headD 0 = 0 ∧
      acceptedLength (idle 2).config (.hann .B) (idle 2).len.toNat ∧
      acceptedLength (idle 1024).config (.hann .B) (idle 1024).len.toNat :=
  ⟨rfl, rfl, lenOk_iff.1 (by decide), lenOk_iff.1 (by decide)⟩

/-- Two banks, and one bank for both operands. -/
theorem witness_FilterMultipliesWordByWord :
    (idle 4).status.busy = false ∧ (idle 4).latency.headD 0 = 0 ∧
      acceptedLength .reference (.filter .A .B) (idle 4).len.toNat ∧
      acceptedLength .reference (.filter .A .A) (idle 4).len.toNat ∧ oneToFour.length = (idle 4).len.toNat ∧
      bankHolds (withBank .B oneToFour (withBank .A oneToFour (idle 4))).mem .A oneToFour ∧
      bankHolds (withBank .B oneToFour (withBank .A oneToFour (idle 4))).mem .B oneToFour :=
  ⟨rfl, rfl, lenOk_iff.1 (by decide), lenOk_iff.1 (by decide), rfl, by decide +kernel, by decide +kernel⟩

theorem witness_MagpwrWritesMagnitudesAndPower :
    (idle 4).status.busy = false ∧ (idle 4).latency.headD 0 = 0 ∧
      acceptedLength .reference (.magpwr .A .B .A) (idle 4).len.toNat ∧ oneToFour.length = (idle 4).len.toNat ∧
      bankHolds (withBank .B oneToFour (withBank .A oneToFour (idle 4))).mem .A oneToFour ∧
      bankHolds (withBank .B oneToFour (withBank .A oneToFour (idle 4))).mem .B oneToFour :=
  ⟨rfl, rfl, lenOk_iff.1 (by decide), rfl, by decide +kernel, by decide +kernel⟩

/-- Both forms of the feedforward multiply. -/
theorem witness_GoertzelWritesItsResults :
    goertzelReady.config.valid = true ∧ goertzelReady.status.busy = false ∧ goertzelReady.latency.headD 0 = 0 ∧
      acceptedLength goertzelReady.config (.goertzel .A) goertzelReady.len.toNat ∧
      ¬ badFrequencies goertzelReady.len.toNat goertzelReady.detectHz goertzelReady.sampleHz ∧
      base.length = goertzelReady.len.toNat ∧ bankHolds goertzelReady.mem .A base ∧
      goertzelReady.config.gzOutForm = .bin ∧ goertzelPairReady.config.valid = true ∧
      goertzelPairReady.config.gzOutForm = .pair ∧
      acceptedLength goertzelPairReady.config (.goertzel .A) goertzelPairReady.len.toNat ∧
      ∃ m ang : Word, m = fdiv (fmul (toF64 goertzelReady.len.toNat) goertzelReady.detectHz) goertzelReady.sampleHz ∧
        ang = fdiv (fmul (fmul f64Two pi64) m) (toF64 goertzelReady.len.toNat) :=
  ⟨by decide, by decide +kernel, by decide +kernel, lenOk_iff.1 (by decide +kernel), not_badFrequencies (by decide +kernel),
    by decide +kernel, by decide +kernel, rfl, by decide, rfl, lenOk_iff.1 (by decide +kernel), _, _, rfl, rfl⟩

/-- The last word of the second operand is not written. -/
theorem witness_UnwrittenInputStopsTheCommand :
    (withBank .B [0] (withBank .A [0, 0] (idle 2))).status.busy = false ∧
      (withBank .B [0] (withBank .A [0, 0] (idle 2))).latency.headD 0 = 0 ∧
      issueCheck (.filter .A .B) (withBank .B [0] (withBank .A [0, 0] (idle 2))) = .none ∧
      Bank.B ∈ inputBanks (.filter .A .B) ∧ 1 < (withBank .B [0] (withBank .A [0, 0] (idle 2))).len.toNat ∧
      bankWord? (withBank .B [0] (withBank .A [0, 0] (idle 2))).mem .B 1 = none := by decide +kernel

/-- One transaction, and two. -/
theorem witness_CompletionDelayDoesNotChangeResults :
    (idle 2).status.busy = false ∧ (idle 2).status.ovf = false ∧ issueCheck (.hann .C) (idle 2) = .none ∧
      (∀ e, e ∈ [HostEvent.read 0 8] → e.isTransaction = true) ∧
      isNext (exec (.hann .C) { idle 2 with latency := [0], bus := [.read 0 8] }) = true ∧
      (∀ e, e ∈ [HostEvent.write 0x18 8 0, .read 0x10000 8] → e.isTransaction = true) ∧
      isNext (exec (.hann .C) { idle 2 with latency := [0], bus := [.write 0x18 8 0, .read 0x10000 8] }) = true := by
  decide +kernel

theorem witness_NothingChangesBeforeCompletion :
    (writing 0 hannRunning).status.busy = true ∧ 2 ≤ (writing 0 hannRunning).wait ∧
      (writing 0 hannRunning).bus = .write cmdAddr 8 0 :: [] ∧
      HostEvent.isTransaction (.write cmdAddr 8 0) = true ∧ isNext (step (writing 0 hannRunning)) = true ∧
      2 ≤ { writing 0 hannRunning with wait := 2 }.wait ∧
      isNext (step { writing 0 hannRunning with wait := 2 }) = true := by decide +kernel

/-- The ends of the parameters' ranges. -/
def smallest : Config := ⟨1, 5, false, .bin, 0x0170000000000000, .reference⟩
def largest : Config := ⟨13, 30, true, .pair, 0x7FEFFFFFFFFFFFFF, .other 0⟩

theorem witness_PackedRegisterFields :
    (State.resetWith smallest).config.valid = true ∧ (State.resetWith largest).config.valid = true := by decide

/-- The first and the last word, in the smallest and the largest build; and a word that is written, the first and the last. -/
theorem witness_BankWordsReadBackAsWritten :
    ((built smallest 1).config.valid = true ∧ (built smallest 1).status.busy = false ∧
      0 < (built smallest 1).config.nmax ∧ 1 < (built smallest 1).config.nmax ∧ (built largest 1).config.valid = true ∧
      8191 < (built largest 1).config.nmax) ∧
    bankWord? (withBank .A [5] (idle 4)).mem .A 0 = some 5 ∧ (withBank .A [5] (idle 4)).status.busy = false ∧
      bankWord? (setBankWord [] .C 1023 7) .C 1023 = some 7 ∧ 1023 < (idle 4).config.nmax := by decide +kernel

theorem witness_BankAccessWhileBusyIsRefused :
    hannRunning.status.busy = true ∧ 0x10000 ≤ (0x10000#18).toNat ∧ 0x10000 ≤ (0x3FFFF#18).toNat := by decide +kernel

/-- Each kind of bad access, at the ends of its range. -/
theorem witness_BadAccessesChangeNothing :
    (4 ≠ 8 ∧ (0x1#18).toNat % 8 ≠ 0 ∧ (0x7#18).toNat % 8 ≠ 0) ∧
      (0x68 ≤ (0x68#18).toNat ∧ (0x68#18).toNat < 0x10000) ∧ (0x68 ≤ (0xFFF8#18).toNat ∧ (0xFFF8#18).toNat < 0x10000) ∧
      (0x10000 ≤ (0x12000#18).toNat ∧ 8 * State.reset.config.nmax ≤ (0x12000#18).toNat % 0x10000) ∧
      (0x10000 ≤ (0x3FFF8#18).toNat ∧ 8 * State.reset.config.nmax ≤ (0x3FFF8#18).toNat % 0x10000) := by decide

theorem witness_ResetEndsAnyCommand :
    { hannRunning with bus := [.reset, .read 0 8] }.bus = .reset :: [.read 0 8] := rfl

theorem witness_InvariantHoldsAtReset : smallest.valid = true ∧ largest.valid = true := by decide

/-- The invariant holds of the reset state, and of a state with a command running. -/
theorem blockInv_reset : BlockInv State.reset :=
  ⟨by decide, rfl, rfl, by decide, fun _ => rfl, by decide +kernel, by decide +kernel⟩

theorem blockInv_running : BlockInv hannRunning :=
  ⟨by decide +kernel, by decide +kernel, by decide +kernel, by decide +kernel, by decide +kernel, by decide +kernel,
    by decide +kernel⟩

theorem witness_StepKeepsTheInvariant :
    (BlockInv State.reset ∧ isNext (step State.reset) = true) ∧
      BlockInv hannRunning ∧ isNext (step hannRunning) = true :=
  ⟨⟨blockInv_reset, rfl⟩, blockInv_running, by decide +kernel⟩

theorem witness_AcceptedCommandAlwaysCompletes :
    BlockInv hannRunning ∧ hannRunning.status.busy = true ∧ decode hannRunning.latch.cmd = .ok (.hann .C) ∧
      inputsWritten (.hann .C) hannRunning.latch.len.toNat hannRunning.mem :=
  ⟨blockInv_running, by decide +kernel, by decide +kernel, by intro b hb; exact absurd hb (by decide +revert)⟩

/-- Two states that differ in a hidden register. -/
theorem witness_HiddenStateDecidesNothing :
    hideEngine State.reset = hideEngine { State.reset with engine := { State.reset.engine with acc := 1 } } ∧
      State.reset.engine.acc ≠ { State.reset.engine with acc := 1 }.acc :=
  ⟨rfl, by decide⟩

/-- Finite operands: a nonzero one over a nonzero one and over a zero, a sum that is not zero, and each exact zero. -/
theorem witness_RoundingIsToNearestEven :
    (0 < 1 ∧ overflowUnits * 1 ≤ overflowUnits) ∧ classify f64One = .fin false (2 ^ 1074) ∧
      classify 0xBFF0000000000000 = .fin true (2 ^ 1074) ∧ classify 0 = .fin false 0 ∧
      classify 0x8000000000000000 = .fin true 0 ∧ (2 : Nat) ^ 1074 ≠ 0 ∧
      ((2 ^ 1074 : Nat) : Int) + -((2 ^ 1074 : Nat) : Int) = 0 ∧
      ((2 ^ 1074 : Nat) : Int) + ((2 ^ 1074 : Nat) : Int) ≠ 0 ∧ -((0 : Nat) : Int) + -((0 : Nat) : Int) = 0 :=
  ⟨⟨by decide, by omega⟩, by decide +kernel, by decide +kernel, by decide +kernel, by decide +kernel, by decide +kernel,
    by decide +kernel, by decide +kernel, by decide +kernel⟩

/-- 4.0, and the least positive value. -/
theorem witness_SquareRootIsNearest :
    classify 0x4010000000000000 = .fin false (2 ^ 1076) ∧ 0 < 2 ^ 1076 ∧ classify 0x1 = .fin false 1 := by decide +kernel

/-- Each operation's NaN; then a NaN, both infinities, both zeros and finite values of both signs. -/
theorem witness_EveryNanIsCanonical :
    (classify (fadd 0x7FF0000000000001 0) = .nan ∧ classify (fsub 0x7FF0000000000000 0x7FF0000000000000) = .nan ∧
      classify (fmul 0 0x7FF0000000000000) = .nan ∧ classify (fdiv 0 0) = .nan ∧
      classify (fsqrt 0xBFF0000000000000) = .nan ∧ classify (cos64 .reference 0x7FF0000000000000) = .nan ∧
      classify (sin64 (.other 0) 0xFFF0000000000000) = .nan) ∧
    classify 0x7FF0000000000001 = .nan ∧ classify 0x7FF0000000000000 = .inf false ∧
      classify 0xFFF0000000000000 = .inf true ∧ classify 0 = .fin false 0 ∧ classify 0x8000000000000000 = .fin true 0 ∧
      classify 0x1 = .fin false 1 ∧ classify 0x8000000000000001 = .fin true 1 := by decide +kernel

/-- The largest value that doubles exactly, one above it, and 1.0 divided by the largest power. -/
theorem witness_PowersOfTwoScaleExactly :
    classify 0x7FDFFFFFFFFFFFFF = .fin false ((2 ^ 53 - 1) * 2 ^ 2044) ∧ 2 * ((2 ^ 53 - 1) * 2 ^ 2044) < 2 ^ 2098 ∧
      classify 0x7FE0000000000000 = .fin false (2 ^ 2097) ∧ 2 ^ 2098 ≤ 2 * 2 ^ 2097 ∧
      classify 0x3FF0000000000000 = .fin false (2 ^ 1074) ∧ 2 ^ 1074 % 2 ^ 13 = 0 := by decide +kernel

theorem witness_SmallIntegersConvertExactly :
    (2 ^ 53 : Int).natAbs ≤ 2 ^ 53 ∧ (-2 ^ 53 : Int).natAbs ≤ 2 ^ 53 := by decide

theorem witness_ExactZerosArePositive : classify 0x8000000000000000 = .fin true 0 ∧ classify 0x1 = .fin false 1 := by decide

theorem witness_TrigUnitsAreAdmissible :
    classify 0x3FF0000000000000 = .fin false (2 ^ 1074) ∧ notFinite 0x7FF0000000000000 ∧ notFinite 0x7FF8000000000000 :=
  ⟨by decide +kernel, isFinite_eq_false_iff.1 (by decide), isFinite_eq_false_iff.1 (by decide)⟩

/-- Each class; and finite values: R161's examples 0.5 and the two ties at 15 bits, both ends of the range with the first values
past them at 0 bits. -/
theorem witness_QuantiseSaturates :
    (30 ≤ 30 ∧ classify 0x7FF8000000000000 = .nan ∧ classify 0x7FF0000000000000 = .inf false ∧
      classify 0xFFF0000000000000 = .inf true) ∧
    scaledRounding 0x3FE0000000000000 15 16384 ∧ scaledRounding 0x3EF0000000000000 15 1 ∧
      scaledRounding 0xBEF0000000000000 15 (-1) ∧ scaledRounding 0x41DFFFFFFFC00000 0 (2 ^ 31 - 1) ∧
      scaledRounding 0x41E0000000000000 0 (2 ^ 31) ∧ scaledRounding 0xC1E0000000000000 0 (-(2 ^ 31)) ∧
      scaledRounding 0xC1E0000000200000 0 (-(2 ^ 31) - 1) :=
  ⟨by decide, ⟨false, 2 ^ 1073, by decide +kernel, by decide +kernel⟩, ⟨false, 2 ^ 1058, by decide +kernel, by decide +kernel⟩,
    ⟨true, 2 ^ 1058, by decide +kernel, by decide +kernel⟩,
    ⟨false, (2 ^ 31 - 1) * 2 ^ 1074, by decide +kernel, by decide +kernel⟩,
    ⟨false, 2 ^ 1105, by decide +kernel, by decide +kernel⟩, ⟨true, 2 ^ 1105, by decide +kernel, by decide +kernel⟩,
    ⟨true, (2 ^ 31 + 1) * 2 ^ 1074, by decide +kernel, by decide +kernel⟩⟩

/-- R161's examples. -/
theorem test_quantise :
    quantise 0x3FE0000000000000 15 32 = (16384, false) ∧ quantise 0xBFD0000000000000 15 32 = (-8192, false) ∧
      quantise 0x3FF0000000000000 15 32 = (32768, false) ∧ quantise 0x3F00000000000000 15 32 = (1, false) ∧
      quantise 0x3EF0000000000000 15 32 = (1, false) ∧ quantise 0xBEF0000000000000 15 32 = (-1, false) := by decide +kernel

theorem witness_CoefficientsStayInRange :
    (goertzelCoefs .reference 0).fb = 32767 ∧ (goertzelCoefs { Config.reference with gzCoefWide := true } 0).fb = 32768 ∧
      (goertzelCoefs .reference 0).ffr = -32768 := by decide +kernel

theorem witness_BitReversalReadsBitsBackwards :
    [((0 : Word), (0 : Word))].length = 2 ^ 0 ∧ (List.replicate 8 ((0 : Word), (0 : Word))).length = 2 ^ 3 := by decide

theorem witness_SwapLoopIsThePermutation :
    [((0 : Word), (0 : Word))].length = 2 ^ 0 ∧ (List.replicate 8 ((0 : Word), (0 : Word))).length = 2 ^ 3 := by decide

theorem witness_TwiddlesFollowTheRecurrence : 0 < 4 ∧ 0 + 1 < 4 ∧ 2 + 1 < 4 := by decide

theorem witness_StageDoesEveryButterfly :
    1 ≤ 3 ∧ (List.replicate 16 ((0 : Word), (0 : Word))).length = 2 * 2 ^ 3 ∧ 1 < 2 ∧ 3 < 2 ^ (3 - 1) := by decide

/-- The twiddles of the first three stages are finite. -/
theorem finite_twiddles_three :
    ([1, 2, 3].all fun s => (twiddles .reference s (2 ^ (s - 1))).all fun w => isFinite w.1 && isFinite w.2) = true := by
  decide +kernel

theorem witness_ImpulseHasFlatSpectrum :
    ∀ s, 1 ≤ s → s ≤ 3 → ∀ w, w ∈ twiddles .reference s (2 ^ (s - 1)) → isFinite w.1 = true ∧ isFinite w.2 = true := by
  intro s h1 h2 w hw
  have hs : s ∈ [1, 2, 3] := by simp only [List.mem_cons, List.not_mem_nil, or_false]; omega
  exact Bool.and_eq_true_iff.1 (List.all_eq_true.1 (List.all_eq_true.1 finite_twiddles_three s hs) w hw)

theorem witness_RepackPlacesEverySample : oneToFour.length = 2 * 2 ∧ 0 < 2 ∧ 1 < 2 := by decide

theorem witness_HannStartsAtZero : 2 ≤ 2 ∧ 2 ≤ 8192 ∧ 8192 ≤ 8192 := by decide

theorem witness_PowerIsPositive :
    smallest.valid = true ∧ [f64One, 0].length = [(0 : Word), 0].length ∧ 1 ≤ [f64One, 0].length ∧
      [f64One, 0].length ≤ smallest.nmax ∧ (∀ w, w ∈ [f64One, 0] ∨ w ∈ [(0 : Word), 0] → classify w ≠ .nan) := by
  refine ⟨by decide, by decide, by decide, by decide, fun w h => ?_⟩
  simp only [List.mem_cons, List.not_mem_nil, or_false] at h
  rcases h with (rfl | rfl) | (rfl | rfl) <;> decide

theorem witness_FilterIsTheRecurrence :
    [((5 : Int), false), (0, true)][0]? = some (5, false) ∧ [((5 : Int), false), (0, true)][1]? = some (0, true) := by decide

theorem witness_SilenceHasNoMagnitude : smallest.valid = true ∧ largest.valid = true := by decide

end Sys2Proof.Tests
end

/-! PROOFS. The state family of spec/10_state.md: the invariant of the block, the hidden registers, the sticky flags and the
result registers, the unwritten word, and what single commands, transactions and registers do. -/

namespace Sys2Proof.Machine

open Sys2Proof

/-! ### Registers and host writes -/

/-- The address map has every register at its offset, whatever the build (R84). -/
theorem targetOf_offset (c : Config) (r : Reg) : targetOf c (BitVec.ofNat 18 r.offset).toNat = .reg r := by
  cases r <;> rfl

theorem isWordAccess_offset (r : Reg) : isWordAccess (BitVec.ofNat 18 r.offset) 8 = true := by
  cases r <;> rfl

theorem eq_of_offset_eq {r r' : Reg} (h : BitVec.ofNat 18 r.offset = BitVec.ofNat 18 r'.offset) : r = r' := by
  have ht : Target.reg r = .reg r' := by rw [← targetOf_offset .reference r, h, targetOf_offset]
  injection ht

/-- A read at a register's offset returns the register, busy or idle (R84, R89). -/
theorem hostRead_reg (r : Reg) (s : State) :
    hostRead (BitVec.ofNat 18 r.offset) 8 s = { s with response := some (.readOkay (readReg s r)) } := by
  rw [hostRead, if_pos (isWordAccess_offset r), targetOf_offset]
  rfl

/-- A write at a register's offset writes the register, busy or idle (R85, R89). -/
theorem hostWrite_reg {r : Reg} (hr : r ≠ .cmd) (v : Word) (s : State) :
    hostWrite (BitVec.ofNat 18 r.offset) 8 v s = .next (writeReg (respond .writeOkay s) r v) := by
  cases r with
  | cmd => exact absurd rfl hr
  | _ => rfl

/-- A write at CMD's offset presents its word to the issue logic (R34). -/
theorem hostWrite_cmd (v : Word) (s : State) : hostWrite 0x018 8 v s = writeCmd v (respond .writeOkay s) := rfl

/-- A word written to CMD while a command runs is dropped, well formed or not (R246). -/
theorem writeCmd_of_busy {v : Word} {s : State} (hb : s.status.busy = true) : writeCmd v s = .next (overrun s) := by
  unfold writeCmd
  split
  · exact exec_of_busy hb
  · simp [execMalformed, hb]

theorem writeReg_status_of_ne {r : Reg} (h : r ≠ .status) (v : Word) (s : State) :
    (writeReg s r v).status = s.status := by
  cases r with
  | status => exact absurd rfl h
  | _ => rfl

/-- A register write clears DONE or leaves it (R35). -/
theorem writeReg_done_of_clear {s : State} (r : Reg) (v : Word) (h : s.status.done = false) :
    (writeReg s r v).status.done = false := by
  cases r <;> simp [writeReg, Status.write, h]

/-- A host write while a command runs leaves it running (R245, R246). -/
theorem hostWrite_keeps_busy {a : BitVec 18} {n : Nat} {v : Word} {s t : State} (hb : s.status.busy = true)
    (h : hostWrite a n v s = .next t) : t.status.busy = true := by
  rcases hostWrite_of_busy hb h with ⟨r, -, -, -, rfl⟩ | rfl | ⟨-, -, rfl⟩ <;> simpa using hb

/-- No host write touches the count of transactions still to come while a command runs. -/
theorem hostWrite_keeps_wait {a : BitVec 18} {n : Nat} {v : Word} {s u : State} (hb : s.status.busy = true)
    (h : hostWrite a n v s = .next u) : u.wait = s.wait := by
  rcases hostWrite_of_busy hb h with ⟨r, -, -, -, rfl⟩ | rfl | ⟨-, -, rfl⟩ <;> simp

theorem writeCmd_of_decode {v : Word} {i : Instr} (h : decode v = .ok i) (s : State) : writeCmd v s = exec i s := by
  simp [writeCmd, h]

/-! ### One step as one transaction (R81, R256) -/

theorem step_cons {s : State} {e : HostEvent} {rest : List HostEvent} (h : s.bus = e :: rest) :
    step s = serve e { s with bus := rest } := by
  rw [step, h]

/-- A transaction while idle is the whole step. -/
theorem afterTransaction_idle {busy : Bool} (h : busy = false) (o : Out) : afterTransaction busy o = o := by
  rw [h]
  rfl

/-- A transaction that leaves a next state while a command runs counts towards the completion. -/
theorem afterTransaction_busy {busy : Bool} (h : busy = true) (u : State) :
    afterTransaction busy (.next u) = tick u := by
  rw [h]
  rfl

theorem tick_of_due {s : State} (h : s.wait ≤ 1) : tick s = complete s := if_pos h

theorem tick_of_not_due {s : State} (h : 2 ≤ s.wait) : tick s = .next { s with wait := s.wait - 1 } :=
  if_neg (by omega)

theorem step_read_idle {s : State} {a : BitVec 18} {n : Nat} {rest : List HostEvent} (h : s.bus = .read a n :: rest)
    (hb : s.status.busy = false) : step s = .next (hostRead a n { s with bus := rest }) :=
  (step_cons h).trans (afterTransaction_idle hb _)

theorem step_read_busy {s : State} {a : BitVec 18} {n : Nat} {rest : List HostEvent} (h : s.bus = .read a n :: rest)
    (hb : s.status.busy = true) : step s = tick (hostRead a n { s with bus := rest }) :=
  (step_cons h).trans (afterTransaction_busy hb _)

theorem step_write_idle {s : State} {a : BitVec 18} {n : Nat} {v : Word} {rest : List HostEvent}
    (h : s.bus = .write a n v :: rest) (hb : s.status.busy = false) :
    step s = hostWrite a n v { s with bus := rest } :=
  (step_cons h).trans (afterTransaction_idle hb _)

theorem step_write_busy {s u : State} {a : BitVec 18} {n : Nat} {v : Word} {rest : List HostEvent}
    (h : s.bus = .write a n v :: rest) (hb : s.status.busy = true)
    (hu : hostWrite a n v { s with bus := rest } = .next u) : step s = tick u := by
  rw [step_cons h, serve, hu]
  exact afterTransaction_busy hb u

/-! ### The invariant of the block -/

/-- The invariant of a legal build right after reset (R54). -/
theorem blockInv_resetWith {c : Config} (h : c.valid = true) : BlockInv (State.resetWith c) where
  configValid := h
  memWf := rfl
  memInBanks := rfl
  running hb := absurd hb Bool.false_ne_true
  idle _ := rfl
  scratchRe := List.length_replicate
  scratchIm := List.length_replicate

/-- A reset reaches the invariant whatever was running (R281, R283): what it keeps of the state is no concern of the
invariant but the parameters. -/
theorem blockInv_resetBlock {s : State} (h : s.config.valid = true) : BlockInv (resetBlock s) :=
  let ⟨hv, hw, hb, hr, hi, hre, him⟩ := blockInv_resetWith h
  ⟨hv, hw, hb, hr, hi, hre, him⟩

/-- The invariant reads the parameters, the banks, the latches, the scratch, the wait and STATUS alone. Of STATUS it asks only
that BUSY stays and that a running command's DONE stays clear and its ERR NONE. -/
theorem BlockInv.congr {s t : State} (h : BlockInv s) (hc : t.config = s.config) (hm : t.mem = s.mem)
    (hl : t.latch = s.latch) (he : t.engine = s.engine) (hw : t.wait = s.wait) (hb : t.status.busy = s.status.busy)
    (hst : s.status.busy = true → (s.status.done = false → t.status.done = false) ∧ t.status.err = s.status.err) :
    BlockInv t where
  configValid := hc ▸ h.configValid
  memWf := hm ▸ h.memWf
  memInBanks := hc ▸ hm ▸ h.memInBanks
  running htb := by
    have hsb : s.status.busy = true := hb ▸ htb
    obtain ⟨hlegal, hdone, herr, hwait⟩ := h.running hsb
    obtain ⟨hdone', herr'⟩ := hst hsb
    exact ⟨by simpa only [latchedLegal, hl, hc] using hlegal, hdone' hdone, herr'.trans herr, hw ▸ hwait⟩
  idle htb := hw.trans (h.idle (hb ▸ htb))
  scratchRe := by rw [he, hc]; exact h.scratchRe
  scratchIm := by rw [he, hc]; exact h.scratchIm

/-- Taking an event from the bus is no concern of the invariant. -/
theorem BlockInv.withBus {s : State} (h : BlockInv s) (rest : List HostEvent) : BlockInv { s with bus := rest } :=
  h.congr rfl rfl rfl rfl rfl rfl (fun _ => ⟨id, rfl⟩)

theorem BlockInv.respond {s : State} (h : BlockInv s) (r : BusResponse) : BlockInv (respond r s) :=
  h.congr rfl rfl rfl rfl rfl rfl (fun _ => ⟨id, rfl⟩)

theorem BlockInv.hostRead {s : State} (h : BlockInv s) (a : BitVec 18) (n : Nat) : BlockInv (hostRead a n s) := by
  obtain ⟨r, hr⟩ := hostRead_eq_respond a n s
  exact hr ▸ h.respond r

theorem BlockInv.overrun {s : State} (h : BlockInv s) : BlockInv (overrun s) :=
  h.congr rfl rfl rfl rfl rfl rfl (fun _ => ⟨id, rfl⟩)

theorem BlockInv.writeReg {s : State} (h : BlockInv s) (r : Reg) (v : Word) : BlockInv (writeReg s r v) :=
  h.congr (by simp) (by simp) (by simp) (by simp) (by simp) (by simp)
    (fun _ => ⟨writeReg_done_of_clear r v, by simp⟩)

/-- A rejection is an idle block's, of which the invariant asks nothing in DONE and ERR. -/
theorem BlockInv.reject {s : State} (h : BlockInv s) (hb : s.status.busy = false) (e : ErrCode) :
    BlockInv (reject e s) :=
  h.congr rfl rfl rfl rfl rfl rfl (fun hb' => absurd (hb.symm.trans hb') Bool.false_ne_true)

/-- A host write of a word inside the banks keeps them canonical and inside (R84, R86). -/
theorem BlockInv.setBankWord {s : State} (h : BlockInv s) (b : Bank) {k : Nat} (hk : k < s.config.nmax) (v : Word) :
    BlockInv { s with mem := setBankWord s.mem b k v } where
  configValid := h.configValid
  memWf := wf_setBankWord b k v h.memWf
  memInBanks := inBanks_setBankWord v hk h.memInBanks
  running := h.running
  idle := h.idle
  scratchRe := h.scratchRe
  scratchIm := h.scratchIm

/-- A command's effect leaves the invariant from any state that meets its part about the parameters, the banks and the scratch:
a completed command waits for nothing. -/
theorem blockInv_of_runCommand {i : Instr} {s t : State} (h : runCommand i s = .next t)
    (hn : runLength s ≤ s.config.nmax) (hv : s.config.valid = true) (hw : s.mem.wf = true)
    (hin : Memory.inBanks s.config s.mem = true) (hre : s.engine.sre.length = s.config.nmax)
    (him : s.engine.sim.length = s.config.nmax) : BlockInv t := by
  obtain ⟨⟨hc, -⟩, -, hwait, -, hbusy, -⟩ := runCommand_kept h
  obtain ⟨hre', him'⟩ := runCommand_scratch h hre him
  exact
    { configValid := hc ▸ hv
      memWf := runCommand_wf h hw
      memInBanks := hc ▸ runCommand_inBanks h hn hin
      running := fun hb => absurd (hbusy.symm.trans hb) Bool.false_ne_true
      idle := fun _ => hwait
      scratchRe := hc ▸ hre'
      scratchIm := hc ▸ him' }

/-- A command that passes its checks is no longer than a bank (R252). -/
theorem le_nmax_of_check {c : Config} {i : Instr} {len : BitVec 32} {det fs : Word} (h : check c i len det fs = .none) :
    len.toNat ≤ c.nmax := by
  obtain ⟨-, hlen, -⟩ := check_eq_none.1 h
  exact le_nmax_of_lenOk hlen

theorem le_nmax_of_issueCheck {i : Instr} {s : State} (h : issueCheck i s = .none) : s.len.toNat ≤ s.config.nmax :=
  le_nmax_of_check h

/-- What an acceptance latches is a command that passed its checks (R48, R245). -/
theorem latchedLegal_accept {i : Instr} {s : State} (h : issueCheck i s = .none) :
    latchedLegal (accept (encode i) s) = true := by
  have hd : decode (encode i) = .ok i := Laws.RoundTrip.all i
  have hc : check s.config i s.len s.detectHz s.sampleHz = .none := h
  simp [latchedLegal, latchedAt, hd, hc]

/-- An acceptance whose completion is not due at once starts a legal running command (R245). -/
theorem BlockInv.accept {i : Instr} {s : State} (h : BlockInv s) (hc : issueCheck i s = .none)
    (hd : s.latency.headD 0 ≠ 0) : BlockInv (accept (encode i) s) where
  configValid := h.configValid
  memWf := h.memWf
  memInBanks := h.memInBanks
  running _ := ⟨latchedLegal_accept hc, rfl, rfl, Nat.one_le_iff_ne_zero.2 hd⟩
  idle hb := absurd hb.symm Bool.false_ne_true
  scratchRe := h.scratchRe
  scratchIm := h.scratchIm

/-- A write to CMD keeps the invariant, whether it is dropped, rejected, accepted, or accepted and completed. -/
theorem BlockInv.writeCmd {v : Word} {s t : State} (hs : BlockInv s) (h : writeCmd v s = .next t) : BlockInv t := by
  rcases writeCmd_eq_next h with ⟨-, rfl⟩ | ⟨hb, e, -, rfl⟩ | ⟨-, i, -, hc, hd, rfl⟩ | ⟨-, i, -, hc, -, hrun⟩
  · exact hs.overrun
  · exact hs.reject hb e
  · exact hs.accept hc hd
  · exact blockInv_of_runCommand hrun (le_nmax_of_issueCheck hc) hs.configValid hs.memWf hs.memInBanks hs.scratchRe
      hs.scratchIm

theorem BlockInv.hostWrite {a : BitVec 18} {n : Nat} {v : Word} {s t : State} (hs : BlockInv s)
    (h : hostWrite a n v s = .next t) : BlockInv t := by
  rcases hostWrite_eq_next h with ⟨r, -, -, -, rfl⟩ | rfl | ⟨-, b, k, hk, rfl⟩ | ⟨-, -, hcmd⟩
  · exact (hs.respond _).writeReg r v
  · exact hs.respond _
  · exact (hs.respond .writeOkay).setBankWord b hk v
  · exact (hs.respond _).writeCmd hcmd

/-- The completion of a running command keeps the invariant: the latched command passed its checks, so it stores inside the
banks. -/
theorem BlockInv.complete {s t : State} (hs : BlockInv s) (hb : s.status.busy = true) (h : complete s = .next t) :
    BlockInv t := by
  obtain ⟨i, hi, hrun⟩ := complete_eq_next h
  obtain ⟨hlegal, -⟩ := hs.running hb
  have hc : check s.config i s.latch.len s.latch.det s.latch.fs = .none := by
    simpa [latchedLegal, hi] using hlegal
  exact blockInv_of_runCommand hrun (le_nmax_of_check hc) hs.configValid hs.memWf hs.memInBanks hs.scratchRe hs.scratchIm

/-- A transaction that passes a running command leaves it with at least one more to come, or completes it (R256). -/
theorem BlockInv.tick {s t : State} (hs : BlockInv s) (hb : s.status.busy = true) (h : tick s = .next t) :
    BlockInv t := by
  rcases tick_eq_next h with ⟨-, hcomplete⟩ | ⟨hwait, rfl⟩
  · exact hs.complete hb hcomplete
  · obtain ⟨hlegal, hdone, herr, -⟩ := hs.running hb
    exact
      { hs with
        running := fun _ => ⟨hlegal, hdone, herr, by show 1 ≤ s.wait - 1; omega⟩
        idle := fun hidle => absurd (hidle.symm.trans hb) Bool.false_ne_true }

/-- The invariant is kept by every step that answers a next state, resets included. -/
theorem BlockInv.step {s t : State} (hs : BlockInv s) (h : step s = .next t) : BlockInv t := by
  rcases step_eq_next h with ⟨-, -, rfl⟩ | ⟨-, hb, hc⟩ | ⟨rest, -, rfl⟩ | ⟨a, n, rest, -, -, rfl⟩ |
    ⟨a, n, rest, -, hb, ht⟩ | ⟨a, n, v, rest, -, -, hw⟩ | ⟨a, n, v, rest, u, -, hb, hw, ht⟩
  · exact hs
  · exact hs.complete hb hc
  · exact blockInv_resetBlock hs.configValid
  · exact (hs.withBus rest).hostRead a n
  · exact ((hs.withBus rest).hostRead a n).tick (by simpa using hb) ht
  · exact (hs.withBus rest).hostWrite hw
  · exact ((hs.withBus rest).hostWrite hw).tick (hostWrite_keeps_busy (by exact hb) hw) ht

/-- Settles O36: a reset of a legal build meets the invariant, and the reference build is legal (R7). -/
theorem invariantHoldsAtReset : Obligations.InvariantHoldsAtReset :=
  ⟨fun _ hc => blockInv_resetWith hc, blockInv_resetWith (by decide)⟩

/-- Settles O37, by what each kind of step does to the invariant. -/
theorem stepKeepsTheInvariant : Obligations.StepKeepsTheInvariant :=
  fun _ _ hs h => hs.step h

/-! ### No result depends on the hidden engine registers (R52) -/

/-- What an operation answers does not depend on the hidden engine registers nor on the number of the next draw, seen without
them: it answers the same from a state whose hidden registers are blanked (R52). -/
def IgnoresEngine (f : State → Out) : Prop :=
  ∀ s, mapNext hideEngine (f (hideEngine s)) = mapNext hideEngine (f s)

/-- An operation that ignores the hidden registers answers alike from any two states that differ only there. -/
theorem IgnoresEngine.congr {f : State → Out} (hf : IgnoresEngine f) {s s' : State}
    (h : hideEngine s = hideEngine s') : mapNext hideEngine (f s) = mapNext hideEngine (f s') := by
  rw [← hf s, h, hf s']

/-- Outcomes that agree outside the hidden registers still agree after an operation that ignores them. -/
theorem IgnoresEngine.andThen_congr {f : State → Out} (hf : IgnoresEngine f) {o o' : Out}
    (h : mapNext hideEngine o = mapNext hideEngine o') :
    mapNext hideEngine (andThen o f) = mapNext hideEngine (andThen o' f) := by
  cases o <;> cases o' <;> simp only [mapNext, Host.Outcome.next.injEq, Host.Outcome.fault.injEq,
    Host.Outcome.refused.injEq, reduceCtorEq] at h
  · exact hf.congr h
  · rw [h]
  · rw [h]

/-- Two choices on one condition look alike where their branches do. -/
theorem apply_ite_congr {α β : Type} {f : α → β} {p : Prop} [Decidable p] {a a' b b' : α} (ha : f a = f a')
    (hb : f b = f b') : f (if p then a else b) = f (if p then a' else b') := by
  split
  · exact ha
  · exact hb

/-- The engine's read sees the banks alone: it goes on with the same words where what follows ignores the hidden registers. -/
theorem mapNext_withWords_hideEngine {s : State} {b : Bank} {n : Nat} {go go' : List Word → Out}
    (h : ∀ ws, mapNext hideEngine (go ws) = mapNext hideEngine (go' ws)) :
    mapNext hideEngine (withWords (hideEngine s) b n go) = mapNext hideEngine (withWords s b n go') := by
  unfold withWords
  rw [hideEngine_mem]
  cases readRun s.mem b 0 n with
  | error e => rfl
  | ok ws => exact h ws

/-- A command's effect ignores what an earlier command left in the hidden registers (R52). -/
theorem ignoresEngine_runCommand (i : Instr) : IgnoresEngine (runCommand i) := by
  intro s
  cases i with
  | fft ra rb => exact mapNext_withWords_hideEngine fun re => mapNext_withWords_hideEngine fun im => rfl
  | ifft ra rb => exact mapNext_withWords_hideEngine fun re => mapNext_withWords_hideEngine fun im => rfl
  | dct ra => exact mapNext_withWords_hideEngine fun val => rfl
  | hann ra => rfl
  | filter ra rb => exact mapNext_withWords_hideEngine fun val => mapNext_withWords_hideEngine fun fval => rfl
  | magpwr ra rb rc => exact mapNext_withWords_hideEngine fun re => mapNext_withWords_hideEngine fun im => rfl
  | goertzel ra => exact mapNext_withWords_hideEngine fun samples => rfl

theorem ignoresEngine_settle {run : State → Out} (h : IgnoresEngine run) : IgnoresEngine (settle run) :=
  fun s => apply_ite_congr (h s) rfl

theorem ignoresEngine_issue {run : State → Out} (v : Word) (e : ErrCode) (h : IgnoresEngine run) :
    IgnoresEngine (issue v e run) :=
  fun _ => apply_ite_congr rfl (apply_ite_congr ((ignoresEngine_settle h).congr rfl) rfl)

/-- The checks read the parameters and the operand registers, so a command's issue ignores the hidden registers as its effect
does. -/
theorem ignoresEngine_exec (i : Instr) : IgnoresEngine (exec i) := by
  intro s
  rw [exec_eq_issue, exec_eq_issue]
  exact ignoresEngine_issue (encode i) (issueCheck i s) (ignoresEngine_runCommand i) s

theorem ignoresEngine_writeCmd (v : Word) : IgnoresEngine (writeCmd v) := by
  intro s
  unfold writeCmd
  cases decode v with
  | ok i => exact ignoresEngine_exec i s
  | error e => exact apply_ite_congr rfl rfl

theorem readReg_hideEngine (s : State) (r : Reg) : readReg (hideEngine s) r = readReg s r := by cases r <;> rfl

/-- No host read returns a hidden register (R49 to R51). -/
theorem hideEngine_hostRead (a : BitVec 18) (n : Nat) (s : State) :
    hideEngine (hostRead a n (hideEngine s)) = hideEngine (hostRead a n s) := by
  simp only [hostRead, hideEngine_config, hideEngine_status, readReg_hideEngine]
  split
  · split
    · rfl
    · exact apply_ite_congr rfl rfl
    · rfl
  · rfl

/-- No host write depends on a hidden register. -/
theorem ignoresEngine_hostWrite (a : BitVec 18) (n : Nat) (v : Word) : IgnoresEngine (hostWrite a n v) := by
  intro s
  simp only [hostWrite, hideEngine_config, hideEngine_status, hideEngine_mem]
  split
  · split
    · exact (ignoresEngine_writeCmd v).congr rfl
    · next r _ _ => cases r <;> rfl
    · exact apply_ite_congr rfl rfl
    · rfl
  · rfl

theorem ignoresEngine_complete : IgnoresEngine complete := by
  intro s
  simp only [complete, hideEngine_latch]
  split
  · next i _ => exact ignoresEngine_runCommand i s
  · rfl

theorem ignoresEngine_tick : IgnoresEngine tick :=
  fun s => apply_ite_congr (ignoresEngine_complete s) rfl

theorem mapNext_afterTransaction {o o' : Out} (busy : Bool) (h : mapNext hideEngine o = mapNext hideEngine o') :
    mapNext hideEngine (afterTransaction busy o) = mapNext hideEngine (afterTransaction busy o') := by
  cases busy with
  | true => exact ignoresEngine_tick.andThen_congr h
  | false => exact h

/-- An event of the outside world does the same whatever the hidden registers hold; a reset blanks them itself (R54). -/
theorem ignoresEngine_serve (e : HostEvent) : IgnoresEngine (serve e) := by
  intro s
  cases e with
  | read a n => exact mapNext_afterTransaction _ (congrArg Host.Outcome.next (hideEngine_hostRead a n s))
  | write a n v => exact mapNext_afterTransaction _ (ignoresEngine_hostWrite a n v s)
  | reset => rfl

theorem ignoresEngine_step : IgnoresEngine step := by
  intro s
  simp only [step, hideEngine_bus]
  split
  · exact apply_ite_congr (ignoresEngine_complete s) rfl
  · next e rest _ => exact (ignoresEngine_serve e).congr rfl

/-- Settles O39: no operation a step is made of depends on the hidden registers. -/
theorem hiddenStateDecidesNothing : Obligations.HiddenStateDecidesNothing :=
  fun _ _ h => ignoresEngine_step.congr h

/-! ### The flags and the result registers, over a step -/

/-- What a host transaction does to OVF and OVERRUN by itself, before a completion that may follow it: a write to STATUS clears
by ones (R35), a write to CMD while a command runs sets OVERRUN (R246), and nothing else touches them. -/
inductive FlagEffect (e : Option HostEvent) (s u : State) : Prop
  | kept (hcmd : ¬ (s.status.busy = true ∧ ∃ v, e = some (.write 0x018 8 v))) (hovf : u.status.ovf = s.status.ovf)
      (hoverrun : u.status.overrun = s.status.overrun)
  | cleared (v : Word) (he : e = some (.write 0x020 8 v)) (hovf : u.status.ovf = (s.status.ovf && !v.getLsbD 8))
      (hoverrun : u.status.overrun = (s.status.overrun && !v.getLsbD 9))
  | overran (v : Word) (he : e = some (.write 0x018 8 v)) (hb : s.status.busy = true)
      (hovf : u.status.ovf = s.status.ovf) (hoverrun : u.status.overrun = true)

/-- What a step does before the completion event it may end with: to the flags as said, to PWR and the GOERTZEL registers
nothing (R35, R41 to R44). -/
structure TransactionEffect (e : Option HostEvent) (s u : State) : Prop where
  flags : FlagEffect e s u
  pwr : u.pwr = s.pwr
  gz : u.gz = s.gz

/-- The events still pending have no part in the effect. -/
theorem TransactionEffect.of_withBus {e : Option HostEvent} {rest : List HostEvent} {s u : State}
    (h : TransactionEffect e { s with bus := rest } u) : TransactionEffect e s u := by
  obtain ⟨hflags, hp, hg⟩ := h
  refine ⟨?_, hp, hg⟩
  cases hflags with
  | kept hcmd hovf hoverrun => exact .kept hcmd hovf hoverrun
  | cleared v he hovf hoverrun => exact .cleared v he hovf hoverrun
  | overran v he hb hovf hoverrun => exact .overran v he hb hovf hoverrun

/-- What follows the transaction in the same step: at most one completion of the latched command (R256). -/
def MayComplete (u t : State) : Prop :=
  (∃ w, t = { u with wait := w }) ∨ ∃ i, decode u.latch.cmd = .ok i ∧ runCommand i u = .next t

theorem mayComplete_refl (u : State) : MayComplete u u := .inl ⟨u.wait, rfl⟩

theorem mayComplete_of_run {i : Instr} {u t : State} (h : runCommand i u = .next t) (hi : decode u.latch.cmd = .ok i) :
    MayComplete u t := .inr ⟨i, hi, h⟩

theorem mayComplete_of_complete {u t : State} (h : complete u = .next t) : MayComplete u t := .inr (complete_eq_next h)

theorem mayComplete_of_tick {u t : State} (h : tick u = .next t) : MayComplete u t := by
  rcases tick_eq_next h with ⟨-, hc⟩ | ⟨-, rfl⟩
  · exact mayComplete_of_complete hc
  · exact .inl ⟨_, rfl⟩

/-- A write to a register but CMD touches the flags only where the register is STATUS. -/
theorem transactionEffect_writeReg {r : Reg} (hr : r ≠ .cmd) (v : Word) (s : State) (x : BusResponse) :
    TransactionEffect (some (.write (BitVec.ofNat 18 r.offset) 8 v)) s (writeReg (respond x s) r v) := by
  refine ⟨?_, by simp, by simp⟩
  by_cases hst : r = .status
  · subst hst
    exact .cleared v rfl rfl rfl
  · have hkept : (writeReg (respond x s) r v).status = s.status := writeReg_status_of_ne hst v _
    refine .kept ?_ (by rw [hkept]) (by rw [hkept])
    rintro ⟨-, w, hw⟩
    injection hw with hw
    injection hw with ha
    exact hr (eq_of_offset_eq (r' := .cmd) ha)

/-- A host write while a command runs. -/
theorem transactionEffect_of_busy {a : BitVec 18} {n : Nat} {v : Word} {s u : State} (hb : s.status.busy = true)
    (h : hostWrite a n v s = .next u) : TransactionEffect (some (.write a n v)) s u := by
  by_cases hcmd : a = 0x018 ∧ n = 8
  · obtain ⟨rfl, rfl⟩ := hcmd
    rw [hostWrite_cmd, writeCmd_of_busy (by exact hb)] at h
    cases h
    exact ⟨.overran v rfl hb rfl rfl, rfl, rfl⟩
  · rcases hostWrite_of_busy hb h with ⟨r, hr, rfl, rfl, rfl⟩ | rfl | ⟨ha, hn, -⟩
    · exact transactionEffect_writeReg hr v s _
    · refine ⟨.kept ?_ rfl rfl, rfl, rfl⟩
      rintro ⟨-, w, hw⟩
      cases hw
      exact hcmd ⟨rfl, rfl⟩
    · exact absurd ⟨ha, hn⟩ hcmd

/-- Where no command runs, a transaction that leaves the flags and the result registers has no effect on them. -/
theorem transactionEffect_of_kept {e : Option HostEvent} {s u : State} (hb : s.status.busy = false)
    (hovf : u.status.ovf = s.status.ovf) (hoverrun : u.status.overrun = s.status.overrun) (hp : u.pwr = s.pwr)
    (hg : u.gz = s.gz) : TransactionEffect e s u :=
  ⟨.kept (fun hbusy => absurd (hb.symm.trans hbusy.1) Bool.false_ne_true) hovf hoverrun, hp, hg⟩

/-- A host write while no command runs, with the command it may start and complete. -/
theorem transactionEffect_of_idle {a : BitVec 18} {n : Nat} {v : Word} {s t : State} (hb : s.status.busy = false)
    (h : hostWrite a n v s = .next t) : ∃ u, MayComplete u t ∧ TransactionEffect (some (.write a n v)) s u := by
  rcases hostWrite_eq_next h with ⟨r, hr, rfl, rfl, rfl⟩ | rfl | ⟨-, b, k, -, rfl⟩ | ⟨-, -, hcmd⟩
  · exact ⟨_, mayComplete_refl _, transactionEffect_writeReg hr v s _⟩
  · exact ⟨_, mayComplete_refl _, transactionEffect_of_kept hb rfl rfl rfl rfl⟩
  · exact ⟨_, mayComplete_refl _, transactionEffect_of_kept hb rfl rfl rfl rfl⟩
  · rcases writeCmd_eq_next hcmd with ⟨hbusy, -⟩ | ⟨-, e, -, rfl⟩ | ⟨-, i, -, -, -, rfl⟩ | ⟨-, i, -, -, -, hrun⟩
    · exact absurd (hb.symm.trans hbusy) Bool.false_ne_true
    · exact ⟨_, mayComplete_refl _, transactionEffect_of_kept hb rfl rfl rfl rfl⟩
    · exact ⟨_, mayComplete_refl _, transactionEffect_of_kept hb rfl rfl rfl rfl⟩
    · exact ⟨_, mayComplete_of_run hrun (Laws.RoundTrip.all i), transactionEffect_of_kept hb rfl rfl rfl rfl⟩

/-- A host read touches neither the flags nor the result registers. -/
theorem transactionEffect_read (a : BitVec 18) (n : Nat) (s : State) (rest : List HostEvent) :
    TransactionEffect (some (.read a n)) s (hostRead a n { s with bus := rest }) :=
  ⟨.kept (by simp) (by simp) (by simp), by simp, by simp⟩

/-- Every step but a reset is a transaction's own effect, then at most one completion. -/
theorem step_splits {s t : State} (hreset : s.bus.head? ≠ some .reset) (h : step s = .next t) :
    ∃ u, MayComplete u t ∧ TransactionEffect s.bus.head? s u := by
  rcases step_eq_next h with ⟨-, hb, rfl⟩ | ⟨he, hb, hc⟩ | ⟨rest, he, -⟩ | ⟨a, n, rest, he, -, rfl⟩ |
    ⟨a, n, rest, he, hb, ht⟩ | ⟨a, n, v, rest, he, hb, hw⟩ | ⟨a, n, v, rest, u, he, hb, hw, ht⟩
  · exact ⟨_, mayComplete_refl _, transactionEffect_of_kept hb rfl rfl rfl rfl⟩
  · exact ⟨s, mayComplete_of_complete hc, .kept (by simp [he]) rfl rfl, rfl, rfl⟩
  · simp [he] at hreset
  · rw [he]
    exact ⟨_, mayComplete_refl _, transactionEffect_read a n s rest⟩
  · rw [he]
    exact ⟨_, mayComplete_of_tick ht, transactionEffect_read a n s rest⟩
  · obtain ⟨u, hu, heffect⟩ := transactionEffect_of_idle (by exact hb) hw
    rw [he]
    exact ⟨u, hu, heffect.of_withBus⟩
  · rw [he]
    exact ⟨u, mayComplete_of_tick ht, (transactionEffect_of_busy (by exact hb) hw).of_withBus⟩

/-- Settles O14: PWR and the GOERTZEL registers change in the completion of the latched command, and MAGPWR and GOERTZEL are
the commands that write them. -/
theorem resultRegistersHaveOneWriter : Obligations.ResultRegistersHaveOneWriter := by
  intro s t hreset h
  obtain ⟨u, ⟨w, rfl⟩ | ⟨i, hi, hrun⟩, -, hp, hg⟩ := step_splits hreset h
  · exact ⟨fun hne => absurd hp hne, fun hne => absurd hg hne⟩
  · obtain ⟨-, hlatch, -, -, hbusy, hdone, -⟩ := runCommand_kept hrun
    rw [hlatch, hi, hdone, hbusy, ← hp, ← hg]
    constructor
    · intro hne
      rcases runCommand_pwr hrun with hkept | ⟨ra, rb, rc, rfl⟩
      · exact absurd hkept hne
      · exact ⟨ra, rb, rc, rfl, rfl, rfl⟩
    · intro hne
      rcases runCommand_gz hrun with ⟨hkept, -⟩ | ⟨ra, rfl⟩
      · exact absurd hkept hne
      · exact ⟨ra, rfl, rfl, rfl⟩

/-- A command's execution keeps OVF where it is set, and only GOERTZEL's may set it (R238). -/
theorem exec_ovf {i : Instr} {s t : State} (h : exec i s = .next t) :
    (s.status.ovf = true → t.status.ovf = true) ∧ ((∀ ra, i ≠ .goertzel ra) → t.status.ovf = s.status.ovf) := by
  rw [exec_eq_issue] at h
  rcases issue_eq_next h with ⟨-, rfl⟩ | ⟨-, -, rfl⟩ | ⟨-, -, -, rfl⟩ | ⟨-, -, -, hrun⟩
  · exact ⟨id, fun _ => rfl⟩
  · exact ⟨id, fun _ => rfl⟩
  · exact ⟨id, fun _ => rfl⟩
  · obtain ⟨-, -, -, -, -, -, -, -, hsticky⟩ := runCommand_kept hrun
    refine ⟨hsticky, fun hne => ?_⟩
    rcases runCommand_gz hrun with ⟨-, hkept⟩ | ⟨ra, rfl⟩
    · exact hkept
    · exact absurd rfl (hne ra)

/-- A command's execution from idle leaves OVERRUN (R246). -/
theorem exec_overrun {i : Instr} {s t : State} (hb : s.status.busy = false) (h : exec i s = .next t) :
    t.status.overrun = s.status.overrun := by
  rw [exec_eq_issue] at h
  rcases issue_eq_next h with ⟨hbusy, -⟩ | ⟨-, -, rfl⟩ | ⟨-, -, -, rfl⟩ | ⟨-, -, -, hrun⟩
  · exact absurd (hb.symm.trans hbusy) Bool.false_ne_true
  · rfl
  · rfl
  · obtain ⟨-, -, -, -, -, -, -, hkept, -⟩ := runCommand_kept hrun
    exact hkept

/-- What a completion that may follow does to the flags: OVERRUN is left, OVF stays where it is set, and where it becomes set a
GOERTZEL command has completed (R238, R256). -/
theorem MayComplete.flags {u t : State} (h : MayComplete u t) :
    t.status.overrun = u.status.overrun ∧ (u.status.ovf = true → t.status.ovf = true) ∧
      (u.status.ovf = false → t.status.ovf = true →
        ∃ ra, decode t.latch.cmd = .ok (.goertzel ra) ∧ t.status.done = true ∧ t.status.busy = false) := by
  obtain ⟨w, rfl⟩ | ⟨i, hi, hrun⟩ := h
  · exact ⟨rfl, id, fun hclear hset => absurd (hclear.symm.trans hset) Bool.false_ne_true⟩
  · obtain ⟨-, hlatch, -, -, hbusy, hdone, -, hoverrun, hsticky⟩ := runCommand_kept hrun
    refine ⟨hoverrun, hsticky, fun hclear hset => ?_⟩
    rcases runCommand_gz hrun with ⟨-, hkept⟩ | ⟨ra, rfl⟩
    · rw [hkept, hclear] at hset
      exact absurd hset Bool.false_ne_true
    · exact ⟨ra, by rw [hlatch, hi], hdone, hbusy⟩

/-- The step's clauses of the flags, from what its transaction does to them and what a completion adds. -/
theorem stickyFlags_of_effects {e : Option HostEvent} {s u t : State} (hflags : FlagEffect e s u) (hu : MayComplete u t) :
    (s.status.ovf = true → t.status.ovf = false → ∃ v, e = some (.write 0x020 8 v) ∧ v.getLsbD 8 = true) ∧
    (s.status.ovf = false → t.status.ovf = true →
      ∃ ra, decode t.latch.cmd = .ok (.goertzel ra) ∧ t.status.done = true ∧ t.status.busy = false) ∧
    (s.status.overrun = true → t.status.overrun = false → ∃ v, e = some (.write 0x020 8 v) ∧ v.getLsbD 9 = true) ∧
    (s.status.overrun = false → t.status.overrun = true →
      s.status.busy = true ∧ ∃ v, e = some (.write 0x018 8 v)) ∧
    (s.status.busy = true → (∃ v, e = some (.write 0x018 8 v)) → t.status.overrun = true) := by
  obtain ⟨hoverrun', hsticky, hset⟩ := hu.flags
  rw [hoverrun']
  cases hflags with
  | kept hcmd hovf hoverrun =>
    rw [← hovf, ← hoverrun]
    refine ⟨fun hs ht => ?_, hset, fun hs ht => ?_, fun hs ht => ?_, fun hb hv => absurd ⟨hb, hv⟩ hcmd⟩
    · simp [hsticky hs] at ht
    · simp [hs] at ht
    · simp [hs] at ht
  | cleared v he hovf hoverrun =>
    refine ⟨fun hs ht => ⟨v, he, ?_⟩, fun hs => hset (by simp [hovf, hs]), fun hs ht => ⟨v, he, ?_⟩, fun hs ht => ?_,
      fun _ ⟨w, hw⟩ => ?_⟩
    · by_contra hv
      have hu : u.status.ovf = true := by rw [hovf, hs, Bool.eq_false_of_not_eq_true hv]; rfl
      simp [hsticky hu] at ht
    · simpa [hoverrun, hs] using ht
    · simp [hoverrun, hs] at ht
    · simp [he] at hw
  | overran v he hb hovf hoverrun =>
    rw [← hovf, hoverrun]
    refine ⟨fun hs ht => ?_, hset, fun _ ht => absurd ht.symm Bool.false_ne_true, fun _ _ => ⟨hb, v, he⟩, fun _ _ => rfl⟩
    simp [hsticky hs] at ht

/-- Settles O13: over a command by the cases of its issue, over a step by its transaction and the completion that may
follow it. -/
theorem stickyFlagsAreKept : Obligations.StickyFlagsAreKept := by
  refine ⟨fun i s t h => ?_, fun s t hreset h => ?_⟩
  · obtain ⟨hsticky, hkept⟩ := exec_ovf h
    exact ⟨hsticky, hkept, fun hb => exec_overrun hb h⟩
  · obtain ⟨u, hu, heffect⟩ := step_splits hreset h
    exact stickyFlags_of_effects heffect.flags hu

/-! ### The stop at an unwritten word (R53) -/

/-- One read of a bank: its words are written and the command goes on, or it stops at one that is not (R53). -/
theorem withWords_written_or_stops (s : State) (b : Bank) (n : Nat) (go : List Word → Out) :
    ((∀ k, k < n → (bankWord? s.mem b k).isSome = true) ∧ ∃ ws, withWords s b n go = go ws) ∨
    ∃ k, k < n ∧ bankWord? s.mem b k = none ∧ withWords s b n go = .fault (.unwrittenWord b k) := by
  rcases withWords_cases s b n go with ⟨ws, hl, hw, hgo⟩ | hstop
  · refine .inl ⟨fun k hk => ?_, ws, hgo⟩
    rw [hw k (by omega), List.getElem?_eq_getElem (by omega)]
    rfl
  · exact .inr hstop

/-- A command that would read an unwritten word stops at one (R53). -/
def StopsAtUnwritten (banks : List Bank) (n : Nat) (s : State) (o : Out) : Prop :=
  ∃ c j, c ∈ banks ∧ j < n ∧ bankWord? s.mem c j = none ∧ o = .fault (.unwrittenWord c j)

/-- The first words of all these banks are written: `inputsWritten`, of a list of banks. -/
def AllWritten (banks : List Bank) (n : Nat) (s : State) : Prop :=
  ∀ b, b ∈ banks → ∀ k, k < n → (bankWord? s.mem b k).isSome = true

theorem one_bank_written_or_stops (s : State) (a : Bank) (n : Nat) (go : List Word → Out) :
    AllWritten [a] n s ∨ StopsAtUnwritten [a] n s (withWords s a n go) := by
  rcases withWords_written_or_stops s a n go with ⟨ha, -⟩ | ⟨k, hk, hn, hstop⟩
  · exact .inl (by simpa [AllWritten] using ha)
  · exact .inr ⟨a, k, by simp, hk, hn, hstop⟩

theorem two_banks_written_or_stop (s : State) (a b : Bank) (n : Nat) (go : List Word → List Word → Out) :
    AllWritten [a, b] n s ∨
      StopsAtUnwritten [a, b] n s (withWords s a n fun xs => withWords s b n (go xs)) := by
  rcases withWords_written_or_stops s a n fun xs => withWords s b n (go xs) with
    ⟨ha, xs, hxs⟩ | ⟨k, hk, hn, hstop⟩
  · rcases withWords_written_or_stops s b n (go xs) with ⟨hb, -⟩ | ⟨k, hk, hn, hstop⟩
    · refine .inl fun c hc => ?_
      rcases List.mem_pair.1 hc with rfl | rfl
      · exact ha
      · exact hb
    · exact .inr ⟨b, k, by simp, hk, hn, hxs.trans hstop⟩
  · exact .inr ⟨a, k, by simp, hk, hn, hstop⟩

/-- A command's inputs are all written, or its effect is the stop at one of its input words that is not (R53). -/
theorem runCommand_written_or_stops (i : Instr) (s : State) :
    inputsWritten i (runLength s) s.mem ∨ StopsAtUnwritten (inputBanks i) (runLength s) s (runCommand i s) := by
  cases i with
  | fft ra rb => exact two_banks_written_or_stop s ra rb _ _
  | ifft ra rb => exact two_banks_written_or_stop s ra rb _ _
  | dct ra => exact one_bank_written_or_stops s ra _ _
  | hann ra => exact .inl fun b hb => absurd hb List.not_mem_nil
  | filter ra rb => exact two_banks_written_or_stop s ra rb _ _
  | magpwr ra rb rc => exact two_banks_written_or_stop s ra rb _ _
  | goertzel ra => exact one_bank_written_or_stops s ra _ _

/-- Settles O22: the accepted command's effect reads its inputs, and the one that is unwritten rules out that all are written. -/
theorem unwrittenInputStopsTheCommand : Obligations.UnwrittenInputStopsTheCommand := by
  intro i s b k hb hdue hc hin hk hnone
  rw [exec_of_passed_checks hb hdue hc]
  rcases runCommand_written_or_stops i (accept (encode i) s) with hall | hstop
  · have hsome := hall b hin k hk
    simp [hnone] at hsome
  · exact hstop

/-! ### The issue and the step, case by case -/

/-- Settles O10: the acceptance of a command whose completion is not due at once. -/
theorem acceptanceLatchesTheOperands : Obligations.AcceptanceLatchesTheOperands := by
  intro i s d rest hb hc hl
  rw [exec_of_waiting hb (by simp [hl]) hc]
  simp [accept, acceptedWaiting, acceptedStatus, latchedAt, hl]

/-- Settles O4: a step on a host transaction is that transaction, and while a command runs the tick that follows it. -/
theorem stepRunsTheDecodedCommand : Obligations.StepRunsTheDecodedCommand := by
  refine ⟨fun s rest v i h hd => ⟨fun hb => ?_, fun hb hw => ?_, fun hb hw => ?_⟩,
    fun s rest a n h => ⟨step_read_idle h, fun hb hw => ?_, fun hb hw => ?_⟩,
    fun s rest a n v h => ⟨step_write_idle h, fun hb => ?_⟩, hostWrite_cmd⟩
  · rw [step_write_idle h hb, hostWrite_cmd, writeCmd_of_decode hd]
    rfl
  · rw [step_write_busy h hb (writeCmd_of_busy hb)]
    exact tick_of_due hw
  · rw [step_write_busy h hb (writeCmd_of_busy hb)]
    exact tick_of_not_due hw
  · rw [step_read_busy h hb, tick_of_due (by simpa using hw)]
  · rw [step_read_busy h hb, tick_of_not_due (by simpa using hw), hostRead_wait]
  · obtain ⟨u, hu⟩ := exists_hostWrite_of_busy a n v (s := { s with bus := rest }) hb
    have hwait : u.wait = s.wait := hostWrite_keeps_wait (s := { s with bus := rest }) hb hu
    refine ⟨u, hu, fun hw => ?_, fun hw => ?_⟩
    · rw [step_write_busy h hb hu, tick_of_due (by omega)]
    · rw [step_write_busy h hb hu, tick_of_not_due (by omega), hwait]

/-! ### The bits of the packed registers -/

/-- Bit `i` of a word that holds a field from bit `low` on. -/
theorem getLsbD_field {n : Nat} (x : BitVec n) (low i : Nat) :
    (field n x low).getLsbD i = (decide (i < 64) && (decide (low ≤ i) && x.getLsbD (i - low))) := by
  unfold field
  have hle : (!decide (i < low)) = decide (low ≤ i) := by simp [← decide_not]
  rw [BitVec.getLsbD_shiftLeft, BitVec.getLsbD_setWidth, hle]
  by_cases hi : i < 64
  · simp [hi, show i - low < 64 by omega]
  · simp [hi]

@[simp] theorem getElem_field {n : Nat} (x : BitVec n) (low i : Nat) (hi : i < 64) :
    (field n x low)[i] = (decide (low ≤ i) && x.getLsbD (i - low)) := by
  rw [← BitVec.getLsbD_eq_getElem, getLsbD_field, decide_eq_true hi, Bool.true_and]

/-- The bits at which a field stands hold it. -/
theorem extract_field_same {n : Nat} (x : BitVec n) (low : Nat) (h : low + n ≤ 64) :
    (field n x low).extractLsb' low n = x := by
  apply BitVec.eq_of_getLsbD_eq
  intro i hi
  rw [BitVec.getLsbD_extractLsb', getLsbD_field]
  simp [show i < n from hi, show low + i < 64 by omega]

/-- Bits that do not meet a field's are zero. -/
theorem extract_field_disjoint {n : Nat} (x : BitVec n) (low start m : Nat)
    (h : start + m ≤ low ∨ low + n ≤ start) : (field n x low).extractLsb' start m = 0 := by
  apply BitVec.eq_of_getLsbD_eq
  intro i hi
  rw [BitVec.getLsbD_extractLsb', getLsbD_field]
  rcases h with h | h
  · simp [show ¬ low ≤ start + i by omega]
  · simp [BitVec.getLsbD_of_ge x (start + i - low) (by omega)]

theorem Status.extract_err (st : Status) : st.word.extractLsb' 4 4 = st.err.code := by
  simp [Status.word, BitVec.extractLsb'_or, extract_field_disjoint, extract_field_same]

/-- Settles O26: single bits by the bit of each field, ranges by the field that stands there or by none. -/
theorem statusBitsAreWhereTheSpecPutsThem : Obligations.StatusBitsAreWhereTheSpecPutsThem := by
  intro s
  refine ⟨?busy, ?done, ?ovf, ?overrun, ?low, ?high, ?err⟩
  case busy => simp [readReg, Status.word]
  case done => simp [readReg, Status.word]
  case ovf => simp [readReg, Status.word]
  case overrun => simp [readReg, Status.word]
  case low => simp [readReg, Status.word, BitVec.extractLsb'_or, extract_field_disjoint]
  case high => simp [readReg, Status.word, BitVec.extractLsb'_or, extract_field_disjoint]
  case err =>
    rw [readReg, Status.extract_err]
    cases s.status.err <;> rfl

/-- CONFIG's fields hold the parameters of a legal build, and its other bits are zero (R7, R32). -/
theorem configWord_fields {c : Config} (h : c.valid = true) :
    ((configWord c).extractLsb' 0 4).toNat = c.log2Nmax ∧ ((configWord c).extractLsb' 4 5).toNat = c.gzWQn ∧
      (configWord c).getLsbD 9 = c.gzCoefWide ∧ ((configWord c).getLsbD 10 = true ↔ c.gzOutForm = .pair) ∧
      (configWord c).extractLsb' 11 53 = 0 := by
  simp only [Config.valid, Bool.and_eq_true, decide_eq_true_eq] at h
  have hlog : (configWord c).extractLsb' 0 4 = BitVec.ofNat 4 c.log2Nmax := by
    simp [configWord, BitVec.extractLsb'_or, extract_field_disjoint, extract_field_same]
  have hqn : (configWord c).extractLsb' 4 5 = BitVec.ofNat 5 c.gzWQn := by
    simp [configWord, BitVec.extractLsb'_or, extract_field_disjoint, extract_field_same]
  refine ⟨?_, ?_, ?_, ?_, ?_⟩
  · rw [hlog, BitVec.toNat_ofNat, Nat.mod_eq_of_lt (by omega)]
  · rw [hqn, BitVec.toNat_ofNat, Nat.mod_eq_of_lt (by omega)]
  · simp [configWord]
  · simp [configWord]
  · simp [configWord, BitVec.extractLsb'_or, extract_field_disjoint]

theorem GoertzelRegs.yWord_fields (g : GoertzelRegs) :
    g.yWord.extractLsb' 0 32 = g.yr ∧ g.yWord.extractLsb' 32 32 = g.yi := by
  simp [GoertzelRegs.yWord, BitVec.extractLsb'_or, extract_field_disjoint, extract_field_same]

theorem GoertzelRegs.coefWord_fields (g : GoertzelRegs) :
    g.coefWord.extractLsb' 0 20 = g.fb ∧ g.coefWord.extractLsb' 20 20 = g.ffr ∧ g.coefWord.extractLsb' 40 20 = g.ffi ∧
      g.coefWord.extractLsb' 60 4 = 0 := by
  simp [GoertzelRegs.coefWord, BitVec.extractLsb'_or, extract_field_disjoint, extract_field_same]

/-- Settles O27, register by register. -/
theorem packedRegisterFields : Obligations.PackedRegisterFields := by
  intro s hv
  obtain ⟨hlog, hqn, hwide, hform, hres⟩ := configWord_fields hv
  obtain ⟨hyr, hyi⟩ := s.gz.yWord_fields
  exact ⟨hlog, hqn, hwide, hform, hres, rfl, extract_field_same _ _ (by decide),
    extract_field_disjoint _ _ _ _ (by decide), hyr, hyi, s.gz.coefWord_fields⟩

/-! ### Registers on the bus -/

/-- Settles O25: each register is read at its offset; the unpacked ones read as their field alone. -/
theorem registersReadAtTheirOffsets : Obligations.RegistersReadAtTheirOffsets := by
  intro s
  have hirq : readReg s .irqEn = if s.doneIe then 1 else 0 := by
    cases h : s.doneIe <;> simp [readReg, field, h]
  have hlen : readReg s .len = s.len.zeroExtend 64 := by simp [readReg, field]
  have hmag : readReg s .gzMag = s.gz.mag.zeroExtend 64 := by simp [readReg, field]
  rw [← hirq, ← hlen, ← hmag]
  exact ⟨fun r => hostRead_reg r s, hostRead_reg .id s, hostRead_reg .config s, hostRead_reg .eps s, hostRead_reg .cmd s,
    hostRead_reg .status s, hostRead_reg .irqEn s, hostRead_reg .len s, hostRead_reg .detectHz s,
    hostRead_reg .sampleHz s, hostRead_reg .pwr s, hostRead_reg .gzMag s, hostRead_reg .gzY s, hostRead_reg .gzCoef s⟩

/-- A flag is cleared by writing a one (R35). -/
theorem clear_by_one (flag bit : Bool) : (flag && !bit) = if bit then false else flag := by
  cases bit <;> simp

/-- Settles O28: the write reaches STATUS, whose write rule clears by ones. -/
theorem statusWriteClearsByOnes : Obligations.StatusWriteClearsByOnes := by
  intro v s
  simp only [← clear_by_one]
  exact hostWrite_reg (r := .status) (by decide) v s

/-- The registers that ignore a write on the bus (R31 to R33, R41 to R44, R85). -/
def readOnlyRegs : List Reg := [.id, .config, .eps, .pwr, .gzMag, .gzY, .gzCoef]

theorem writeReg_readOnly {r : Reg} (h : r ∈ readOnlyRegs) (s : State) (v : Word) : writeReg s r v = s := by
  fin_cases h <;> rfl

/-- Settles O29: read-write registers by their write rule, read-only ones because theirs changes nothing. -/
theorem registerWritesStoreTheirFields : Obligations.RegisterWritesStoreTheirFields := by
  intro v s
  refine ⟨hostWrite_reg (r := .irqEn) (by decide) v s, hostWrite_reg (r := .len) (by decide) v s,
    hostWrite_reg (r := .detectHz) (by decide) v s, hostWrite_reg (r := .sampleHz) (by decide) v s, fun addr h => ?_⟩
  have haddr : addr ∈ readOnlyRegs.map (fun r => BitVec.ofNat 18 r.offset) := h
  obtain ⟨r, hr, rfl⟩ := List.mem_map.1 haddr
  have hcmd : r ≠ .cmd := by
    rintro rfl
    exact absurd hr (by decide)
  rw [hostWrite_reg hcmd, writeReg_readOnly hr]
  rfl

/-- Settles O34: every field of the reset state is its reset value, and packs to a register of zero. -/
theorem resetValuesAreTheSpecs : Obligations.ResetValuesAreTheSpecs := by
  intro c b k
  have hstatus : Status.reset.word = 0 := by decide
  have hy : GoertzelRegs.reset.yWord = 0 := by decide
  have hcoef : GoertzelRegs.reset.coefWord = 0 := by decide
  exact ⟨rfl, rfl, rfl, rfl, hstatus, rfl, rfl, rfl, rfl, rfl, rfl, hy, hcoef, rfl, rfl⟩

end Sys2Proof.Machine

/-! PROOFS. The memory family of spec/20_memory.md: the windows of the address map, the words of a bank on the bus, the
accesses that are refused, and what a read leaves alone. -/

namespace Sys2Proof.Machine

open Sys2Proof

/-! ### The address map -/

theorem isWordAccess_eq_true {addr : BitVec 18} {bytes : Nat} :
    isWordAccess addr bytes = true ↔ bytes = 8 ∧ addr.toNat % 8 = 0 := by
  simp [isWordAccess]

/-- A bank's window is the 64 KiB from its base on (R84). -/
theorem bankOf?_of_div_eq {a : Nat} {b : Bank} (h : a / 0x10000 = bankBase b / 0x10000) : bankOf? a = some b := by
  cases b <;> simp [bankOf?, h, bankBase]

/-- Every offset from the first bank's base on lies in a bank's window: offsets have 18 bits (R84). -/
theorem exists_bankOf?_of_window {addr : BitVec 18} (h : 0x10000 ≤ addr.toNat) : ∃ b, bankOf? addr.toNat = some b := by
  have hq : addr.toNat / 0x10000 = 1 ∨ addr.toNat / 0x10000 = 2 ∨ addr.toNat / 0x10000 = 3 := by omega
  rcases hq with hq | hq | hq
  · exact ⟨.A, bankOf?_of_div_eq hq⟩
  · exact ⟨.B, bankOf?_of_div_eq hq⟩
  · exact ⟨.C, bankOf?_of_div_eq hq⟩

theorem bankOf?_eq_none {a : Nat} (h : a < 0x10000) : bankOf? a = none := by
  simp [bankOf?, Nat.div_eq_of_lt h]

/-- In a bank's window stand the words below NMAX, and nothing above them (R84). -/
theorem targetOf_window (c : Config) {a : Nat} {b : Bank} (h : bankOf? a = some b) :
    targetOf c a = if a % 0x10000 / 8 < c.nmax then .bank b (a % 0x10000 / 8) else .unmapped := by
  rw [targetOf, h]

/-- No register stands after GZ_COEF (R84). -/
theorem Reg.at?_eq_none {a : Nat} (h : 0x68 ≤ a) : Reg.at? a = none := by
  cases hr : Reg.at? a with
  | none => rfl
  | some r =>
    have hlast : r.offset ≤ 0x60 := by cases r <;> decide
    have ha : a = r.offset := offset_of_at? hr
    omega

/-- Between the registers and the banks stands nothing (R84). -/
theorem targetOf_gap (c : Config) {a : Nat} (hlow : 0x68 ≤ a) (hhigh : a < 0x10000) : targetOf c a = .unmapped := by
  rw [targetOf, bankOf?_eq_none hhigh, Reg.at?_eq_none hlow]

/-! ### Refused accesses -/

/-- The block refuses an access that is no aligned word, one that reaches nothing, and one that reaches a bank word while a
command runs (R83, R84, R88). -/
def RefusesAccess (s : State) (addr : BitVec 18) (bytes : Nat) : Prop :=
  isWordAccess addr bytes = true →
    targetOf s.config addr.toNat = .unmapped ∨
    s.status.busy = true ∧ ∃ b k, targetOf s.config addr.toNat = .bank b k

/-- A refused read gets SLVERR and data 0, and changes nothing else (R95). -/
theorem RefusesAccess.hostRead {s : State} {addr : BitVec 18} {bytes : Nat} (h : RefusesAccess s addr bytes) :
    hostRead addr bytes s = respond (.readError 0) s := by
  unfold Machine.hostRead
  split
  · next hw =>
    rcases h hw with ht | ⟨hb, b, k, ht⟩
    · rw [ht]
    · simp only [ht, hb, if_true]
  · rfl

/-- A refused write gets SLVERR, and changes nothing else (R95). -/
theorem RefusesAccess.hostWrite {s : State} {addr : BitVec 18} {bytes : Nat} (h : RefusesAccess s addr bytes) (v : Word) :
    hostWrite addr bytes v s = .next (respond .writeError s) := by
  unfold Machine.hostWrite
  split
  · next hw =>
    rcases h hw with ht | ⟨hb, b, k, ht⟩
    · rw [ht]
    · simp only [ht, hb, if_true]
  · rfl

/-- A running command has every access in a bank's window refused, mapped or not (R88). -/
theorem refusesAccess_of_busy {s : State} {addr : BitVec 18} (bytes : Nat) (hb : s.status.busy = true)
    (ha : 0x10000 ≤ addr.toNat) : RefusesAccess s addr bytes := by
  intro _
  obtain ⟨b, hbank⟩ := exists_bankOf?_of_window ha
  rw [targetOf_window s.config hbank]
  split
  · exact .inr ⟨hb, b, _, rfl⟩
  · exact .inl rfl

/-- Settles O31: a running command has every access in a bank's window refused. -/
theorem bankAccessWhileBusyIsRefused : Obligations.BankAccessWhileBusyIsRefused := by
  intro addr bytes v s hb ha
  have h := refusesAccess_of_busy bytes hb ha
  exact ⟨h.hostRead, h.hostWrite v⟩

theorem refusesAccess_of_not_wordAccess {s : State} {addr : BitVec 18} {bytes : Nat}
    (h : bytes ≠ 8 ∨ addr.toNat % 8 ≠ 0) : RefusesAccess s addr bytes := by
  intro hw
  obtain ⟨h8, halign⟩ := isWordAccess_eq_true.1 hw
  omega

theorem refusesAccess_of_unmapped {s : State} {addr : BitVec 18} (bytes : Nat)
    (h : targetOf s.config addr.toNat = .unmapped) : RefusesAccess s addr bytes :=
  fun _ => .inl h

/-- Settles O32, by what makes the access bad: its shape, the gap below the banks, the end of a bank. -/
theorem badAccessesChangeNothing : Obligations.BadAccessesChangeNothing := by
  intro addr bytes v s hbad
  have h : RefusesAccess s addr bytes := by
    rcases hbad with hwidth | halign | ⟨hlow, hhigh⟩ | ⟨hlow, hend⟩
    · exact refusesAccess_of_not_wordAccess (.inl hwidth)
    · exact refusesAccess_of_not_wordAccess (.inr halign)
    · exact refusesAccess_of_unmapped bytes (targetOf_gap s.config hlow hhigh)
    · obtain ⟨b, hbank⟩ := exists_bankOf?_of_window hlow
      have hout : ¬ addr.toNat % 0x10000 / 8 < s.config.nmax := by omega
      exact refusesAccess_of_unmapped bytes (by rw [targetOf_window s.config hbank, if_neg hout])
  exact ⟨h.hostRead, h.hostWrite v⟩

/-! ### Reads have no side effects -/

theorem readReg_respond (r : BusResponse) (s : State) (reg : Reg) : readReg (respond r s) reg = readReg s reg := by
  cases reg <;> rfl

theorem bankReadData_respond (r : BusResponse) (s : State) (b : Bank) (k : Nat) :
    bankReadData (respond r s) b k = bankReadData s b k := rfl

theorem respond_respond (r r' : BusResponse) (s : State) : respond r (respond r' s) = respond r s := rfl

/-- What a read answers does not depend on the response before it (R90). -/
theorem hostRead_respond (addr : BitVec 18) (bytes : Nat) (r : BusResponse) (s : State) :
    hostRead addr bytes (respond r s) = hostRead addr bytes s := by
  unfold hostRead
  rw [respond_config]
  split
  · split
    · rw [readReg_respond, respond_respond]
    · rw [respond_status, bankReadData_respond, respond_respond, respond_respond]
    · rw [respond_respond]
  · rw [respond_respond]

/-- Settles O33: a read is a response, and reads the same after any response. -/
theorem readsHaveNoSideEffects : Obligations.ReadsHaveNoSideEffects := by
  intro addr bytes s
  obtain ⟨r, hr⟩ := hostRead_eq_respond addr bytes s
  constructor
  · calc hostRead addr bytes (hostRead addr bytes s)
        = hostRead addr bytes (respond r s) := by rw [hr]
      _ = hostRead addr bytes s := hostRead_respond addr bytes r s
  · rw [hr]
    rfl

/-! ### Bank words on the bus -/

/-- Byte `j` of a word is its bits `8j` to `8j+7` (R82). -/
theorem getElem?_bytesOfWord {n j : Nat} (w : Word) (h : j < n) :
    (bytesOfWord n w)[j]? = some (w.extractLsb' (8 * j) 8) := by
  induction n generalizing j w with
  | zero => omega
  | succ n ih =>
    cases j with
    | zero => rfl
    | succ j =>
      rw [bytesOfWord, List.getElem?_cons_succ, ih _ (by omega)]
      congr 1
      ext i hi
      simp [show 8 + (8 * j + i) = 8 * (j + 1) + i by omega]

/-- A bank word that is written has its lowest byte first (R82). -/
theorem byte?_setBankWord_same (m : Memory) (b : Bank) (k : Nat) (v : Word) {j : Nat} (h : j < 8) :
    (setBankWord m b k v).byte? (wordOffset b k + j) = some (v.extractLsb' (8 * j) 8) := by
  rw [setBankWord, Memory.setWord, byte?_setBytes, if_pos (by rw [length_bytesOfWord]; omega), Nat.add_sub_cancel_left,
    getElem?_bytesOfWord v h]

/-- A bank's window has room for the largest legal bank (R84). -/
theorem bankOf?_wordOffset {b : Bank} {k : Nat} (h : k < 8192) : bankOf? (wordOffset b k) = some b := by
  apply bankOf?_of_div_eq
  cases b <;> simp only [wordOffset, bankBase] <;> omega

theorem wordOffset_index {b : Bank} {k : Nat} (h : k < 8192) : wordOffset b k % 0x10000 / 8 = k := by
  cases b <;> simp only [wordOffset, bankBase] <;> omega

theorem toNat_wordOffset {b : Bank} {k : Nat} (h : k < 8192) :
    (BitVec.ofNat 18 (wordOffset b k)).toNat = wordOffset b k := by
  have hlt : wordOffset b k < 2 ^ 18 := by cases b <;> simp only [wordOffset, bankBase] <;> omega
  rw [BitVec.toNat_ofNat, Nat.mod_eq_of_lt hlt]

/-- The state a host write of a bank word answers: the word and the response (R86). -/
def bankWordWritten (s : State) (b : Bank) (k : Nat) (v : Word) : State :=
  { respond .writeOkay s with mem := setBankWord s.mem b k v }

section Idle

/-! A word inside a bank of a legal build, with no command running. -/

variable {s : State} {b : Bank} {k : Nat} (hv : s.config.valid = true) (hb : s.status.busy = false)
  (hk : k < s.config.nmax)
include hv hk

theorem isWordAccess_wordOffset : isWordAccess (BitVec.ofNat 18 (wordOffset b k)) 8 = true := by
  have hmax := nmax_le_of_valid hv
  rw [isWordAccess_eq_true, toNat_wordOffset (by omega)]
  exact ⟨rfl, by cases b <;> simp only [wordOffset, bankBase] <;> omega⟩

/-- At its offset stands the word of the bank (R84). -/
theorem targetOf_wordOffset : targetOf s.config (BitVec.ofNat 18 (wordOffset b k)).toNat = .bank b k := by
  have hmax := nmax_le_of_valid hv
  have hk' : k < 8192 := by omega
  rw [toNat_wordOffset hk', targetOf_window s.config (bankOf?_wordOffset hk'), wordOffset_index hk', if_pos hk]

include hb

/-- A read of a written word is OKAY with that word (R87). -/
theorem hostRead_bankWord {w : Word} (hw : bankWord? s.mem b k = some w) :
    hostRead (BitVec.ofNat 18 (wordOffset b k)) 8 s = respond (.readOkay w) s := by
  rw [hostRead, if_pos (isWordAccess_wordOffset hv hk), targetOf_wordOffset hv hk]
  simp [hb, bankReadData, hw]

/-- A write of a bank word is OKAY and writes that word alone (R86). -/
theorem hostWrite_bankWord (v : Word) :
    hostWrite (BitVec.ofNat 18 (wordOffset b k)) 8 v s = .next (bankWordWritten s b k v) := by
  rw [hostWrite, if_pos (isWordAccess_wordOffset hv hk), targetOf_wordOffset hv hk]
  simp [hb, bankWordWritten]

end Idle

/-- Settles O30: the write sets the word in memory, and the read finds it there. -/
theorem bankWordsReadBackAsWritten : Obligations.BankWordsReadBackAsWritten := by
  refine ⟨fun k => ⟨rfl, rfl, rfl⟩, fun b k w s hv hb hk hw => hostRead_bankWord hv hb hk hw, fun b k v s hv hb hk => ?_⟩
  have hsame : bankWord? (bankWordWritten s b k v).mem b k = some v := bankWord?_setBankWord_same s.mem b k v
  have hread := hostRead_bankWord (s := bankWordWritten s b k v) hv hb hk hsame
  exact ⟨bankWordWritten s b k v, hostWrite_bankWord hv hb hk v, hsame, hread,
    fun j hj => byte?_setBankWord_same s.mem b k v hj, fun a ha => byte?_setBankWord s.mem b k v ha, rfl⟩

end Sys2Proof.Machine

/-! PROOFS. The encoding family of spec/30_encoding.md: what each part of the decoder accepts, and that the decoder accepts a
command's own word and no other. -/

namespace Sys2Proof

/-! ### The parts of the decoder -/

/-- A decoder that reads one part and then goes on accepts exactly when both accept. -/
theorem bind_eq_ok_iff {α β : Type} {x : Except DecodeReject α} {f : α → Except DecodeReject β} {b : β} :
    (x >>= f) = .ok b ↔ ∃ a, x = .ok a ∧ f a = .ok b := by
  cases x with
  | ok a => simp [bind, Except.bind]
  | error e => simp [bind, Except.bind]

theorem zeroField_eq_ok_iff {c : BitVec 2} {u : Unit} : zeroField c = .ok u ↔ c = 0#2 := by
  by_cases h : c = 0#2 <;> simp [zeroField, h]

/-- A bank field is accepted for the bank whose code it holds (R123). -/
theorem bankOfCode_eq_ok_iff {c : BitVec 2} {b : Bank} : bankOfCode c = .ok b ↔ c.toNat = b.code := by
  revert c
  cases b <;> decide

/-! ### A word and its fields (R120) -/

/-- The word whose fields OP, BA, BB and BC are these and whose RES is zero. -/
def wordOfFields (op : BitVec 4) (ba bb bc : BitVec 2) : Word :=
  BitVec.ofNat 64 (op.toNat + ba.toNat * 2 ^ 4 + bb.toNat * 2 ^ 6 + bc.toNat * 2 ^ 8)

/-- A word with a zero RES is the sum of its other fields. -/
theorem eq_wordOfFields_of_resField {v : Word} (h : resField v = 0#54) :
    v = wordOfFields (opField v) (baField v) (bbField v) (bcField v) := by
  have hres : v.toNat / 2 ^ 10 % 2 ^ 54 = 0 := by
    simpa [resField, Nat.shiftRight_eq_div_pow] using congrArg BitVec.toNat h
  apply BitVec.eq_of_toNat_eq
  simp only [wordOfFields, opField, baField, bbField, bcField, BitVec.extractLsb'_toNat, BitVec.toNat_ofNat,
    Nat.shiftRight_eq_div_pow]
  omega

/-- The fields of an accepted word make up the command's own word: the fields a command does not use are zero (R122), the
others hold the codes of its banks (R123). -/
theorem encode_of_decodeFields {op : BitVec 4} {ba bb bc : BitVec 2} {i : Instr}
    (h : decodeFields op ba bb bc = .ok i) : encode i = wordOfFields op ba bb bc := by
  unfold decodeFields at h
  split at h
  case h_8 => cases h
  all_goals
    simp only [bind_eq_ok_iff, zeroField_eq_ok_iff, bankOfCode_eq_ok_iff, pure, Except.pure, Except.ok.injEq,
      exists_const] at h
  case h_1 hop | h_2 hop | h_5 hop =>
    obtain ⟨hc, ra, ha, rb, hb, rfl⟩ := h
    simp [encode, wordOfFields, hop, ha, hb, hc]
  case h_3 hop | h_4 hop | h_7 hop =>
    obtain ⟨hb, hc, ra, ha, rfl⟩ := h
    simp [encode, wordOfFields, hop, ha, hb, hc]
  case h_6 hop =>
    obtain ⟨ra, ha, rb, hb, rc, hc, rfl⟩ := h
    simp [encode, wordOfFields, hop, ha, hb, hc]

/-! ### The statements -/

/-- An accepted word is its command's own word (R120 to R125). -/
theorem eq_encode_of_decode {v : Word} {i : Instr} (h : decode v = .ok i) : v = encode i := by
  unfold decode at h
  split at h
  case isTrue hres => rw [encode_of_decodeFields h, ← eq_wordOfFields_of_resField hres]
  case isFalse => cases h

/-- Settles O1: the decoder accepts every command's word, and the fields of an accepted word are those of its command's. -/
theorem decodeEncodeAgreeBothWays : Obligations.DecodeEncodeAgreeBothWays := by
  intro v i
  constructor
  · exact eq_encode_of_decode
  · rintro rfl
    exact Laws.RoundTrip.all i

/-- Settles O3: each example word is its command's word, and the last two words break R125 (b) and (a). -/
theorem exampleWordsDecode : Obligations.ExampleWordsDecode := by
  have own {v : Word} {i : Instr} (h : v = encode i) : decode v = .ok i := (decodeEncodeAgreeBothWays v i).2 h
  exact ⟨own rfl, own rfl, own rfl, own rfl, own rfl, own rfl, own rfl, own rfl, rfl, rfl⟩

end Sys2Proof

/-! PROOFS. The numerics family of spec/40_numerics.md: what one rounding is nearest to and where it overflows, the operations
by the class of their operands, the square root, the TRIG units, and the fixed point of the Goertzel datapath. -/

namespace Sys2Proof.Machine

open Sys2Proof

/-! ### One rounding (R150) -/

/-- The nearest whole number is at most half a unit off, on either side, and even where it is half a unit off. -/
theorem nearestEven_half {num den : Nat} (hd : 0 < den) :
    2 * num ≤ 2 * (nearestEven num den * den) + den ∧ 2 * (nearestEven num den * den) ≤ 2 * num + den ∧
      (2 * num = 2 * (nearestEven num den * den) + den ∨ 2 * (nearestEven num den * den) = 2 * num + den →
        nearestEven num den % 2 = 0) := by
  have hdiv : num / den * den + num % den = num := Nat.div_add_mod' num den
  have hlt : num % den < den := Nat.mod_lt num hd
  unfold nearestEven
  split
  · next h =>
    simp only [Bool.or_eq_true, Bool.and_eq_true, decide_eq_true_eq, beq_iff_eq] at h
    have hsucc : (num / den + 1) * den = num / den * den + den := Nat.succ_mul _ _
    omega
  · next h =>
    simp only [Bool.or_eq_true, Bool.and_eq_true, decide_eq_true_eq, beq_iff_eq] at h
    omega

/-- No whole number is nearer than the nearest one, and where another is as near, that one is even. -/
theorem nearestEven_nearest {num den : Nat} (hd : 0 < den) (k : Nat) :
    ((num : Int) - (nearestEven num den * den : Nat)).natAbs ≤ ((num : Int) - (k * den : Nat)).natAbs ∧
      (k ≠ nearestEven num den →
        ((num : Int) - (nearestEven num den * den : Nat)).natAbs = ((num : Int) - (k * den : Nat)).natAbs →
        nearestEven num den % 2 = 0) := by
  obtain ⟨hupper, hlower, heven⟩ := nearestEven_half (num := num) hd
  rcases Nat.lt_trichotomy k (nearestEven num den) with h | h | h
  · have hgap : k * den + den ≤ nearestEven num den * den := by
      rw [← Nat.succ_mul]
      exact Nat.mul_le_mul_right den h
    omega
  · simp [h]
  · have hgap : nearestEven num den * den + den ≤ k * den := by
      rw [← Nat.succ_mul]
      exact Nat.mul_le_mul_right den h
    omega

/-- A finite value lies on a grid of powers of two, or below the grid's first value of 53 bits. -/
theorem dvd_or_lt_of_fin {w : Word} {neg : Bool} {v : Nat} (h : classify w = .fin neg v) (sh : Nat) :
    2 ^ sh ∣ v ∨ v < 2 ^ 52 * 2 ^ sh := by
  obtain ⟨m, -, -, rfl⟩ := classify_eq_fin.1 h
  obtain ⟨k, e, hk, -, -, hv⟩ := unitsOf_eq m
  rw [hv]
  rcases Nat.lt_or_ge e sh with he | he
  · right
    calc k * 2 ^ e < 2 ^ 53 * 2 ^ e := Nat.mul_lt_mul_of_pos_right hk (by positivity)
      _ = 2 ^ 52 * 2 ^ (e + 1) := by rw [Nat.pow_succ 2 e]; ring
      _ ≤ 2 ^ 52 * 2 ^ sh := Nat.mul_le_mul_left _ (Nat.pow_le_pow_right (by omega) he)
  · left
    exact Dvd.dvd.mul_left (Nat.pow_dvd_pow 2 he) k

/-- The quotient is at its spacing's grid: at most 53 bits, and 53 where the spacing is above a unit. -/
theorem num_at_spacing {num den : Nat} (hd : 0 < den) :
    num < 2 ^ 53 * (den * 2 ^ spacing num den) ∧
      (spacing num den = 0 ∨ 2 ^ 52 * (den * 2 ^ spacing num den) ≤ num) := by
  obtain ⟨hlt, hle⟩ := quotient_at_spacing (num := num) (den := den)
  have hD : 0 < den * 2 ^ spacing num den := by positivity
  exact ⟨(Nat.div_lt_iff_lt_mul hD).1 hlt, hle.imp_right (Nat.le_div_iff_mul_le hD).1⟩

/-- The significand at its spacing passes the largest finite pattern exactly from half a spacing above the largest finite value
on. -/
theorem infMagnitude_le_iff {num den : Nat} (hd : 0 < den) :
    infMagnitude ≤ spacing num den * 2 ^ 52 + nearestEven num (den * 2 ^ spacing num den) ↔ overflowUnits * den ≤ num := by
  obtain ⟨hnum, hnum'⟩ := num_at_spacing (num := num) hd
  obtain ⟨hupper, hlower, heven⟩ := nearestEven_half (num := num) (den := den * 2 ^ spacing num den) (by positivity)
  obtain ⟨hbits, hbits'⟩ := quotient_at_spacing (num := num) (den := den)
  obtain ⟨hfloor, hceil⟩ := nearestEven_bounds num (den * 2 ^ spacing num den)
  generalize nearestEven num (den * 2 ^ spacing num den) = n at *
  generalize num / (den * 2 ^ spacing num den) = q at *
  generalize spacing num den = sh at *
  have grow : ∀ a b : Nat, a ≤ b → den * 2 ^ a ≤ den * 2 ^ b :=
    fun _ _ h => Nat.mul_le_mul_left den (Nat.pow_le_pow_right Nat.two_pos h)
  have double : ∀ a : Nat, den * 2 ^ (a + 1) = 2 * (den * 2 ^ a) := fun a => by ring
  have hP : 0 < den * 2 ^ 2044 := by positivity
  have hover : overflowUnits * den = (2 ^ 54 - 1) * (den * 2 ^ 2044) := by
    rw [overflowUnits, Nat.mul_assoc, Nat.mul_comm den]
  rw [hover, infMagnitude]
  generalize hgrid : den * 2 ^ sh = D at *
  rcases Nat.lt_trichotomy sh 2045 with h | h | h
  · have hD : D ≤ den * 2 ^ 2044 := hgrid ▸ grow sh 2044 (Nat.le_of_lt_succ h)
    omega
  · obtain rfl : sh = 2044 + 1 := h
    rw [double] at hgrid
    generalize den * 2 ^ 2044 = P at *
    subst hgrid
    rcases Nat.lt_trichotomy n (2 ^ 53 - 1) with hn | hn | hn
    · have : n * (2 * P) ≤ (2 ^ 53 - 2) * (2 * P) := Nat.mul_le_mul_right _ (by omega)
      omega
    · subst hn
      omega
    · have : 2 ^ 53 * (2 * P) ≤ n * (2 * P) := Nat.mul_le_mul_right _ (by omega)
      omega
  · have hD : den * 2 ^ (2044 + 1 + 1) ≤ D := hgrid ▸ grow (2044 + 1 + 1) sh h
    rw [double, double] at hD
    omega

/-- A rounding answers the infinity from half a spacing above the largest finite value on. -/
theorem classify_roundTo_of_overflow (neg : Bool) {num den : Nat} (hd : 0 < den) (h : overflowUnits * den ≤ num) :
    classify (roundTo neg num den) = .inf neg := by
  rw [classify_roundTo, if_pos ((infMagnitude_le_iff hd).2 h)]

/-- Below that a rounding answers the nearest multiple of the spacing. -/
theorem classify_roundTo_of_fits (neg : Bool) {num den : Nat} (hd : 0 < den) (h : num < overflowUnits * den) :
    classify (roundTo neg num den) =
      .fin neg (nearestEven num (den * 2 ^ spacing num den) * 2 ^ spacing num den) := by
  rw [classify_roundTo, if_neg fun hi => absurd ((infMagnitude_le_iff hd).1 hi) (by omega)]

/-- The lowest bit of a finite rounding is that of its significand. -/
theorem getLsbD_zero_roundTo (neg : Bool) {num den : Nat} (hd : 0 < den) (h : num < overflowUnits * den) :
    (roundTo neg num den).getLsbD 0 = decide (nearestEven num (den * 2 ^ spacing num den) % 2 = 1) := by
  have hfits : ¬ infMagnitude ≤ _ := fun hi => absurd ((infMagnitude_le_iff hd).1 hi) (Nat.not_le.2 h)
  rw [roundTo, roundMagnitude, Nat.min_eq_left (by omega), BitVec.getLsbD, toNat_pack (by unfold infMagnitude at hfits; omega),
    Nat.testBit_zero]
  congr 2
  cases neg <;> simp <;> omega

/-- What a rounding answers is the nearest of all finite values, and has an even fraction where another is as near. -/
theorem roundTo_nearest {neg g : Bool} {num den r v : Nat} {w : Word} (hd : 0 < den)
    (hr : classify (roundTo neg num den) = .fin neg r) (hv : classify w = .fin g v) :
    ((num : Int) - r * den).natAbs ≤ ((num : Int) - v * den).natAbs ∧
      (v ≠ r → ((num : Int) - r * den).natAbs = ((num : Int) - v * den).natAbs →
        (roundTo neg num den).getLsbD 0 = false) := by
  have hfits : num < overflowUnits * den := by
    by_contra hover
    rw [classify_roundTo_of_overflow neg hd (by omega)] at hr
    cases hr
  rw [classify_roundTo_of_fits neg hd hfits, Num.fin.injEq] at hr
  have hbit := getLsbD_zero_roundTo neg hd hfits
  obtain ⟨-, hgrid⟩ := num_at_spacing (num := num) hd
  have hD : 0 < den * 2 ^ spacing num den := by positivity
  have hnear := nearestEven_nearest (num := num) hD
  rw [hbit]
  generalize nearestEven num (den * 2 ^ spacing num den) = n at *
  have hrD : (r : Int) * den = (n * (den * 2 ^ spacing num den) : Nat) := by rw [← hr.2]; push_cast; ring
  rw [hrD]
  have hcases : 2 ^ spacing num den ∣ v ∨
      v * den < 2 ^ 52 * (den * 2 ^ spacing num den) ∧ 2 ^ 52 * (den * 2 ^ spacing num den) ≤ num := by
    rcases hgrid with h0 | hge
    · exact .inl (by rw [h0]; exact Nat.one_dvd v)
    · refine (dvd_or_lt_of_fin hv (spacing num den)).imp_right fun hsmall => ⟨?_, hge⟩
      calc v * den < 2 ^ 52 * 2 ^ spacing num den * den := Nat.mul_lt_mul_of_pos_right hsmall hd
        _ = 2 ^ 52 * (den * 2 ^ spacing num den) := by ring
  rcases hcases with ⟨k, hk⟩ | ⟨hlow, hge⟩
  · have hvD : (v : Int) * den = (k * (den * 2 ^ spacing num den) : Nat) := by rw [hk]; push_cast; ring
    obtain ⟨hle, heven⟩ := hnear k
    rw [hvD]
    refine ⟨hle, fun hne htie => ?_⟩
    have := heven (by rintro rfl; exact hne (by rw [hk, ← hr.2, Nat.mul_comm])) htie
    simp [this]
  · obtain ⟨hle, -⟩ := hnear (2 ^ 52)
    have hvD : (v : Int) * den = (v * den : Nat) := by push_cast; rfl
    rw [hvD]
    omega

/-! ### Sums and differences (R151) -/

theorem signed_not (neg : Bool) (u : Nat) : signed (!neg) u = -signed neg u := by
  cases neg <;> simp [signed]

/-- The sign and the magnitude of a signed magnitude that is not zero are its own. -/
theorem roundTo_signed {neg : Bool} {u den : Nat} (h : signed neg u ≠ 0) :
    roundTo (decide (signed neg u < 0)) (signed neg u).natAbs den = roundTo neg u den := by
  cases neg
  · rw [show decide (signed false u < 0) = false from decide_eq_false (by simp [signed])]
    rfl
  · have hneg : signed true u < 0 := by
      simp only [signed, if_true] at h ⊢
      omega
    rw [decide_eq_true hneg, show (signed true u).natAbs = u by simp [signed]]

/-- A sum of finite values is one rounding of the exact sum; where that is zero it is `+0`, but `-0` for two negative zeros. -/
theorem addFinite_eq (na nb : Bool) (ua ub : Nat) :
    addFinite na ua nb ub =
      if signed na ua + signed nb ub = 0 then pack (na && nb) 0
      else roundTo (decide (signed na ua + signed nb ub < 0)) (signed na ua + signed nb ub).natAbs 1 := by
  unfold addFinite
  by_cases hsign : na = nb
  · subst hsign
    have hsum : signed na ua + signed na ub = signed na (ua + ub) := by cases na <;> simp [signed]; omega
    rw [if_pos (beq_self_eq_true na), hsum, Bool.and_self]
    split
    · next hzero =>
      have : ua + ub = 0 := by cases na <;> simp [signed] at hzero ⊢ <;> omega
      rw [this, roundTo_zero]
    · next hne => exact (roundTo_signed hne).symm
  · obtain rfl : nb = !na := Bool.eq_not_of_ne (Ne.symm hsign)
    rw [if_neg (by simp), signed_not, Bool.and_not_self]
    rcases Nat.lt_trichotomy ub ua with hlt | rfl | hlt
    · have hdiff : signed na ua + -signed na ub = signed na (ua - ub) := by cases na <;> simp [signed] <;> omega
      have hne : signed na (ua - ub) ≠ 0 := by cases na <;> simp [signed] <;> omega
      rw [if_pos hlt, hdiff, if_neg hne, roundTo_signed hne]
    · simp
    · have hdiff : signed na ua + -signed na ub = signed (!na) (ub - ua) := by cases na <;> simp [signed] <;> omega
      have hne : signed (!na) (ub - ua) ≠ 0 := by cases na <;> simp [signed] <;> omega
      rw [if_neg (by omega), if_pos hlt, hdiff, if_neg hne, roundTo_signed hne]

/-- A difference of finite values is the sum with the second one's sign changed. -/
theorem fsub_fin {a b : Word} {na nb : Bool} {ua ub : Nat} (ha : classify a = .fin na ua) (hb : classify b = .fin nb ub) :
    fsub a b = addFinite na ua (!nb) ub :=
  fadd_fin ha (by rw [classify_fneg, hb])

theorem fdiv_zero {a b : Word} {na nb : Bool} {ua : Nat} (ha : classify a = .fin na ua) (hb : classify b = .fin nb 0) :
    fdiv a b = if ua = 0 then canonNaN else pack (na ^^ nb) infMagnitude := by
  simp only [fdiv, ha, hb, if_true]

/-- The zeros an exact sum or difference answers. -/
theorem pack_zero {neg : Bool} {p : Prop} [Decidable p] (h : neg = true ↔ p) :
    pack neg 0 = if p then 0x8000000000000000#64 else 0#64 := by
  simp only [← h]
  cases neg <;> decide

/-- Settles O40: a rounding by where it overflows and what is nearest, an operation by the rounding it is. -/
theorem roundingIsToNearestEven : Obligations.RoundingIsToNearestEven := by
  refine ⟨fun neg num den hd => ?_, fun a b na nb ua ub ha hb => ⟨fmul_fin ha hb, fdiv_fin ha hb, ?_, ?_, ?_⟩, fun i => rfl⟩
  · rcases Nat.lt_or_ge num (overflowUnits * den) with hfits | hover
    · have hr := classify_roundTo_of_fits neg hd hfits
      exact .inr ⟨_, hr, hfits, fun w g v hv => roundTo_nearest hd hr hv⟩
    · exact .inl ⟨classify_roundTo_of_overflow neg hd hover, hover⟩
  · rintro rfl hne
    rw [fdiv_zero ha hb, if_neg hne]
    exact classify_pack_inf _
  · rintro z rfl
    rw [fadd_fin ha hb, addFinite_eq]
    exact ⟨fun hne => if_neg hne, fun hzero => (if_pos hzero).trans (pack_zero (by simp))⟩
  · intro z hz
    obtain rfl : z = signed na ua + signed (!nb) ub := by rw [hz, signed_not, ← Int.sub_eq_add_neg]; rfl
    rw [fsub_fin ha hb, addFinite_eq]
    exact ⟨fun hne => if_neg hne, fun hzero => (if_pos hzero).trans (pack_zero (by simp))⟩

/-- Settles O45: the exact difference of equal values is zero; the other clauses are closed. -/
theorem exactZerosArePositive : Obligations.ExactZerosArePositive := by
  refine ⟨fun a neg u ha => ?_, by decide, by decide, by decide⟩
  rw [fsub_fin ha ha, addFinite_eq, signed_not, Int.add_right_neg, if_pos rfl, Bool.and_not_self]
  rfl

/-! ### Exact results -/

theorem mul_two_pow_lt {k a e b : Nat} (hk : k < 2 ^ a) (h : a + e ≤ b) : k * 2 ^ e < 2 ^ b := by
  calc k * 2 ^ e < 2 ^ a * 2 ^ e := Nat.mul_lt_mul_of_pos_right hk (by positivity)
    _ = 2 ^ (a + e) := (Nat.pow_add 2 a e).symm
    _ ≤ 2 ^ b := Nat.pow_le_pow_right Nat.two_pos h

/-- A finite value is a significand below `2^53` times a power of two, and below `2^2098` units (R150). -/
theorem exists_significand {w : Word} {neg : Bool} {u : Nat} (h : classify w = .fin neg u) :
    ∃ k e, k < 2 ^ 53 ∧ u = k * 2 ^ e ∧ k * 2 ^ e < 2 ^ 2098 := by
  obtain ⟨m, hm, -, rfl⟩ := classify_eq_fin.1 h
  obtain ⟨k, e, hk, hnormal, hmk, hu⟩ := unitsOf_eq m
  have he : e ≤ 2045 := by unfold infMagnitude at hm; omega
  exact ⟨k, e, hk, hu, mul_two_pow_lt hk (by omega)⟩

theorem overflowUnits_lt : overflowUnits < 2 ^ 2098 := mul_two_pow_lt (a := 54) (by omega) (by omega)

/-- The product of finite values does not depend on their order (R152). -/
theorem fmul_comm (a b : Word) : fmul a b = fmul b a := by
  cases ha : classify a <;> cases hb : classify b <;> simp [fmul, ha, hb, Bool.xor_comm, Nat.mul_comm]

/-- Scaling by a power of two is exact unless it overflows (R152). -/
theorem classify_fmul_pow_two {a b : Word} {neg : Bool} {u f : Nat} (ha : classify a = .fin neg u)
    (hb : classify b = .fin false (2 ^ f * oneUnits)) :
    classify (fmul a b) = if u * 2 ^ f < 2 ^ 2098 then .fin neg (u * 2 ^ f) else .inf neg := by
  rw [fmul_fin ha hb, Bool.xor_false]
  split
  · next hfits =>
    obtain ⟨k, e, hk, rfl, -⟩ := exists_significand ha
    have hexp : k * 2 ^ e * 2 ^ f = k * 2 ^ (e + f) := by rw [Nat.mul_assoc, ← Nat.pow_add]
    rw [hexp] at hfits ⊢
    refine classify_roundTo_exact oneUnits_pos hk.le ?_ hfits
    rw [← Nat.mul_assoc, hexp]
  · next hover =>
    refine classify_roundTo_of_overflow neg oneUnits_pos ?_
    rw [← Nat.mul_assoc]
    exact Nat.mul_le_mul_right _ (overflowUnits_lt.le.trans (Nat.not_lt.1 hover))

/-- A power of two converts exactly (R154). -/
theorem classify_toF64_two_pow {l : Nat} (h : l ≤ 53) : classify (toF64 (2 ^ l)) = .fin false (2 ^ l * oneUnits) := by
  have hexact := classify_toF64_natCast (n := 2 ^ l) (Nat.pow_le_pow_right Nat.two_pos h)
  rwa [Nat.cast_pow, Nat.cast_ofNat] at hexact

theorem f64Two_eq : f64Two = toF64 (2 ^ 1) := by decide +kernel

/-- A divisor of a value by a power of two has a significand of at most 53 bits too. -/
theorem exists_significand_of_dvd {w : Word} {neg : Bool} {l c : Nat} (h : classify w = .fin neg (2 ^ l * c)) :
    ∃ k e, k < 2 ^ 53 ∧ c = k * 2 ^ e ∧ k * 2 ^ e < 2 ^ 2098 := by
  obtain ⟨k, e, hk, hc, hlt⟩ := exists_significand h
  have hcle : c ≤ 2 ^ l * c := Nat.le_mul_of_pos_left c (by positivity)
  rcases Nat.le_total l e with hle | hle
  · have hc' : c = k * 2 ^ (e - l) := by
      refine Nat.eq_of_mul_eq_mul_left (show 0 < 2 ^ l by positivity) ?_
      rw [hc, Nat.mul_left_comm, ← Nat.pow_add, Nat.add_sub_cancel' hle]
    exact ⟨k, e - l, hk, hc', by omega⟩
  · have hk' : k = 2 ^ (l - e) * c := by
      refine Nat.eq_of_mul_eq_mul_right (show 0 < 2 ^ e by positivity) ?_
      rw [← hc, Nat.mul_right_comm, ← Nat.pow_add, Nat.sub_add_cancel hle]
    have hck : c ≤ k := hk' ▸ Nat.le_mul_of_pos_left c (by positivity)
    exact ⟨c, 0, by omega, by omega, by omega⟩

/-- Settles O43: a power of two only moves the exponent of the significand. -/
theorem powersOfTwoScaleExactly : Obligations.PowersOfTwoScaleExactly := by
  intro a neg u ha
  have hdouble : classify (fmul f64Two a) = if u * 2 ^ 1 < 2 ^ 2098 then .fin neg (u * 2 ^ 1) else .inf neg := by
    rw [fmul_comm, f64Two_eq]
    exact classify_fmul_pow_two ha (classify_toF64_two_pow (by omega))
  rw [Nat.pow_one, Nat.mul_comm] at hdouble
  refine ⟨fun h => hdouble.trans (if_pos h), fun h => hdouble.trans (if_neg (Nat.not_lt.2 h)), fun l hl hdvd => ?_⟩
  obtain ⟨c, rfl⟩ := Nat.dvd_of_mod_eq_zero hdvd
  obtain ⟨k, e, hk, rfl, hlt⟩ := exists_significand_of_dvd ha
  have hpos : 0 < 2 ^ l * oneUnits := Nat.mul_pos (by positivity) oneUnits_pos
  rw [fdiv_fin ha (classify_toF64_two_pow (by omega)) hpos.ne', Bool.xor_false, Nat.mul_div_cancel_left _ (by positivity)]
  exact classify_roundTo_exact hpos hk.le (by ring) hlt

/-- Settles O44: such an integer is a significand at the spacing of a unit of 1.0. -/
theorem smallIntegersConvertExactly : Obligations.SmallIntegersConvertExactly := by
  intro i hi
  exact classify_roundTo_exact Nat.one_pos hi (Nat.mul_one _).symm (mul_two_pow_lt (a := 54) (by omega) (by omega))

/-! ### The round-shift (R160) -/

/-- Settles O47: the division rounds down, so half a divisor added first rounds to nearest, ties up. -/
theorem roundShiftIsNearest : Obligations.RoundShiftIsNearest := by
  intro v s
  cases s with
  | zero => simp [roundShift]
  | succ s =>
    have hpos : (0 : Int) < 2 ^ (s + 1) := by positivity
    have hdiv := Int.mul_ediv_add_emod (v + 2 ^ s) (2 ^ (s + 1))
    have hnonneg := Int.emod_nonneg (v + 2 ^ s) hpos.ne'
    have hlt := Int.emod_lt_of_pos (v + 2 ^ s) hpos
    have hhalf : (2 : Int) ^ (s + 1) = 2 * 2 ^ s := Int.pow_succ' 2 s
    rw [roundShift]
    omega

/-! ### The TRIG unit (R158) -/

theorem classify_f64One : classify f64One = .fin false oneUnits := by decide +kernel

/-- An admissible result is a finite value of at most 1.0 in magnitude. -/
theorem exists_classify_admissible (w : Word) : ∃ neg u, classify (admissible w) = .fin neg u ∧ u ≤ oneUnits := by
  unfold admissible
  split
  · next neg u hw =>
    split
    · next hle => exact ⟨neg, u, hw, hle⟩
    · exact ⟨false, oneUnits, classify_f64One, le_rfl⟩
  · exact ⟨false, oneUnits, classify_f64One, le_rfl⟩
  · exact ⟨false, oneUnits, classify_f64One, le_rfl⟩

/-- The cosine of a zero is 1.0, and every unit answers an admissible word elsewhere. -/
theorem cos64_fin (t : TrigUnit) {a : Word} {neg : Bool} {u : Nat} (ha : classify a = .fin neg u) :
    u = 0 ∧ cos64 t a = f64One ∨ ∃ w, cos64 t a = admissible w := by
  unfold cos64
  rw [ha]
  dsimp only
  split
  · next hzero => exact .inl ⟨hzero, rfl⟩
  · cases t with
    | reference => exact .inr ⟨_, rfl⟩
    | other id => exact .inr ⟨_, rfl⟩

/-- The sine of a zero is that zero, and every unit answers an admissible word elsewhere. -/
theorem sin64_fin (t : TrigUnit) {a : Word} {neg : Bool} {u : Nat} (ha : classify a = .fin neg u) :
    u = 0 ∧ sin64 t a = pack neg 0 ∨ ∃ w, sin64 t a = admissible w := by
  unfold sin64
  rw [ha]
  dsimp only
  split
  · next hzero => exact .inl ⟨hzero, rfl⟩
  · cases t with
    | reference => exact .inr ⟨_, rfl⟩
    | other id => exact .inr ⟨_, rfl⟩

/-- A finite argument has a finite cosine of at most 1.0 in magnitude. -/
theorem exists_classify_cos64 (t : TrigUnit) {a : Word} {neg : Bool} {u : Nat} (ha : classify a = .fin neg u) :
    ∃ neg' u', classify (cos64 t a) = .fin neg' u' ∧ u' ≤ oneUnits := by
  rcases cos64_fin t ha with ⟨-, h⟩ | ⟨w, h⟩ <;> rw [h]
  · exact ⟨false, oneUnits, classify_f64One, le_rfl⟩
  · exact exists_classify_admissible w

/-- A finite argument has a finite sine of at most 1.0 in magnitude. -/
theorem exists_classify_sin64 (t : TrigUnit) {a : Word} {neg : Bool} {u : Nat} (ha : classify a = .fin neg u) :
    ∃ neg' u', classify (sin64 t a) = .fin neg' u' ∧ u' ≤ oneUnits := by
  rcases sin64_fin t ha with ⟨-, h⟩ | ⟨w, h⟩ <;> rw [h]
  · exact ⟨neg, 0, classify_pack_zero neg, Nat.zero_le _⟩
  · exact exists_classify_admissible w

/-- An argument that is not finite has no sine and no cosine. -/
theorem trig_of_notFinite (t : TrigUnit) {a : Word} (ha : notFinite a) : cos64 t a = canonNaN ∧ sin64 t a = canonNaN := by
  cases h : classify a with
  | fin neg u => exact absurd h (ha neg u)
  | inf neg => simp only [cos64, sin64, h, and_self]
  | nan => simp only [cos64, sin64, h, and_self]

/-- Settles O46: the zeros are decided before a unit is asked, and its other answers are admissible. -/
theorem trigUnitsAreAdmissible : Obligations.TrigUnitsAreAdmissible := by
  exact ⟨⟨rfl, rfl, rfl, rfl⟩, fun t a =>
    ⟨fun g u ha => ⟨exists_classify_cos64 t ha, exists_classify_sin64 t ha⟩, trig_of_notFinite t, rfl, rfl, rfl, rfl⟩⟩

/-! ### NaN, infinite and invalid operands (R151 to R155) -/

/-- A word that is no NaN but the canonical one. -/
def NanIsCanonical (w : Word) : Prop := classify w = .nan → w = canonNaN

theorem nanIsCanonical_canonNaN : NanIsCanonical canonNaN := fun _ => rfl

theorem nanIsCanonical_roundTo (neg : Bool) (num den : Nat) : NanIsCanonical (roundTo neg num den) :=
  fun h => absurd h (classify_roundTo_ne_nan neg num den)

theorem nanIsCanonical_inf (neg : Bool) : NanIsCanonical (pack neg infMagnitude) := by
  intro h
  rw [classify_pack_inf] at h
  cases h

theorem nanIsCanonical_fin {w : Word} {neg : Bool} {u : Nat} (hw : classify w = .fin neg u) : NanIsCanonical w := by
  intro h
  rw [hw] at h
  cases h

theorem nanIsCanonical_addFinite (na nb : Bool) (ua ub : Nat) : NanIsCanonical (addFinite na ua nb ub) := by
  rw [addFinite_eq]
  split
  · exact nanIsCanonical_fin (classify_pack_zero _)
  · exact nanIsCanonical_roundTo _ _ _

theorem nanIsCanonical_fadd (a b : Word) : NanIsCanonical (fadd a b) := by
  unfold fadd
  split
  case h_1 | h_2 => exact nanIsCanonical_canonNaN
  case h_3 na nb _ _ =>
    split
    · exact nanIsCanonical_inf na
    · exact nanIsCanonical_canonNaN
  case h_4 | h_5 => exact nanIsCanonical_inf _
  case h_6 => exact nanIsCanonical_addFinite _ _ _ _

theorem nanIsCanonical_fmul (a b : Word) : NanIsCanonical (fmul a b) := by
  unfold fmul
  split
  case h_1 | h_2 => exact nanIsCanonical_canonNaN
  case h_3 => exact nanIsCanonical_inf _
  case h_4 | h_5 =>
    split
    · exact nanIsCanonical_canonNaN
    · exact nanIsCanonical_inf _
  case h_6 => exact nanIsCanonical_roundTo _ _ _

theorem nanIsCanonical_fdiv (a b : Word) : NanIsCanonical (fdiv a b) := by
  unfold fdiv
  split
  case h_1 | h_2 | h_3 => exact nanIsCanonical_canonNaN
  case h_4 => exact nanIsCanonical_inf _
  case h_5 => exact nanIsCanonical_fin (classify_pack_zero _)
  case h_6 =>
    split
    · split
      · exact nanIsCanonical_canonNaN
      · exact nanIsCanonical_inf _
    · exact nanIsCanonical_roundTo _ _ _

theorem nanIsCanonical_sqrtUnits (u : Nat) : NanIsCanonical (sqrtUnits u) := by
  unfold sqrtUnits
  dsimp only
  split
  · exact nanIsCanonical_roundTo _ _ _
  · exact nanIsCanonical_roundTo _ _ _

theorem nanIsCanonical_fsqrt (a : Word) : NanIsCanonical (fsqrt a) := by
  unfold fsqrt
  split
  · exact nanIsCanonical_canonNaN
  · split
    · exact nanIsCanonical_canonNaN
    · exact nanIsCanonical_inf _
  · split
    · exact nanIsCanonical_fin (classify_pack_zero _)
    · split
      · exact nanIsCanonical_canonNaN
      · exact nanIsCanonical_sqrtUnits _

theorem nanIsCanonical_trig (t : TrigUnit) (a : Word) : NanIsCanonical (cos64 t a) ∧ NanIsCanonical (sin64 t a) := by
  by_cases ha : ∃ neg u, classify a = .fin neg u
  · obtain ⟨neg, u, ha⟩ := ha
    obtain ⟨_, _, hcos, -⟩ := exists_classify_cos64 t ha
    obtain ⟨_, _, hsin, -⟩ := exists_classify_sin64 t ha
    exact ⟨nanIsCanonical_fin hcos, nanIsCanonical_fin hsin⟩
  · obtain ⟨hcos, hsin⟩ := trig_of_notFinite t fun neg u h => ha ⟨neg, u, h⟩
    rw [hcos, hsin]
    exact ⟨nanIsCanonical_canonNaN, nanIsCanonical_canonNaN⟩

/-- An operation with a NaN operand answers the canonical NaN (R155). -/
theorem nan_operand {a b : Word} (h : classify a = .nan ∨ classify b = .nan) :
    fadd a b = canonNaN ∧ fmul a b = canonNaN ∧ fdiv a b = canonNaN := by
  rcases h with h | h
  · simp only [fadd, fmul, fdiv, h, and_self]
  · cases ha : classify a <;> simp only [fadd, fmul, fdiv, ha, h, and_self]

theorem fsub_nan_operand {a b : Word} (h : classify a = .nan ∨ classify b = .nan) : fsub a b = canonNaN :=
  (nan_operand (h.imp_right fun hb => by rw [classify_fneg, hb])).1

theorem classify_fneg_inf {a : Word} {neg : Bool} (h : classify a = .inf neg) : classify (fneg a) = .inf (!neg) := by
  rw [classify_fneg, h]

theorem classify_fneg_fin {a : Word} {neg : Bool} {u : Nat} (h : classify a = .fin neg u) :
    classify (fneg a) = .fin (!neg) u := by
  rw [classify_fneg, h]

section Infinite
variable {a b : Word} {g h : Bool} {u : Nat}

theorem classify_fadd_inf_inf (ha : classify a = .inf g) (hb : classify b = .inf h) :
    classify (fadd a b) = if g = h then .inf g else .nan := by
  simp only [fadd, ha, hb, beq_iff_eq]
  split
  · exact classify_pack_inf g
  · exact classify_canonNaN

theorem classify_fadd_inf_fin (ha : classify a = .inf g) (hb : classify b = .fin h u) :
    classify (fadd a b) = .inf g ∧ classify (fadd b a) = .inf g := by
  simp only [fadd, ha, hb, classify_pack_inf, and_self]

theorem classify_fmul_inf_inf (ha : classify a = .inf g) (hb : classify b = .inf h) :
    classify (fmul a b) = .inf (g ^^ h) := by
  simp only [fmul, ha, hb, classify_pack_inf]

theorem classify_fmul_inf_fin (ha : classify a = .inf g) (hb : classify b = .fin h u) :
    classify (fmul a b) = if u = 0 then .nan else .inf (g ^^ h) := by
  simp only [fmul, ha, hb]
  split
  · exact classify_canonNaN
  · exact classify_pack_inf _

theorem classify_fdiv_inf_inf (ha : classify a = .inf g) (hb : classify b = .inf h) : classify (fdiv a b) = .nan := by
  simp only [fdiv, ha, hb, classify_canonNaN]

theorem classify_fdiv_inf_fin (ha : classify a = .inf g) (hb : classify b = .fin h u) :
    classify (fdiv a b) = .inf (g ^^ h) ∧ classify (fdiv b a) = .fin (g ^^ h) 0 := by
  simp only [fdiv, ha, hb, classify_pack_inf, classify_pack_zero, Bool.xor_comm, and_self]

end Infinite

/-- The root of a NaN, of `-inf` and of a negative value is a NaN (R154). -/
theorem classify_fsqrt_invalid {a : Word}
    (h : classify a = .nan ∨ classify a = .inf true ∨ ∃ u, u ≠ 0 ∧ classify a = .fin true u) : classify (fsqrt a) = .nan := by
  rcases h with h | h | ⟨u, hu, h⟩
  · simp only [fsqrt, h, classify_canonNaN]
  · simp only [fsqrt, h, if_true, classify_canonNaN]
  · simp only [fsqrt, h, if_neg hu, if_true, classify_canonNaN]

theorem classify_fsqrt_inf {a : Word} (h : classify a = .inf false) : classify (fsqrt a) = .inf false := by
  simp only [fsqrt, h, Bool.false_eq_true, if_false, classify_pack_inf]

/-- A word that stands for a zero is the zero of its sign. -/
theorem eq_pack_zero {a : Word} {neg : Bool} (h : classify a = .fin neg 0) : a = pack neg 0 := by
  obtain ⟨m, -, rfl, hm⟩ := classify_eq_fin.1 h
  rw [unitsOf_strictMono.injective (show unitsOf m = unitsOf 0 from hm.symm)]

theorem fsqrt_zero {a : Word} {neg : Bool} (h : classify a = .fin neg 0) : fsqrt a = a := by
  simp only [fsqrt, h, if_true, ← eq_pack_zero h]

/-- Negation flips bit 63 and nothing else (R154). -/
theorem getLsbD_fneg (a : Word) {i : Nat} (hi : i < 64) :
    (fneg a).getLsbD i = if i = 63 then !a.getLsbD 63 else a.getLsbD i := by
  have hmask : ∀ i, i < 64 → (0x8000000000000000#64).getLsbD i = decide (i = 63) := by decide
  rw [fneg, BitVec.getLsbD_xor, hmask i hi]
  split
  · next h => simp [h]
  · next h => simp [h]

/-- Settles O42, operation by operation and by the class of the operands. -/
theorem everyNanIsCanonical : Obligations.EveryNanIsCanonical := by
  intro a b t
  obtain ⟨hcos, hsin⟩ := nanIsCanonical_trig t a
  refine ⟨⟨nanIsCanonical_fadd a b, nanIsCanonical_fadd a (fneg b), nanIsCanonical_fmul a b, nanIsCanonical_fdiv a b,
    nanIsCanonical_fsqrt a, hcos, hsin⟩, fun h => ?_, fun g h ha hb => ?_, fun g h u ha hb => ?_, fun g h ha hb => ?_,
    classify_fsqrt_invalid, classify_fsqrt_inf, fun g ha => fsqrt_zero ha, fun i hi => getLsbD_fneg a hi⟩
  · obtain ⟨hadd, hmul, hdiv⟩ := nan_operand h
    rw [hadd, fsub_nan_operand h, hmul, hdiv]
    exact ⟨classify_canonNaN, classify_canonNaN, classify_canonNaN, classify_canonNaN⟩
  · refine ⟨classify_fadd_inf_inf ha hb, (classify_fadd_inf_inf ha (classify_fneg_inf hb)).trans ?_,
      classify_fmul_inf_inf ha hb, classify_fdiv_inf_inf ha hb⟩
    cases g <;> cases h <;> rfl
  · obtain ⟨hadd, hadd'⟩ := classify_fadd_inf_fin ha hb
    obtain ⟨hsub, -⟩ := classify_fadd_inf_fin ha (classify_fneg_fin hb)
    obtain ⟨-, hsub'⟩ := classify_fadd_inf_fin (classify_fneg_inf ha) hb
    obtain ⟨hdiv, hdiv'⟩ := classify_fdiv_inf_fin ha hb
    have hmul := classify_fmul_inf_fin ha hb
    exact ⟨hadd, hadd', hsub, hsub', hmul, fmul_comm a b ▸ hmul, hdiv, hdiv'⟩
  · rw [fdiv_zero ha hb, if_pos rfl]
    exact classify_canonNaN

/-! ### The square root (R154) -/

/-- An odd number of units is a subnormal or lies in the first binade above: it has a spacing of one unit. -/
theorem lt_of_fin_odd {w : Word} {neg : Bool} {v : Nat} (h : classify w = .fin neg v) (hodd : v % 2 = 1) : v < 2 ^ 53 := by
  rcases dvd_or_lt_of_fin h 1 with hdvd | hlt <;> omega

theorem classify_two_pow_53 : classify 0x0020000000000000 = .fin false (2 ^ 53) := by decide

theorem classify_two_pow_54 : classify 0x0030000000000000 = .fin false (2 ^ 54) := by decide

/-- The magnitudes on either side of a rounding: its midpoint with a smaller finite value is not above the exact value, and with
a larger one not below. -/
theorem midpoint_of_roundTo {neg g : Bool} {num den r v : Nat} {w : Word} (hd : 0 < den)
    (hr : classify (roundTo neg num den) = .fin neg r) (hv : classify w = .fin g v) :
    (v < r → (r + v) * den ≤ 2 * num) ∧ (r < v → 2 * num ≤ (r + v) * den) := by
  obtain ⟨hnear, -⟩ := roundTo_nearest hd hr hv
  have hr' : (r : Int) * den = (r * den : Nat) := by push_cast; rfl
  have hv' : (v : Int) * den = (v * den : Nat) := by push_cast; rfl
  rw [hr', hv'] at hnear
  rw [Nat.add_mul]
  constructor
  · intro hlt
    have := Nat.mul_le_mul_right den hlt.le
    have := Nat.mul_lt_mul_of_pos_right hlt hd
    omega
  · intro hlt
    have := Nat.mul_lt_mul_of_pos_right hlt hd
    omega

/-- No midpoint of two finite values is half a unit above a large whole number of units: large values are even, and a small one is
too far away. -/
theorem midpoint_ne_half {neg g : Bool} {q r v : Nat} {w : Word} (hq : 2 ^ 54 ≤ q)
    (hr : classify (roundTo neg (2 * q + 1) 2) = .fin neg r) (hv : classify w = .fin g v) : r + v ≠ 2 * q + 1 := by
  intro hmid
  have h54 := midpoint_of_roundTo Nat.two_pos hr classify_two_pow_54
  have h53 := midpoint_of_roundTo Nat.two_pos hr classify_two_pow_53
  have hrlarge : 2 ^ 53 < r := by omega
  have hreven : r % 2 = 0 := by
    by_contra hodd
    have := lt_of_fin_odd hr (by omega)
    omega
  have hvsmall := lt_of_fin_odd hv (by omega)
  omega

/-- The root in whole units, or half a unit above its floor. -/
theorem sqrtUnits_cases (u : Nat) :
    (∃ q, q * q = u * oneUnits ∧ sqrtUnits u = roundTo false q 1) ∨
    ∃ q, q * q < u * oneUnits ∧ u * oneUnits < (q + 1) * (q + 1) ∧ sqrtUnits u = roundTo false (2 * q + 1) 2 := by
  obtain ⟨hle, hlt⟩ := isqrt_spec (u * oneUnits)
  unfold sqrtUnits
  dsimp only
  split
  · next heq => exact .inl ⟨_, heq, rfl⟩
  · next hne => exact .inr ⟨_, Nat.lt_of_le_of_ne hle hne, hlt, rfl⟩

/-- The root of a finite value is far below the infinities. -/
theorem root_lt {u q : Nat} {a : Word} {neg : Bool} (ha : classify a = .fin neg u) (hq : q * q ≤ u * oneUnits) :
    q < 2 ^ 1586 := by
  obtain ⟨k, e, -, rfl, hlt⟩ := exists_significand ha
  by_contra hge
  have hsq : 2 ^ 1586 * 2 ^ 1586 ≤ q * q := Nat.mul_le_mul (Nat.not_lt.1 hge) (Nat.not_lt.1 hge)
  have hbound : k * 2 ^ e * oneUnits < 2 ^ 1586 * 2 ^ 1586 := by
    rw [← pow_add]
    exact mul_two_pow_lt (e := 1074) hlt (by omega)
  omega

/-- The root of a positive value is far above the values with a spacing of one unit. -/
theorem le_root {u q : Nat} (hu : 0 < u) (hq : u * oneUnits < (q + 1) * (q + 1)) : 2 ^ 54 ≤ q := by
  by_contra hlt
  have hsq : (q + 1) * (q + 1) ≤ 2 ^ 54 * 2 ^ 54 := Nat.mul_le_mul (by omega) (by omega)
  have hone : 2 ^ 54 * 2 ^ 54 ≤ oneUnits := by
    rw [← pow_add]
    exact pow_le_pow_right₀ (m := 54 + 54) (n := 1074) one_le_two (by omega)
  have : oneUnits ≤ u * oneUnits := Nat.le_mul_of_pos_left _ hu
  omega

theorem lt_overflowUnits {q : Nat} (h : q < 2 ^ 1586) : 2 * q + 1 < overflowUnits := by
  have : 2 ^ 1586 ≤ 2 ^ 2044 := pow_le_pow_right₀ one_le_two (by omega)
  unfold overflowUnits
  omega

/-- Below the overflow a rounding answers a finite value. -/
theorem exists_classify_roundTo (neg : Bool) {num den : Nat} (hd : 0 < den) (h : num < overflowUnits * den) :
    ∃ r, classify (roundTo neg num den) = .fin neg r := ⟨_, classify_roundTo_of_fits neg hd h⟩

/-- Settles O41: the root rounds as an exact number of units or as half a unit above its floor, and a midpoint on one side of that
half unit is on the same side of the root. -/
theorem squareRootIsNearest : Obligations.SquareRootIsNearest := by
  intro a u ha hu
  rw [fsqrt_fin ha hu.ne']
  rcases sqrtUnits_cases u with ⟨q, hexact, hroot⟩ | ⟨q, hlow, hhigh, hroot⟩ <;> rw [hroot]
  · have hq := lt_overflowUnits (root_lt ha hexact.le)
    obtain ⟨r, hr⟩ := exists_classify_roundTo false Nat.one_pos (num := q) (by omega)
    refine ⟨r, hr, fun w g v hv => ?_⟩
    obtain ⟨hbelow, habove⟩ := midpoint_of_roundTo Nat.one_pos hr hv
    have hfour : 4 * (u * oneUnits) = 2 * q * (2 * q) := by rw [← hexact]; ring
    rw [Nat.mul_one] at hbelow habove
    rw [hfour]
    exact ⟨fun h => Nat.mul_self_le_mul_self (hbelow h), fun h => Nat.mul_self_le_mul_self (habove h)⟩
  · have hq := lt_overflowUnits (root_lt ha hlow.le)
    obtain ⟨r, hr⟩ := exists_classify_roundTo false Nat.two_pos (num := 2 * q + 1) (by omega)
    refine ⟨r, hr, fun w g v hv => ?_⟩
    obtain ⟨hbelow, habove⟩ := midpoint_of_roundTo Nat.two_pos hr hv
    have hne := midpoint_ne_half (le_root hu hhigh) hr hv
    constructor
    · intro h
      have hmid : r + v ≤ 2 * q := by have := hbelow h; omega
      calc (r + v) * (r + v) ≤ 2 * q * (2 * q) := Nat.mul_self_le_mul_self hmid
        _ = 4 * (q * q) := by ring
        _ ≤ 4 * (u * oneUnits) := Nat.mul_le_mul_left 4 hlow.le
    · intro h
      have hmid : 2 * (q + 1) ≤ r + v := by have := habove h; omega
      calc 4 * (u * oneUnits) ≤ 4 * ((q + 1) * (q + 1)) := Nat.mul_le_mul_left 4 hhigh.le
        _ = 2 * (q + 1) * (2 * (q + 1)) := by ring
        _ ≤ (r + v) * (r + v) := Nat.mul_self_le_mul_self hmid

/-! ### Quantisation (R161) -/

/-- A value scaled without overflow is rounded and saturated, and one that overflowed is answered as an infinity. -/
theorem quantise_fin {x : Word} {neg : Bool} {u f : Nat} (hf : f ≤ 53) (hx : classify x = .fin neg u) (w : Nat) :
    quantise x f w =
      if u * 2 ^ f < 2 ^ 2098 then
        (satTo w (signed neg (nearestAway (u * 2 ^ f))), !fitsIn w (signed neg (nearestAway (u * 2 ^ f))))
      else (if neg then -(2 ^ (w - 1)) else 2 ^ (w - 1) - 1, true) := by
  have hscaled := classify_fmul_pow_two hx (classify_toF64_two_pow hf)
  unfold quantise
  rw [hx]
  dsimp only
  split at hscaled
  · next hfits => simp only [saturate, roundAway, hscaled, if_pos hfits]
  · next hover => simp only [saturate, hscaled, if_neg hover]

/-- A scaled infinity is that infinity (R152). -/
theorem quantise_inf {x : Word} {neg : Bool} {f : Nat} (hf : f ≤ 53) (hx : classify x = .inf neg) (w : Nat) :
    quantise x f w = (if neg then -(2 ^ (w - 1)) else 2 ^ (w - 1) - 1, true) := by
  have hscaled := classify_fmul_inf_fin hx (classify_toF64_two_pow hf)
  rw [if_neg (Nat.mul_pos (by positivity) oneUnits_pos).ne', Bool.xor_false] at hscaled
  unfold quantise
  rw [hx]
  simp only [saturate, hscaled]

theorem quantise_nan {x : Word} (hx : classify x = .nan) (f w : Nat) : quantise x f w = (0, true) := by
  unfold quantise
  rw [hx]

/-- A scaled value that overflowed lies far outside the range. -/
theorem lt_nearestAway {v : Nat} (h : 2 ^ 2098 ≤ v) : 2 ^ 31 < nearestAway v := by
  have hlt : (2 ^ 31 + 1) * oneUnits < 2 ^ 2098 := by
    rw [oneUnits]
    exact mul_two_pow_lt (a := 32) (by omega) (by omega)
  have hpos := oneUnits_pos
  refine (Nat.le_div_iff_mul_le (by omega)).2 ?_
  omega

theorem satTo_32 (v : Int) : satTo 32 v = min (max v (-(2 ^ 31))) (2 ^ 31 - 1) := rfl

theorem not_fitsIn_32 (v : Int) : (!fitsIn 32 v) = true ↔ v < -(2 ^ 31) ∨ 2 ^ 31 ≤ v := by
  simp [fitsIn]

theorem signed_eq_mul (neg : Bool) (m : Nat) : signed neg m = (if neg then -1 else 1) * (m : Int) := by
  cases neg <;> simp [signed]

/-- The quantised value is the clamped rounding, and it overflowed exactly where the clamp changed it. -/
theorem quantise_scaledRounding {x : Word} {f : Nat} {r : Int} (hf : f ≤ 53) (hr : scaledRounding x f r) :
    (quantise x f 32).1 = min (max r (-(2 ^ 31))) (2 ^ 31 - 1) ∧
      ((quantise x f 32).2 = true ↔ r < -(2 ^ 31) ∨ 2 ^ 31 ≤ r) := by
  obtain ⟨neg, u, hx, hr⟩ := hr
  obtain rfl : r = signed neg (nearestAway (u * 2 ^ f)) := hr.trans (signed_eq_mul neg _).symm
  rw [quantise_fin hf hx]
  split
  · exact ⟨satTo_32 _, not_fitsIn_32 _⟩
  · next hover =>
    have hfar := lt_nearestAway (Nat.not_lt.1 hover)
    clear hover
    cases neg with
    | false =>
      have hr : 2 ^ 31 ≤ signed false (nearestAway (u * 2 ^ f)) := by simp only [signed, Bool.false_eq_true, if_false]; omega
      exact ⟨show 2 ^ 31 - 1 = _ by omega, iff_of_true rfl (.inr hr)⟩
    | true =>
      have hr : signed true (nearestAway (u * 2 ^ f)) < -(2 ^ 31) := by simp only [signed, if_true]; omega
      exact ⟨show -(2 ^ 31) = _ by omega, iff_of_true rfl (.inl hr)⟩

/-- Settles O48, by the class of the value. -/
theorem quantiseSaturates : Obligations.QuantiseSaturates := by
  intro x f hf
  have hf' : f ≤ 53 := by omega
  have hrange : -(2 ^ 31) ≤ (quantise x f 32).1 ∧ (quantise x f 32).1 < 2 ^ 31 := by
    cases hx : classify x with
    | nan => simp [quantise_nan hx]
    | inf neg => cases neg <;> simp [quantise_inf hf' hx]
    | fin neg u =>
      obtain ⟨hclamp, -⟩ := quantise_scaledRounding hf' ⟨neg, u, hx, rfl⟩
      rw [hclamp]
      omega
  exact ⟨hrange.1, hrange.2, fun r hr => quantise_scaledRounding hf' hr, fun hx => quantise_nan hx f 32,
    fun hx => quantise_inf hf' hx 32, fun hx => quantise_inf hf' hx 32⟩

/-! ### The butterflies of a stage (R179, R180) -/

/-- A half block has at each index the butterfly output of what stands there. -/
theorem getElem?_halfBlock (f : Cplx → Cplx → Cplx → Cplx) {us xs ws : List Cplx} {j : Nat} {u x w : Cplx}
    (hu : us[j]? = some u) (hx : xs[j]? = some x) (hw : ws[j]? = some w) :
    (halfBlock f us xs ws)[j]? = some (f u x w) := by
  induction us generalizing xs ws j with
  | nil => simp at hu
  | cons u' us ih =>
    cases xs with
    | nil => simp at hx
    | cons x' xs =>
      cases ws with
      | nil => simp at hw
      | cons w' ws =>
        cases j with
        | zero => simp_all [halfBlock]
        | succ j =>
          rw [List.getElem?_cons_succ] at hu hx hw
          rw [halfBlock, List.getElem?_cons_succ]
          exact ih hu hx hw

/-- A block has the low outputs first and the high ones after them. -/
theorem getElem?_block {ws lo hi : List Cplx} {half j : Nat} {u x w : Cplx} (hlo : lo.length = half)
    (hhi : hi.length = half) (hws : ws.length = half) (hu : lo[j]? = some u) (hx : hi[j]? = some x) (hw : ws[j]? = some w) :
    (block ws lo hi)[j]? = some (butterflyLow u x w) ∧ (block ws lo hi)[j + half]? = some (butterflyHigh u x w) := by
  have hj : j < half := hlo ▸ (List.getElem?_eq_some_iff.1 hu).1
  have hlen : (halfBlock butterflyLow lo hi ws).length = half := by
    rw [length_halfBlock]
    omega
  unfold block
  rw [List.getElem?_append_left (by omega), List.getElem?_append_right (by omega), hlen, Nat.add_sub_cancel]
  exact ⟨getElem?_halfBlock _ hu hx hw, getElem?_halfBlock _ hu hx hw⟩

/-- Within whole blocks, index `i` of block `b` is that of the block made of the two halves that stand there. -/
theorem getElem?_blocks {ws : List Cplx} {half n b i : Nat} {xs : List Cplx} (hws : ws.length = half)
    (hxs : n * (2 * half) ≤ xs.length) (hb : b < n) (hi : i < 2 * half) :
    (blocks ws half n xs)[b * (2 * half) + i]? =
      (block ws ((xs.drop (b * (2 * half))).take half) ((xs.drop (b * (2 * half) + half)).take half))[i]? := by
  induction n generalizing xs b with
  | zero => omega
  | succ n ih =>
    rw [Nat.succ_mul] at hxs
    have hlen : (block ws (xs.take half) ((xs.drop half).take half)).length = 2 * half := by
      rw [length_block, List.length_take, List.length_take, List.length_drop]
      omega
    rw [blocks]
    cases b with
    | zero => simp [List.getElem?_append_left, hlen, hi]
    | succ b =>
      have hpos : (b + 1) * (2 * half) = 2 * half + b * (2 * half) := by ring
      rw [hpos, Nat.add_assoc, List.getElem?_append_right (by omega), hlen, Nat.add_sub_cancel_left,
        ih (by rw [List.length_drop]; omega) (by omega), List.drop_drop, List.drop_drop, Nat.add_assoc]

theorem two_pow_eq_two_mul {s : Nat} (hs : 1 ≤ s) : 2 ^ s = 2 * 2 ^ (s - 1) := by
  rw [← Nat.pow_succ', Nat.succ_eq_add_one, Nat.sub_add_cancel hs]

/-- Each of the whole blocks a sequence consists of ends within it. -/
theorem block_end_le {n b m : Nat} {xs : List Cplx} (hxs : xs.length = n * m) (hb : b < n) : b * m + m ≤ xs.length := by
  rw [hxs, ← Nat.succ_mul]
  exact Nat.mul_le_mul_right m hb

/-- A stage does one butterfly for each index below half of each block, on the samples that stood there before it. -/
theorem getElem?_stage {t : TrigUnit} {s n b j : Nat} {xs : List Cplx} {u x w : Cplx} (hs : 1 ≤ s)
    (hxs : xs.length = n * 2 ^ s) (hb : b < n) (hj : j < 2 ^ (s - 1)) (hu : xs[b * 2 ^ s + j]? = some u)
    (hx : xs[b * 2 ^ s + j + 2 ^ (s - 1)]? = some x) (hw : (twiddles t s (2 ^ (s - 1)))[j]? = some w) :
    (stage t xs s)[b * 2 ^ s + j]? = some (butterflyLow u x w) ∧
      (stage t xs s)[b * 2 ^ s + j + 2 ^ (s - 1)]? = some (butterflyHigh u x w) := by
  have hblock := two_pow_eq_two_mul hs
  have hcount : xs.length / 2 ^ s = n := by rw [hxs, Nat.mul_div_cancel _ (by positivity)]
  rw [stage, hcount]
  rw [hblock] at hxs hu hx ⊢
  generalize 2 ^ (s - 1) = half at *
  have hend := block_end_le hxs hb
  have hlow : ((xs.drop (b * (2 * half))).take half)[j]? = some u := by
    rw [List.getElem?_take_of_lt hj, List.getElem?_drop, hu]
  have hhigh : ((xs.drop (b * (2 * half) + half)).take half)[j]? = some x := by
    rw [List.getElem?_take_of_lt hj, List.getElem?_drop, Nat.add_right_comm, hx]
  rw [Nat.add_assoc, getElem?_blocks (by simp) hxs.ge hb (by omega), getElem?_blocks (by simp) hxs.ge hb (by omega)]
  exact getElem?_block (by rw [List.length_take, List.length_drop]; omega)
    (by rw [List.length_take, List.length_drop]; omega) (by simp) hlow hhigh hw

/-- Settles O54: the samples and the twiddle of each butterfly stand where the stage reads them. -/
theorem stageDoesEveryButterfly : Obligations.StageDoesEveryButterfly := by
  refine ⟨fun a b => rfl, fun t s n xs hs hxs => ⟨length_stage t xs hs, fun b j hb hj => ?_⟩⟩
  have hblock := two_pow_eq_two_mul hs
  have hend := block_end_le hxs hb
  have hu := List.getElem?_eq_getElem (l := xs) (i := b * 2 ^ s + j) (by omega)
  have hx := List.getElem?_eq_getElem (l := xs) (i := b * 2 ^ s + j + 2 ^ (s - 1)) (by omega)
  have hw := List.getElem?_eq_getElem (l := twiddles t s (2 ^ (s - 1))) (i := j) (by rwa [length_twiddles])
  obtain ⟨hlow, hhigh⟩ := getElem?_stage hs hxs hb hj hu hx hw
  exact ⟨_, _, _, hu, hx, hw, hlow, hhigh⟩

end Sys2Proof.Machine

/-! PROOFS. The FFT family of spec/41_fft.md: the bits of the reversed index and the swap loop that follows it, the twiddles of a
block, the engine as a sequence of stages and the impulse through it, and what an accepted FFT and IFFT leave. -/

namespace Sys2Proof.Machine

open Sys2Proof

/-! ### The reversed index (R176) -/

theorem bitRev_lt (l k : Nat) : bitRev l k < 2 ^ l := by
  induction l generalizing k with
  | zero => simp [bitRev]
  | succ l ih =>
    have hrest := ih (k / 2)
    have hbit : k % 2 * 2 ^ l ≤ 1 * 2 ^ l := Nat.mul_le_mul_right _ (by omega)
    rw [bitRev, Nat.pow_succ]
    omega

/-- Bit `t` of the reversed index is the bit as far from the other end. -/
theorem testBit_bitRev {l t : Nat} (k : Nat) (ht : t < l) : (bitRev l k).testBit t = k.testBit (l - 1 - t) := by
  induction l generalizing k with
  | zero => omega
  | succ l ih =>
    rw [bitRev, Nat.mul_comm, Nat.testBit_two_pow_mul_add _ (bitRev_lt l _)]
    split
    · next h => rw [ih _ h, Nat.testBit_div_two, show l - 1 - t + 1 = l + 1 - 1 - t by omega]
    · next h =>
      obtain rfl : t = l := by omega
      simp [Nat.testBit_zero]

/-- Reading the bits backwards twice gives the index again. -/
theorem bitRev_bitRev {l k : Nat} (hk : k < 2 ^ l) : bitRev l (bitRev l k) = k := by
  apply Nat.eq_of_testBit_eq
  intro t
  by_cases ht : t < l
  · rw [testBit_bitRev _ ht, testBit_bitRev _ (by omega), show l - 1 - (l - 1 - t) = t by omega]
  · have hpow : 2 ^ l ≤ 2 ^ t := Nat.pow_le_pow_right (by omega) (by omega)
    rw [Nat.testBit_lt_two_pow ((bitRev_lt l _).trans_le hpow), Nat.testBit_lt_two_pow (hk.trans_le hpow)]

theorem bitRev_zero (l : Nat) : bitRev l 0 = 0 := by
  induction l with
  | zero => rfl
  | succ l ih => rw [bitRev, Nat.zero_mod, Nat.zero_mul, Nat.zero_div, ih]

theorem bitRev_eq_zero_iff {l k : Nat} (hk : k < 2 ^ l) : bitRev l k = 0 ↔ k = 0 := by
  refine ⟨fun h => ?_, fun h => h ▸ bitRev_zero l⟩
  rw [← bitRev_bitRev hk, h, bitRev_zero]

theorem getElem?_bitReverse (l : Nat) {xs : List Cplx} {k : Nat} (hk : k < xs.length) :
    (bitReverse l xs)[k]? = some (xs.getD (bitRev l k) (0, 0)) := by
  rw [bitReverse, List.getElem?_map, List.getElem?_range hk, Option.map_some]

/-- Settles O51, by the bits of the reversed index, which stays within the sequence. -/
theorem bitReversalReadsBitsBackwards : Obligations.BitReversalReadsBitsBackwards := by
  intro l xs hxs
  refine ⟨length_bitReverse l xs, fun k hk => ?_⟩
  have hrev : bitRev l k < xs.length := hxs ▸ bitRev_lt l k
  refine ⟨hrev, ?_, fun t ht => testBit_bitRev k ht⟩
  rw [getElem?_bitReverse l hk, List.getD_eq_getElem _ _ hrev, List.getElem?_eq_getElem hrev]

/-! ### The swap loop (R177) -/

/-- Setting a bit above a number's own. -/
theorem xor_two_pow {l r : Nat} (h : r < 2 ^ l) : r ^^^ 2 ^ l = 2 ^ l + r := by
  have hor : 2 ^ l + r = 2 ^ l ||| r := by simpa using Nat.two_pow_add_eq_or_of_lt h 1
  rw [hor]
  apply Nat.eq_of_testBit_eq
  intro t
  rw [Nat.testBit_xor, Nat.testBit_or, Nat.testBit_two_pow]
  by_cases ht : l = t
  · subst ht
    simp [Nat.testBit_lt_two_pow h]
  · simp [ht]

theorem two_pow_add_xor {l r : Nat} (h : r < 2 ^ l) : (2 ^ l + r) ^^^ 2 ^ l = r := by
  rw [← xor_two_pow h, Nat.xor_xor_cancel_right]

theorem bitRev_of_even {l i : Nat} (h : i % 2 = 0) : bitRev (l + 1) i = bitRev l (i / 2) := by
  rw [bitRev, h, Nat.zero_mul, Nat.zero_add]

theorem bitRev_of_odd {l i : Nat} (h : i % 2 = 1) : bitRev (l + 1) i = 2 ^ l + bitRev l (i / 2) := by
  rw [bitRev, h, Nat.one_mul]

/-- The carry stops at the first clear bit and sets it. -/
theorem reverseCarry_of_clear (fuel : Nat) {l r : Nat} (h : r < 2 ^ l) : reverseCarry (fuel + 1) r (2 ^ l) = 2 ^ l + r := by
  have hclear : ¬ (r &&& 2 ^ l != 0) = true := by simp [Nat.and_two_pow, Nat.testBit_lt_two_pow h]
  rw [reverseCarry, if_neg hclear, xor_two_pow h]

/-- The carry clears a set bit and goes on with the bit below it. -/
theorem reverseCarry_of_set (fuel : Nat) {l r : Nat} (h : r < 2 ^ (l + 1)) :
    reverseCarry (fuel + 1) (2 ^ (l + 1) + r) (2 ^ (l + 1)) = reverseCarry fuel r (2 ^ l) := by
  have hset : ((2 ^ (l + 1) + r) &&& 2 ^ (l + 1) != 0) = true := by
    simp [Nat.and_two_pow, Nat.testBit_two_pow_add_eq, Nat.testBit_lt_two_pow h]
  have hbelow : 2 ^ (l + 1) >>> 1 = 2 ^ l := by
    rw [Nat.shiftRight_eq_div_pow, Nat.pow_succ, Nat.pow_one, Nat.mul_div_cancel _ (by omega)]
  rw [reverseCarry, if_pos hset, two_pow_add_xor h, hbelow]

/-- Carry propagation from the top bit takes the reversed index to the next one's. -/
theorem reverseCarry_bitRev {fuel l i : Nat} (hf : l < fuel) (hi : i + 1 < 2 ^ (l + 1)) :
    reverseCarry fuel (bitRev (l + 1) i) (2 ^ l) = bitRev (l + 1) (i + 1) := by
  obtain ⟨fuel, rfl⟩ : ∃ f, fuel = f + 1 := ⟨fuel - 1, by omega⟩
  induction l generalizing fuel i with
  | zero =>
    obtain rfl : i = 0 := by omega
    rfl
  | succ l ih =>
    have hlt := bitRev_lt (l + 1) (i / 2)
    rcases Nat.mod_two_eq_zero_or_one i with heven | hodd
    · rw [bitRev_of_even heven, reverseCarry_of_clear _ hlt, bitRev_of_odd (i := i + 1) (by omega),
        show (i + 1) / 2 = i / 2 by omega]
    · obtain ⟨fuel, rfl⟩ : ∃ f, fuel = f + 1 := ⟨fuel - 1, by omega⟩
      rw [bitRev_of_odd hodd, reverseCarry_of_set _ hlt, ih (by omega) _ (by omega), bitRev_of_even (i := i + 1) (by omega),
        show (i + 1) / 2 = i / 2 + 1 by omega]

/-- The carry propagation as the loop starts it, from half the length. -/
theorem reverseCarry_of_length {l i : Nat} (hi : i + 1 < 2 ^ l) :
    reverseCarry (Nat.log2 (2 ^ l) + 1) (bitRev l i) (2 ^ l >>> 1) = bitRev l (i + 1) := by
  cases l with
  | zero => simp at hi
  | succ l =>
    rw [Nat.log2_two_pow, Nat.shiftRight_eq_div_pow, Nat.pow_succ 2 l, Nat.pow_one, Nat.mul_div_cancel _ (by omega)]
    exact reverseCarry_bitRev (by omega) hi

/-- Where the sample at index `k` comes from while the loop runs, when every index below `m` has been handled: from the reversed
index, once the smaller of the two is handled. -/
def swapSource (l m k : Nat) : Nat := if k < m ∨ bitRev l k < m then bitRev l k else k

/-- Index 0 is its own reversed index, so nothing has moved before the loop starts at 1. -/
theorem swapSource_one {l k : Nat} (hk : k < 2 ^ l) : swapSource l 1 k = k := by
  have hzero := bitRev_eq_zero_iff hk
  unfold swapSource
  split <;> omega

/-- Handling an index below its reversed index: the swap moves both their samples and no other. -/
theorem swapSource_swap {l m k : Nat} (hm : m < 2 ^ l) (hlt : m < bitRev l m) (hk : k < 2 ^ l) :
    swapSource l m (Equiv.swap m (bitRev l m) k) = swapSource l (m + 1) k := by
  have hback := bitRev_bitRev hm
  have hback' := bitRev_bitRev hk
  unfold swapSource
  rw [Equiv.swap_apply_def]
  by_cases hkm : k = m
  · subst hkm
    simp [hback, hlt.not_gt]
  · by_cases hkr : k = bitRev l m
    · simp [hkr, hback, hlt.ne', hlt.not_gt]
    · have hne : bitRev l k ≠ m := fun h => hkr (by rw [← h, hback'])
      rw [if_neg hkm, if_neg hkr]
      exact if_congr (by omega) rfl rfl

/-- Handling an index that is not below its reversed index: its sample has moved, or stays. -/
theorem swapSource_of_le {l m k : Nat} (hle : bitRev l m ≤ m) (hk : k < 2 ^ l) :
    swapSource l m k = swapSource l (m + 1) k := by
  have hback := bitRev_bitRev hk
  unfold swapSource
  by_cases hkm : k = m
  · subst hkm
    split <;> split <;> omega
  · by_cases hkr : bitRev l k = m
    · rw [hkr] at hback ⊢
      split <;> split <;> omega
    · exact if_congr (by omega) rfl rfl

/-- Exchanging two words of a sequence exchanges their indices. -/
theorem swapAt_map_range {n i j : Nat} (f : Nat → Cplx) (hi : i < n) (hj : j < n) :
    swapAt ((List.range n).map f) i j = (List.range n).map (fun k => f (Equiv.swap i j k)) := by
  refine List.ext_getElem (by simp [swapAt]) fun k hk hk' => ?_
  simp only [swapAt, List.getElem_set, List.getD_eq_getElem?_getD, List.getElem?_map, List.getElem?_range hi,
    List.getElem?_range hj, Option.map_some, Option.getD_some, List.getElem_map, List.getElem_range,
    Equiv.swap_apply_def]
  rcases eq_or_ne k j with rfl | hj
  · rcases eq_or_ne k i with rfl | hi
    · simp
    · simp [hi]
  · rcases eq_or_ne k i with rfl | hi
    · simp [hj.symm]
    · simp [hi, hj, hi.symm, hj.symm]

/-- The sequence while the loop runs, when every index below `m` has been handled. -/
def swappedBelow (l m : Nat) (xs : List Cplx) : List Cplx :=
  (List.range xs.length).map (fun k => xs.getD (swapSource l m k) (0, 0))

section SwapLoop

variable {l : Nat} {xs : List Cplx} (hxs : xs.length = 2 ^ l)

include hxs

theorem swappedBelow_one : swappedBelow l 1 xs = xs := by
  refine List.ext_getElem (by simp [swappedBelow]) fun k hk hk' => ?_
  simp only [swappedBelow, List.getElem_map, List.getElem_range, swapSource_one (hxs ▸ hk'), List.getD_eq_getElem _ _ hk']

/-- When every index is handled, every sample has moved. -/
theorem swappedBelow_length : swappedBelow l (2 ^ l) xs = bitReverse l xs :=
  List.map_congr_left fun k hk => by rw [swapSource, if_pos (.inl (hxs ▸ List.mem_range.1 hk))]

/-- What the loop does at index `m`. -/
theorem swappedBelow_succ {m : Nat} (hm : m < 2 ^ l) :
    (if m < bitRev l m then swapAt (swappedBelow l m xs) m (bitRev l m) else swappedBelow l m xs) =
      swappedBelow l (m + 1) xs := by
  split
  · next hlt =>
    rw [swappedBelow, swapAt_map_range _ (hxs ▸ hm) (hxs ▸ bitRev_lt l m)]
    exact List.map_congr_left fun k hk => by rw [swapSource_swap hm hlt (hxs ▸ List.mem_range.1 hk)]
  · next hge =>
    exact List.map_congr_left fun k hk => by rw [swapSource_of_le (not_lt.1 hge) (hxs ▸ List.mem_range.1 hk)]

/-- The loop over the indices from `m + 1` on goes on from where every index up to `m` has been handled. -/
theorem swapLoop_swappedBelow {m c : Nat} (h : m + 1 + c = 2 ^ l) :
    swapLoop (2 ^ l) (List.range' (m + 1) c) (bitRev l m) (swappedBelow l (m + 1) xs) = bitReverse l xs := by
  induction c generalizing m with
  | zero =>
    rw [show m + 1 = 2 ^ l by omega]
    exact swappedBelow_length hxs
  | succ c ih =>
    rw [List.range'_succ, swapLoop, reverseCarry_of_length (by omega), swappedBelow_succ hxs (by omega)]
    exact ih (by omega)

end SwapLoop

/-- Settles O52, by what has moved when the loop has handled the indices below a bound. -/
theorem swapLoopIsThePermutation : Obligations.SwapLoopIsThePermutation := by
  intro l xs hxs
  have hpos : 0 < 2 ^ l := by positivity
  have hrange : (List.range (2 ^ l - 1)).map (· + 1) = List.range' (0 + 1) (2 ^ l - 1) := by
    rw [List.range'_eq_map_range]
    exact List.map_congr_left fun k _ => Nat.add_comm k 1
  have hloop := swapLoop_swappedBelow hxs (m := 0) (c := 2 ^ l - 1) (by omega)
  rw [swappedBelow_one hxs, bitRev_zero] at hloop
  rw [bitReverseSwaps, hrange, hloop]

/-! ### The twiddles of a block (R182) -/

/-- Each twiddle is the one before it times the base twiddle. -/
theorem getElem?_twiddlesFrom (base : Cplx) {n j : Nat} (w : Cplx) (h : j + 1 < n) :
    ∃ v, (twiddlesFrom base n w)[j]? = some v ∧ (twiddlesFrom base n w)[j + 1]? = some (cmul v base) := by
  induction n generalizing w j with
  | zero => omega
  | succ n ih =>
    rw [twiddlesFrom, List.getElem?_cons_succ]
    cases j with
    | zero =>
      obtain ⟨n, rfl⟩ : ∃ n', n = n' + 1 := ⟨n - 1, by omega⟩
      exact ⟨w, rfl, rfl⟩
    | succ j =>
      rw [List.getElem?_cons_succ]
      exact ih _ (by omega)

/-- Settles O53, by the recurrence the twiddles are listed by. -/
theorem twiddlesFollowTheRecurrence : Obligations.TwiddlesFollowTheRecurrence := by
  intro t s half
  refine ⟨length_twiddles t s half, fun h => ?_, fun j hj => getElem?_twiddlesFrom (twRom t s) _ hj⟩
  obtain ⟨half, rfl⟩ : ∃ h', half = h' + 1 := ⟨half - 1, by omega⟩
  rfl

/-! ### The engine as a sequence of stages (R175, R181) -/

/-- The sequence after the permutation and the first `k` stages. -/
def afterStages (t : TrigUnit) (l : Nat) (xs : List Cplx) (k : Nat) : List Cplx :=
  ((List.range k).map (· + 1)).foldl (stage t) (bitReverse l xs)

theorem afterStages_zero (t : TrigUnit) (l : Nat) (xs : List Cplx) : afterStages t l xs 0 = bitReverse l xs := rfl

theorem afterStages_succ (t : TrigUnit) (l : Nat) (xs : List Cplx) (k : Nat) :
    afterStages t l xs (k + 1) = stage t (afterStages t l xs k) (k + 1) := by
  rw [afterStages, List.range_succ, List.map_append, List.foldl_append]
  rfl

theorem engine_eq_afterStages (t : TrigUnit) {l : Nat} {xs : List Cplx} (hxs : xs.length = 2 ^ l) :
    engine t xs = afterStages t l xs l := by
  rw [engine, hxs, Nat.log2_two_pow]
  rfl

/-! ### The impulse (R184) -/

theorem fmul_zero_left {w : Word} (hw : isFinite w = true) : ∃ g, fmul 0 w = pack g 0 := by
  obtain ⟨g, u, hw⟩ := isFinite_iff.1 hw
  have hzero : classify 0 = .fin false 0 := by decide
  exact ⟨false ^^ g, by rw [fmul_fin hzero hw, Nat.zero_mul, roundTo_zero]⟩

/-- A sum or difference of zeros is a zero. -/
theorem fadd_fsub_zeros (g h : Bool) : (∃ r, fadd (pack g 0) (pack h 0) = pack r 0) ∧
    ∃ r, fsub (pack g 0) (pack h 0) = pack r 0 := by
  revert g h
  decide

/-- Both parts of zero times a finite twiddle are zeros, of some sign. -/
theorem cmul_zero_left {w : Cplx} (hr : isFinite w.1 = true) (hi : isFinite w.2 = true) :
    ∃ g h, cmul (0, 0) w = (pack g 0, pack h 0) := by
  obtain ⟨a, ha⟩ := fmul_zero_left hr
  obtain ⟨b, hb⟩ := fmul_zero_left hi
  obtain ⟨g, hg⟩ := (fadd_fsub_zeros a b).2
  obtain ⟨h, hh⟩ := (fadd_fsub_zeros b a).1
  exact ⟨g, h, by simp only [cmul, ha, hb, hg, hh]⟩

/-- A word that adding or subtracting a zero of either sign leaves as it is. -/
def AbsorbsZeros (a : Word) : Prop := ∀ g, fadd a (pack g 0) = a ∧ fsub a (pack g 0) = a

theorem absorbsZeros_zero : AbsorbsZeros 0 := by unfold AbsorbsZeros; decide

theorem absorbsZeros_one : AbsorbsZeros f64One := by unfold AbsorbsZeros; decide +kernel

/-- A butterfly whose odd element is zero leaves its even element in both halves. -/
theorem butterfly_zero {u w : Cplx} (hu : AbsorbsZeros u.1) (hu' : AbsorbsZeros u.2) (hr : isFinite w.1 = true)
    (hi : isFinite w.2 = true) : butterflyLow u (0, 0) w = u ∧ butterflyHigh u (0, 0) w = u := by
  obtain ⟨g, h, hcmul⟩ := cmul_zero_left hr hi
  simp only [butterflyLow, butterflyHigh, hcmul, hu g, hu' h, and_self]

theorem halfBlock_replicate {f : Cplx → Cplx → Cplx → Cplx} {u x y : Cplx} {ws : List Cplx}
    (h : ∀ w, w ∈ ws → f u x w = y) :
    halfBlock f (List.replicate ws.length u) (List.replicate ws.length x) ws = List.replicate ws.length y := by
  induction ws with
  | nil => rfl
  | cons w ws ih =>
    rw [List.forall_mem_cons] at h
    simp only [List.length_cons, List.replicate_succ, halfBlock, h.1, ih h.2]

section Impulse

variable {ws : List Cplx} (hws : ∀ w, w ∈ ws → isFinite w.1 = true ∧ isFinite w.2 = true)

include hws

/-- A block of equal even elements and zero odd ones becomes all even elements. -/
theorem block_replicate_zero {u : Cplx} (hu : AbsorbsZeros u.1) (hu' : AbsorbsZeros u.2) :
    block ws (List.replicate ws.length u) (List.replicate ws.length (0, 0)) = List.replicate (2 * ws.length) u := by
  rw [block, halfBlock_replicate fun w hw => (butterfly_zero hu hu' (hws w hw).1 (hws w hw).2).1,
    halfBlock_replicate fun w hw => (butterfly_zero hu hu' (hws w hw).1 (hws w hw).2).2, List.replicate_append_replicate,
    Nat.two_mul]

/-- The first block of a stage, where its odd elements are zero, becomes all even elements. -/
theorem blocks_succ_replicate_zero {u : Cplx} (hu : AbsorbsZeros u.1) (hu' : AbsorbsZeros u.2) (n m : Nat) :
    blocks ws ws.length (n + 1) (List.replicate ws.length u ++ List.replicate (ws.length + m) (0, 0)) =
      List.replicate (2 * ws.length) u ++ blocks ws ws.length n (List.replicate m (0, 0)) := by
  have hlow : (List.replicate ws.length u ++ List.replicate (ws.length + m) (0, 0)).take ws.length =
      List.replicate ws.length u := List.take_left' List.length_replicate
  have hhigh : (List.replicate ws.length u ++ List.replicate (ws.length + m) (0, 0)).drop ws.length =
      List.replicate (ws.length + m) (0, 0) := List.drop_left' List.length_replicate
  rw [blocks, hlow, Nat.two_mul, ← List.drop_drop, hhigh, List.take_replicate, List.drop_replicate,
    Nat.min_eq_left (Nat.le_add_right _ _), Nat.add_sub_cancel_left, block_replicate_zero hws hu hu', Nat.two_mul]

/-- A stage's blocks keep zeros. -/
theorem blocks_zeros (n : Nat) :
    blocks ws ws.length n (List.replicate (n * (2 * ws.length)) (0, 0)) = List.replicate (n * (2 * ws.length)) (0, 0) := by
  induction n with
  | zero => simp [blocks]
  | succ n ih =>
    have hlen : (n + 1) * (2 * ws.length) = ws.length + (ws.length + n * (2 * ws.length)) := by ring
    rw [hlen, List.replicate_add, blocks_succ_replicate_zero hws (u := (0, 0)) absorbsZeros_zero absorbsZeros_zero, ih,
      List.replicate_append_replicate, List.replicate_append_replicate]
    congr 1
    omega

end Impulse

/-- The impulse after the stages of block size up to `2^s`: the first block is `(1.0, +0.0)`, all others are zero. -/
def flatBlock (l s : Nat) : List Cplx := List.replicate (2 ^ s) (f64One, 0) ++ List.replicate (2 ^ l - 2 ^ s) (0, 0)

theorem length_flatBlock {l s : Nat} (h : s ≤ l) : (flatBlock l s).length = 2 ^ l := by
  have := Nat.pow_le_pow_right (n := 2) (by omega) h
  simp only [flatBlock, List.length_append, List.length_replicate]
  omega

/-- The first index is its own reversed index, so the permutation leaves the impulse. -/
theorem bitReverse_impulse (l : Nat) : bitReverse l (flatBlock l 0) = flatBlock l 0 := by
  have hlen : (flatBlock l 0).length = 2 ^ l := length_flatBlock (Nat.zero_le l)
  have hget : ∀ k, (flatBlock l 0).getD k (0, 0) = if k = 0 then (f64One, 0) else (0, 0) := by
    intro k
    cases k with
    | zero => rfl
    | succ k => exact List.getElem?_getD_replicate_default_eq (0, 0) (2 ^ l - 2 ^ 0) k
  refine List.ext_getElem (length_bitReverse _ _) fun k hk hk' => ?_
  simp only [bitReverse, List.getElem_map, List.getElem_range]
  rw [← List.getD_eq_getElem _ (0, 0) hk', hget, hget]
  exact if_congr (bitRev_eq_zero_iff (hlen ▸ hk')) rfl rfl

/-- A stage doubles the block of ones. -/
theorem stage_flatBlock {t : TrigUnit} {l s : Nat} (h : s < l)
    (hfin : ∀ w, w ∈ twiddles t (s + 1) (2 ^ s) → isFinite w.1 = true ∧ isFinite w.2 = true) :
    stage t (flatBlock l s) (s + 1) = flatBlock l (s + 1) := by
  obtain ⟨c, hc⟩ : ∃ c, 2 ^ l = (c + 1) * 2 ^ (s + 1) := by
    refine ⟨2 ^ (l - (s + 1)) - 1, ?_⟩
    rw [Nat.sub_add_cancel Nat.one_le_two_pow, ← Nat.pow_add, Nat.sub_add_cancel h]
  have hcount : 2 ^ l / 2 ^ (s + 1) = c + 1 := by rw [hc, Nat.mul_div_cancel _ (by positivity)]
  rw [stage, length_flatBlock (by omega), hcount, Nat.add_sub_cancel, flatBlock, flatBlock, hc, Nat.pow_succ']
  have hlen : (twiddles t (s + 1) (2 ^ s)).length = 2 ^ s := length_twiddles t (s + 1) (2 ^ s)
  generalize twiddles t (s + 1) (2 ^ s) = ws at *
  rw [← hlen, Nat.succ_mul, Nat.add_sub_cancel,
    show c * (2 * ws.length) + 2 * ws.length - ws.length = ws.length + c * (2 * ws.length) by omega,
    blocks_succ_replicate_zero hfin (u := (f64One, 0)) absorbsZeros_one absorbsZeros_zero, blocks_zeros hfin]

/-- Settles O55: the permutation leaves the impulse, and each stage doubles the block of ones. -/
theorem impulseHasFlatSpectrum : Obligations.ImpulseHasFlatSpectrum := by
  intro t l hfin
  have hstages : ∀ k, k ≤ l → afterStages t l (flatBlock l 0) k = flatBlock l k := by
    intro k hk
    induction k with
    | zero => exact bitReverse_impulse l
    | succ k ih => rw [afterStages_succ, ih (by omega), stage_flatBlock hk (hfin (k + 1) (by omega) hk)]
  have himpulse : (f64One, 0) :: List.replicate (2 ^ l - 1) (0, 0) = flatBlock l 0 := rfl
  rw [himpulse, engine_eq_afterStages t (length_flatBlock (Nat.zero_le l)), hstages l le_rfl, flatBlock, Nat.sub_self,
    List.replicate_zero, List.append_nil]

/-! ### The commands (R183, R185) -/

/-- What the completion of an accepted transform command `i` leaves when its results are `re` and `im`: the two rails in the first
words of their banks, and nothing else changed but STATUS, the latches and the twiddle registers (R47, R183, R256). -/
structure RailsReplaced (i : Instr) (ra rb : Bank) (re im : List Word) (s t : State) : Prop where
  holdsRe : bankHolds t.mem ra re
  holdsIm : bankHolds t.mem rb im
  otherBytes : ∀ a, ¬ inWords ra s.len.toNat a → ¬ inWords rb s.len.toNat a → t.mem.byte? a = s.mem.byte? a
  status : t.status = completedStatus s
  frame : completedFrame i s t
  pwr : t.pwr = s.pwr
  gz : t.gz = s.gz
  twiddles : onlyTwiddlesTouched s t

/-- The transform of two rails of one length is two rails of that length. -/
theorem length_transform (t : TrigUnit) {re im : List Word} {n : Nat} (hre : re.length = n) (him : im.length = n) :
    (transform t re im).1.length = n ∧ (transform t re im).2.length = n := by
  subst hre
  exact ⟨length_transform_re him, length_transform_im him⟩

theorem railsReplaced_finishTransform (i : Instr) {ra rb : Bank} {re im : List Word} {s : State} (hne : ra ≠ rb)
    (hn : s.len.toNat ≤ 8192) (hre : re.length = s.len.toNat) (him : im.length = s.len.toNat) :
    RailsReplaced i ra rb re im s (finishTransform ra rb re im (accept (encode i) s)) where
  holdsRe := bankHolds_writeRun_other (bankHolds_writeRun _ ra re) hne (by omega) (by omega)
  holdsIm := bankHolds_writeRun _ rb im
  otherBytes a ha hb := by
    rw [finishTransform_mem, byte?_writeRun_of_not_inWords him hb, byte?_writeRun_of_not_inWords hre ha, accept_mem]
  status := rfl
  frame := ⟨⟨rfl, rfl, rfl, rfl, rfl, rfl, rfl, rfl⟩, rfl, rfl, rfl⟩
  pwr := rfl
  gz := rfl
  twiddles := rfl

section Accepted

variable {ra rb : Bank} {s : State} {re im : List Word}

theorem runFft_of_holds (hre : re.length = runLength s) (him : im.length = runLength s) (hholdsRe : bankHolds s.mem ra re)
    (hholdsIm : bankHolds s.mem rb im) : runFft ra rb s =
      .next (finishTransform ra rb (transform s.config.trig re im).1 (transform s.config.trig re im).2 s) := by
  rw [runFft, withWords_of_holds hre hholdsRe, withWords_of_holds him hholdsIm]

theorem runIfft_of_holds (hre : re.length = runLength s) (him : im.length = runLength s) (hholdsRe : bankHolds s.mem ra re)
    (hholdsIm : bankHolds s.mem rb im) : runIfft ra rb s =
      .next (finishTransform ra rb (scaleRail (runLength s) (transform s.config.trig re im).1)
        (scaleRail (runLength s) (transform s.config.trig re im).2) s) := by
  rw [runIfft, withWords_of_holds hre hholdsRe, withWords_of_holds him hholdsIm]

variable (hb : s.status.busy = false) (hdue : s.latency.headD 0 = 0) (hne : ra ≠ rb)
  (hlen : acceptedLength s.config (.fft ra rb) s.len.toNat) (hre : re.length = s.len.toNat)
  (him : im.length = s.len.toNat) (hholdsRe : bankHolds s.mem ra re) (hholdsIm : bankHolds s.mem rb im)

include hb hdue hne hlen hre him hholdsRe hholdsIm

theorem exec_fft_of_holds : exec (.fft ra rb) s = .next (finishTransform ra rb
    (transform s.config.trig re im).1 (transform s.config.trig re im).2 (accept (encode (.fft ra rb)) s)) := by
  rw [exec_of_passed_checks hb hdue (issueCheck_eq_none (i := .fft ra rb) (bne_iff_ne.2 hne) hlen rfl)]
  exact runFft_of_holds hre him hholdsRe hholdsIm

theorem exec_ifft_of_holds : exec (.ifft ra rb) s = .next (finishTransform ra rb
    (scaleRail s.len.toNat (transform s.config.trig re im).1) (scaleRail s.len.toNat (transform s.config.trig re im).2)
    (accept (encode (.ifft ra rb)) s)) := by
  rw [exec_of_passed_checks hb hdue (issueCheck_eq_none (i := .ifft ra rb) (bne_iff_ne.2 hne) hlen rfl)]
  exact runIfft_of_holds hre him hholdsRe hholdsIm

end Accepted

/-- Settles O15: the engine by the sequences its stages leave, the command by its acceptance and the two rails it writes back. -/
theorem fftReplacesBothRails : Obligations.FftReplacesBothRails := by
  refine ⟨fun t l xs hxs => ⟨afterStages t l xs, afterStages_zero t l xs, fun k _ => afterStages_succ t l xs k,
    engine_eq_afterStages t hxs⟩, fun t re im _ => List.unzip_eq_map, ?_⟩
  intro ra rb s re im hv hb hdue hne hlen hre him hholdsRe hholdsIm
  have hn : s.len.toNat ≤ 8192 := hlen.2.2.trans (nmax_le_of_valid hv)
  obtain ⟨hre', him'⟩ := length_transform s.config.trig hre him
  obtain ⟨holdsRe, holdsIm, hother, hstatus, hframe, hpwr, hgz, htw⟩ :=
    railsReplaced_finishTransform (.fft ra rb) hne hn hre' him'
  exact ⟨_, exec_fft_of_holds hb hdue hne hlen hre him hholdsRe hholdsIm, hre', him', holdsRe, holdsIm, hother, hstatus,
    hframe, hpwr, hgz, htw⟩

/-- A bank that holds a rail and one that holds the scaled rail have at each index a word and that word divided (R186). -/
theorem exists_bankWord?_scaleRail {m m' : Memory} {b : Bank} {n k : Nat} {ws : List Word} (h : bankHolds m b ws)
    (h' : bankHolds m' b (scaleRail n ws)) (hk : k < ws.length) :
    ∃ x, bankWord? m b k = some x ∧ bankWord? m' b k = some (fdiv x (toF64 n)) := by
  refine ⟨ws[k], (h k hk).trans (List.getElem?_eq_getElem hk), ?_⟩
  rw [h' k (by rwa [length_scaleRail]), scaleRail, List.getElem?_map, List.getElem?_eq_getElem hk, Option.map_some]

/-- Settles O16: both commands write back one transform of the inputs, IFFT with each word divided. -/
theorem ifftIsFftDividedByLength : Obligations.IfftIsFftDividedByLength := by
  intro ra rb s hv hb hdue hne hlen hwritten
  obtain ⟨re, hre, hholdsRe⟩ := exists_bankHolds (hwritten ra (by simp [inputBanks]))
  obtain ⟨im, him, hholdsIm⟩ := exists_bankHolds (hwritten rb (by simp [inputBanks]))
  have hn : s.len.toNat ≤ 8192 := hlen.2.2.trans (nmax_le_of_valid hv)
  obtain ⟨hre', him'⟩ := length_transform s.config.trig hre him
  have hfft := railsReplaced_finishTransform (.fft ra rb) hne hn hre' him'
  obtain ⟨holdsRe, holdsIm, hother, hstatus, hframe, hpwr, hgz, htw⟩ := railsReplaced_finishTransform (.ifft ra rb) hne hn
    ((length_scaleRail s.len.toNat _).trans hre') ((length_scaleRail s.len.toNat _).trans him')
  refine ⟨_, _, exec_fft_of_holds hb hdue hne hlen hre him hholdsRe hholdsIm,
    exec_ifft_of_holds hb hdue hne hlen hre him hholdsRe hholdsIm, fun k hk => ?_, hother, hstatus, hframe, hpwr, hgz, htw⟩
  obtain ⟨x, hx, hx'⟩ := exists_bankWord?_scaleRail hfft.holdsRe holdsRe (hre'.symm ▸ hk)
  obtain ⟨y, hy, hy'⟩ := exists_bankWord?_scaleRail hfft.holdsIm holdsIm (him'.symm ▸ hk)
  exact ⟨x, y, hx, hy, hx', hy'⟩

end Sys2Proof.Machine

/-! PROOFS. The DCT family of spec/42_dct.md: where the repack puts every sample, the words of the reconstructed buffer, and what
an accepted DCT leaves. -/

namespace Sys2Proof.Machine

open Sys2Proof

/-! ### The repack (R191) -/

@[simp] theorem getElem?_evens (xs : List Word) (k : Nat) : (evens xs)[k]? = xs[2 * k]? := by
  induction xs using evens.induct generalizing k with
  | case1 => rfl
  | case2 x => cases k <;> simp [evens, Nat.mul_add]
  | case3 x y rest ih => cases k <;> simp [evens, ih, Nat.mul_add]

@[simp] theorem getElem?_odds (xs : List Word) (k : Nat) : (odds xs)[k]? = xs[2 * k + 1]? := by
  induction xs using odds.induct generalizing k with
  | case1 => rfl
  | case2 x => simp [odds]
  | case3 x y rest ih => cases k <;> simp [odds, ih, Nat.mul_add]

theorem length_odds (xs : List Word) : (odds xs).length = xs.length / 2 := by
  induction xs using odds.induct with
  | case1 => rfl
  | case2 x => simp [odds]
  | case3 x y rest ih => simp only [odds, List.length_cons, ih]; omega

/-- A buffer of even length has as many samples at even positions as at odd ones. -/
theorem length_evens_odds_of_even {val : List Word} {h : Nat} (hval : val.length = 2 * h) :
    (evens val).length = h ∧ (odds val).length = h := by
  have hboth := length_evens_odds val
  have hodds := length_odds val
  omega

/-- Settles O56: the even samples are the rail's first half, and the odd ones, reversed, its second. -/
theorem repackPlacesEverySample : Obligations.RepackPlacesEverySample := by
  intro val h hval
  obtain ⟨hevens, hodds⟩ := length_evens_odds_of_even hval
  refine ⟨(length_repack val).trans hval, fun i hi => ⟨?_, ?_⟩⟩
  · rw [repack, List.getElem?_append_left (by omega), getElem?_evens]
  · rw [repack, List.getElem?_append_right (by omega), List.getElem?_reverse (by omega), getElem?_odds]
    congr 2
    omega

/-! ### The coefficients (R192, R193) -/

/-- Word `i` of the DCT is the coefficient of the transformed scratch words of index `i`. -/
theorem getElem?_dct (t : TrigUnit) {val : List Word} {n i : Nat} (hval : val.length = n) (hi : i < n) :
    ∃ re im, (transform t (repack val) (List.replicate n 0)).1[i]? = some re ∧
      (transform t (repack val) (List.replicate n 0)).2[i]? = some im ∧
      (dct t val)[i]? = some (dctCoefficient t n i re im) := by
  obtain ⟨hre, him⟩ := length_transform t (im := List.replicate n 0) ((length_repack val).trans hval) List.length_replicate
  refine ⟨_, _, List.getElem?_eq_getElem (hre.symm ▸ hi), List.getElem?_eq_getElem (him.symm ▸ hi), ?_⟩
  simp only [dct, hval, getElem?_reconstructFrom t n 0 _ _ i (hre.symm ▸ hi) (him.symm ▸ hi), Nat.zero_add]

/-! ### The command (R190) -/

/-- What the completion of an accepted command `i` leaves whose results are the words `ws` in the bank `b`: those words, and
nothing else changed but STATUS, the latches, PWR and the hidden registers (R47, R256). -/
structure RunReplaced (i : Instr) (b : Bank) (ws : List Word) (s t : State) : Prop where
  holds : bankHolds t.mem b ws
  stored : onlyWordsStored b s.len.toNat s t
  status : t.status = completedStatus s
  frame : completedFrame i s t
  gz : t.gz = s.gz

theorem runReplaced_finish (i : Instr) (b : Bank) {ws : List Word} {s : State} (hws : ws.length = s.len.toNat) (p : Word)
    (e : Engine) (d : Nat) : RunReplaced i b ws s (finish { accept (encode i) s with
      mem := writeRun s.mem b 0 ws, pwr := p, engine := e, draws := d }) where
  holds := bankHolds_writeRun _ b ws
  stored _ ha := byte?_writeRun_of_not_inWords hws ha
  status := rfl
  frame := ⟨⟨rfl, rfl, rfl, rfl, rfl, rfl, rfl, rfl⟩, rfl, rfl, rfl⟩
  gz := rfl

/-- An accepted DCT whose completion is due goes on with the samples its bank holds (R245, R257). -/
theorem exec_dct_of_holds {ra : Bank} {s : State} {val : List Word} (hb : s.status.busy = false)
    (hdue : s.latency.headD 0 = 0) (hlen : acceptedLength s.config (.dct ra) s.len.toNat) (hval : val.length = s.len.toNat)
    (hholds : bankHolds s.mem ra val) : exec (.dct ra) s = .next (finish { accept (encode (.dct ra)) s with
      mem := writeRun s.mem ra 0 (dct s.config.trig val)
      engine := s.engine.afterDct s.draws s.config.nmax
      draws := s.draws + 1 }) := by
  rw [exec_of_passed_checks hb hdue (issueCheck_eq_none (i := .dct ra) rfl hlen rfl)]
  exact withWords_of_holds hval hholds

/-- Settles O17: the command by its acceptance and the buffer it writes back, the buffer by its coefficients. -/
theorem dctReplacesBufferByCoefficients : Obligations.DctReplacesBufferByCoefficients := by
  intro ra s val _ hb hdue hlen hval hholds
  have hdct : (dct s.config.trig val).length = s.len.toNat := (length_dct _ val).trans hval
  obtain ⟨hwords, hstored, hstatus, hframe, hgz⟩ := runReplaced_finish (.dct ra) ra hdct s.pwr
    (s.engine.afterDct s.draws s.config.nmax) (s.draws + 1)
  refine ⟨_, exec_dct_of_holds hb hdue hlen hval hholds, fun i hi => ?_, hstored, hstatus, hframe, rfl, hgz,
    rfl, rfl, rfl, rfl, rfl, rfl, rfl⟩
  obtain ⟨re, im, hre, him, hcoef⟩ := getElem?_dct s.config.trig hval hi
  exact ⟨re, im, hre, him, (hwords i (hdct.symm ▸ hi)).trans hcoef⟩

end Sys2Proof.Machine

/-! PROOFS. The spectral family of spec/43_spectral.md: what an accepted HANN, FILTER and MAGPWR leave, the first word of every
window, and the lower bound that MAGPWR's sum, mean and root keep. -/

namespace Sys2Proof.Machine

open Sys2Proof

/-! ### The window (R200) -/

theorem getElem?_hannWindow (t : TrigUnit) {n i : Nat} (hi : i < n) : (hannWindow t n)[i]? = some (hannWord t n i) := by
  rw [hannWindow, List.getElem?_map, List.getElem?_range hi, Option.map_some]

/-- An accepted HANN whose completion is due goes on with the window, whatever its bank holds (R200, R245). -/
theorem exec_hann_of_accepted {ra : Bank} {s : State} (hb : s.status.busy = false) (hdue : s.latency.headD 0 = 0)
    (hlen : acceptedLength s.config (.hann ra) s.len.toNat) : exec (.hann ra) s = .next (finish
      { accept (encode (.hann ra)) s with mem := writeRun s.mem ra 0 (hannWindow s.config.trig s.len.toNat) }) := by
  rw [exec_of_passed_checks hb hdue (issueCheck_eq_none (i := .hann ra) rfl hlen rfl)]
  rfl

/-- Settles O18: the command by its acceptance and the window it writes, the window by its words. -/
theorem hannFillsTheWindow : Obligations.HannFillsTheWindow := by
  intro ra s hb hdue hlen
  have hwin : (hannWindow s.config.trig s.len.toNat).length = s.len.toNat := length_hannWindow _ _
  obtain ⟨hwords, hstored, hstatus, hframe, hgz⟩ := runReplaced_finish (.hann ra) ra hwin s.pwr s.engine s.draws
  exact ⟨_, exec_hann_of_accepted hb hdue hlen,
    fun i hi => (hwords i (hwin.symm ▸ hi)).trans (getElem?_hannWindow s.config.trig hi),
    hstored, hstatus, hframe, rfl, hgz, rfl⟩

theorem classify_two_pi : classify (fmul f64Two pi64) = .fin false (0x1921FB54442D18 * 2 ^ 1024) := by decide +kernel

/-- The angle of index 0 is `+0.0`: zero times a finite value, over a positive length. -/
theorem classify_hannAngle_zero {n : Nat} (hn : 2 ≤ n) (hle : n ≤ 8192) : classify (hannAngle n 0) = .fin false 0 := by
  have hzero : classify (toF64 (0 : Nat)) = .fin false (0 * 2 ^ 1074) := classify_toF64_natCast (Nat.zero_le _)
  have hlast : classify (toF64 (n - 1 : Nat)) = .fin false ((n - 1) * 2 ^ 1074) := classify_toF64_natCast (by omega)
  have hprod : classify (fmul (fmul f64Two pi64) (toF64 (0 : Nat))) = .fin false 0 := by
    rw [fmul_fin classify_two_pi hzero, Nat.zero_mul, Nat.mul_zero, roundTo_zero]
    exact classify_pack_zero _
  rw [hannAngle, fdiv_fin hprod hlast (Nat.mul_pos (by omega) (by positivity)).ne', Nat.zero_mul, roundTo_zero]
  exact classify_pack_zero _

/-- The cosine of a zero is 1.0, for every unit (R158). -/
theorem cos64_zero (t : TrigUnit) {a : Word} {neg : Bool} (ha : classify a = .fin neg 0) : cos64 t a = f64One := by
  simp only [cos64, ha, if_true]

/-- Settles O57: the angle is zero, its cosine 1.0, and the half of `1.0 - 1.0` is `+0.0`. -/
theorem hannStartsAtZero : Obligations.HannStartsAtZero := by
  intro t n hn hle
  have hword : fmul f64Half (fsub f64One f64One) = 0 := by decide +kernel
  rw [getElem?_hannWindow t (by omega), hannWord, cos64_zero t (classify_hannAngle_zero hn hle), hword]

/-! ### Two rails, index by index (R205, R210) -/

/-- Word `i` of a combination of two rails of one length is that of the words `i` of the rails. -/
theorem exists_getElem?_zipWith (f : Word → Word → Word) {xs ys : List Word} {n i : Nat} (hx : xs.length = n)
    (hy : ys.length = n) (hi : i < n) :
    ∃ x y, xs[i]? = some x ∧ ys[i]? = some y ∧ (xs.zipWith f ys)[i]? = some (f x y) := by
  have hxi := List.getElem?_eq_getElem (l := xs) (hx.symm ▸ hi)
  have hyi := List.getElem?_eq_getElem (l := ys) (hy.symm ▸ hi)
  exact ⟨_, _, hxi, hyi, List.getElem?_zipWith_eq_some.2 ⟨_, _, hxi, hyi, rfl⟩⟩

theorem length_zipWith_of_length (f : Word → Word → Word) {xs ys : List Word} {n : Nat} (hx : xs.length = n)
    (hy : ys.length = n) : (xs.zipWith f ys).length = n := by
  rw [List.length_zipWith, hx, hy, Nat.min_self]

/-- An accepted FILTER whose completion is due goes on with the words its banks hold (R205, R245). -/
theorem exec_filter_of_holds {ra rb : Bank} {s : State} {val fval : List Word} (hb : s.status.busy = false)
    (hdue : s.latency.headD 0 = 0) (hlen : acceptedLength s.config (.filter ra rb) s.len.toNat)
    (hval : val.length = s.len.toNat) (hfval : fval.length = s.len.toNat) (hholds : bankHolds s.mem ra val)
    (hholds' : bankHolds s.mem rb fval) : exec (.filter ra rb) s = .next (finish
      { accept (encode (.filter ra rb)) s with mem := writeRun s.mem ra 0 (val.zipWith fmul fval) }) := by
  rw [exec_of_passed_checks hb hdue (issueCheck_eq_none (i := .filter ra rb) rfl hlen rfl)]
  exact (withWords_of_holds hval hholds).trans (withWords_of_holds hfval hholds')

/-- Settles O19: the command by its acceptance and the products it writes, both rails read before the write. -/
theorem filterMultipliesWordByWord : Obligations.FilterMultipliesWordByWord := by
  intro ra rb s val fval hb hdue hlen hval hfval hholds hholds'
  have hprod := length_zipWith_of_length fmul hval hfval
  obtain ⟨hwords, hstored, hstatus, hframe, hgz⟩ := runReplaced_finish (.filter ra rb) ra hprod s.pwr s.engine s.draws
  refine ⟨_, exec_filter_of_holds hb hdue hlen hval hfval hholds hholds', fun i hi => ?_, hstored, hstatus, hframe, rfl,
    hgz, rfl⟩
  obtain ⟨x, y, hx, hy, hxy⟩ := exists_getElem?_zipWith fmul hval hfval hi
  exact ⟨x, y, hx, hy, (hwords i (hprod.symm ▸ hi)).trans hxy⟩

/-- An accepted MAGPWR whose completion is due goes on with the words its banks hold (R210, R245). -/
theorem exec_magpwr_of_holds {ra rb rc : Bank} {s : State} {re im : List Word} (hb : s.status.busy = false)
    (hdue : s.latency.headD 0 = 0) (hlen : acceptedLength s.config (.magpwr ra rb rc) s.len.toNat)
    (hre : re.length = s.len.toNat) (him : im.length = s.len.toNat) (hholdsRe : bankHolds s.mem ra re)
    (hholdsIm : bankHolds s.mem rb im) : exec (.magpwr ra rb rc) s = .next (finish
      { accept (encode (.magpwr ra rb rc)) s with
        mem := writeRun s.mem rc 0 (re.zipWith squaredMagnitude im)
        pwr := powerSummary s.config.magpwrEps (re.zipWith squaredMagnitude im) s.len.toNat
        engine := s.engine.afterMagpwr s.draws
        draws := s.draws + 1 }) := by
  rw [exec_of_passed_checks hb hdue (issueCheck_eq_none (i := .magpwr ra rb rc) rfl hlen rfl)]
  exact (withWords_of_holds hre hholdsRe).trans (withWords_of_holds him hholdsIm)

/-- Settles O20: the command by its acceptance, the magnitudes it writes and their summary. -/
theorem magpwrWritesMagnitudesAndPower : Obligations.MagpwrWritesMagnitudesAndPower := by
  intro ra rb rc s re im hb hdue hlen hre him hholdsRe hholdsIm
  have hmags := length_zipWith_of_length squaredMagnitude hre him
  obtain ⟨hwords, hstored, hstatus, hframe, hgz⟩ := runReplaced_finish (.magpwr ra rb rc) rc hmags
    (powerSummary s.config.magpwrEps (re.zipWith squaredMagnitude im) s.len.toNat) (s.engine.afterMagpwr s.draws) (s.draws + 1)
  exact ⟨_, _, exec_magpwr_of_holds hb hdue hlen hre him hholdsRe hholdsIm, hmags, hwords,
    fun i hi => exists_getElem?_zipWith squaredMagnitude hre him hi, rfl, hstored, hstatus, hframe, hgz, rfl⟩

/-! ### The lower bound of the power summary (R211) -/

/-- `+inf`, or a finite value of at least `v` units with a clear sign: no NaN and no `-0`. -/
def AtLeast (v : Nat) (w : Word) : Prop := classify w = .inf false ∨ ∃ u, v ≤ u ∧ classify w = .fin false u

/-- Rounding keeps a lower bound that is itself a binary64 value. -/
theorem atLeast_roundTo {num den v : Nat} {g : Bool} {w : Word} (hd : 0 < den) (hw : classify w = .fin g v)
    (h : v * den ≤ num) : AtLeast v (roundTo false num den) := by
  rcases Nat.lt_or_ge num (overflowUnits * den) with hfits | hover
  · obtain ⟨r, hr⟩ := exists_classify_roundTo false hd hfits
    refine .inr ⟨r, ?_, hr⟩
    by_contra hlt
    have hmid : 2 * num ≤ (r + v) * den := (midpoint_of_roundTo hd hr hw).2 (Nat.not_le.1 hlt)
    have hbelow : r * den < v * den := Nat.mul_lt_mul_of_pos_right (Nat.not_le.1 hlt) hd
    rw [Nat.add_mul] at hmid
    omega
  · exact .inl (classify_roundTo_of_overflow false hd hover)

/-- A square is no NaN and no negative value, unless its operand is a NaN. -/
theorem atLeast_zero_fmul_self {a : Word} (ha : classify a ≠ .nan) : AtLeast 0 (fmul a a) := by
  cases h : classify a with
  | nan => exact absurd h ha
  | inf g =>
    left
    rw [classify_fmul_inf_inf h h, Bool.xor_self]
  | fin g u =>
    rw [fmul_fin h h, Bool.xor_self]
    exact atLeast_roundTo oneUnits_pos (classify_pack_zero false) (by omega)

/-- Adding a value of at least zero keeps a lower bound that is a binary64 value. -/
theorem atLeast_fadd {a b w : Word} {g : Bool} {v : Nat} (hw : classify w = .fin g v) (ha : AtLeast v a)
    (hb : AtLeast 0 b) : AtLeast v (fadd a b) := by
  rcases ha with ha | ⟨ua, hva, ha⟩ <;> rcases hb with hb | ⟨ub, -, hb⟩
  · exact .inl (classify_fadd_inf_inf ha hb)
  · exact .inl (classify_fadd_inf_fin ha hb).1
  · exact .inl (classify_fadd_inf_fin hb ha).2
  · rw [fadd_fin ha hb]
    exact atLeast_roundTo Nat.one_pos hw (by omega)

/-- A magnitude is no NaN and no negative value, unless one of its words is a NaN. -/
theorem atLeast_zero_squaredMagnitude {r m : Word} (hr : classify r ≠ .nan) (hm : classify m ≠ .nan) :
    AtLeast 0 (squaredMagnitude r m) :=
  atLeast_fadd (classify_pack_zero false) (atLeast_zero_fmul_self hr) (atLeast_zero_fmul_self hm)

/-- The sum in index order keeps its first value's lower bound. -/
theorem atLeast_foldl_fadd {w : Word} {g : Bool} {v : Nat} (hw : classify w = .fin g v) {mags : List Word} {acc : Word}
    (hacc : AtLeast v acc) (hmags : ∀ t, t ∈ mags → AtLeast 0 t) : AtLeast v (mags.foldl fadd acc) := by
  induction mags generalizing acc with
  | nil => exact hacc
  | cons t mags ih =>
    obtain ⟨ht, hrest⟩ := List.forall_mem_cons.1 hmags
    exact ih (atLeast_fadd hw hacc ht) hrest

theorem classify_one_unit : classify 1 = .fin false 1 := by decide

/-- A value of at least `n` units over `to_f64(n)` is at least one unit, the smallest subnormal. -/
theorem atLeast_one_fdiv_toF64 {a : Word} {n v : Nat} (hn : 1 ≤ n) (hle : n ≤ 2 ^ 53) (hv : n ≤ v) (ha : AtLeast v a) :
    AtLeast 1 (fdiv a (toF64 n)) := by
  have hlen := classify_toF64_natCast hle
  rcases ha with ha | ⟨u, hu, ha⟩
  · exact .inl (classify_fdiv_inf_fin ha hlen).1
  · have hpos : 0 < n * 2 ^ 1074 := Nat.mul_pos hn (by positivity)
    rw [fdiv_fin ha hlen hpos.ne']
    exact atLeast_roundTo hpos classify_one_unit (by rw [Nat.one_mul, oneUnits]; exact Nat.mul_le_mul_right _ (hv.trans hu))

/-- The root of a positive value is positive, since its floor is at least `2^54` units. -/
theorem atLeast_one_fsqrt {a : Word} (ha : AtLeast 1 a) : AtLeast 1 (fsqrt a) := by
  rcases ha with ha | ⟨u, hu, ha⟩
  · exact .inl (classify_fsqrt_inf ha)
  · rw [fsqrt_fin ha (by omega)]
    rcases sqrtUnits_cases u with ⟨q, hexact, hroot⟩ | ⟨q, -, hhigh, hroot⟩ <;> rw [hroot]
    · have hq : 2 ^ 54 ≤ q := le_root hu (by rw [← hexact]; exact Nat.mul_self_lt_mul_self (Nat.lt_succ_self q))
      exact atLeast_roundTo Nat.one_pos classify_one_unit (by omega)
    · exact atLeast_roundTo Nat.two_pos classify_one_unit (by have := le_root hu hhigh; omega)

/-- A legal epsilon is a finite value of at least `2^-1000` (R7). -/
theorem exists_classify_magpwrEps {c : Config} (hv : c.valid = true) :
    ∃ v, 2 ^ 74 ≤ v ∧ classify c.magpwrEps = .fin false v := by
  simp only [Config.valid, Bool.and_eq_true, decide_eq_true_eq] at hv
  obtain ⟨⟨-, hlow⟩, hhigh⟩ := hv
  have hpack : c.magpwrEps = pack false c.magpwrEps.toNat := by simp [pack]
  have hmin : unitsOf 0x0170000000000000 = 2 ^ 74 := by decide
  exact ⟨unitsOf c.magpwrEps.toNat, hmin ▸ unitsOf_strictMono.monotone hlow,
    (congrArg classify hpack).trans (classify_pack hhigh)⟩

/-- Settles O58: the epsilon bounds the sum from below, so the mean is at least one unit, and so is its root. -/
theorem powerIsPositive : Obligations.PowerIsPositive := by
  intro c re im hv _ hn hmax hnan
  obtain ⟨v, hv', heps⟩ := exists_classify_magpwrEps hv
  have hle : re.length ≤ 8192 := hmax.trans (nmax_le_of_valid hv)
  have hmags : ∀ t, t ∈ re.zipWith squaredMagnitude im → AtLeast 0 t := by
    intro t ht
    obtain ⟨i, hi, rfl⟩ := List.mem_iff_getElem.1 ht
    rw [List.getElem_zipWith]
    exact atLeast_zero_squaredMagnitude (hnan _ (.inl (List.getElem_mem _))) (hnan _ (.inr (List.getElem_mem _)))
  have hsum : AtLeast v ((re.zipWith squaredMagnitude im).foldl fadd c.magpwrEps) :=
    atLeast_foldl_fadd heps (.inr ⟨v, le_rfl, heps⟩) hmags
  exact atLeast_one_fsqrt (atLeast_one_fdiv_toF64 hn (by omega) (by omega) hsum)

end Sys2Proof.Machine

/-! PROOFS. The Goertzel family of spec/44_goertzel.md: the filter as its recurrence, silence, the range of the coefficients and
of the magnitude, and what an accepted GOERTZEL leaves. -/

namespace Sys2Proof.Machine

open Sys2Proof

/-! ### The filter (R230, R231) -/

/-- Wrapping to 32 bits is reading the low 32 bits as a signed value (R9). -/
theorem wrapTo_32 (v : Int) : wrapTo 32 v = (BitVec.ofInt 32 v).toInt := by
  rw [BitVec.toInt_ofInt, Int.bmod_def, wrapTo]
  split <;> omega

/-- The sequence of the recurrence: a zero, then the newest value of the delay line after each prefix of the inputs (R231). -/
def filterValue (fb : Int) (inputs : List (Int × Bool)) : Nat → Int
  | 0 => 0
  | k + 1 => (runFilterLine fb (inputs.take k)).w0

/-- The unwrapped sum of iteration `k` on the input `x`, from the two values before it (R231). -/
def unwrappedValue (fb : Int) (inputs : List (Int × Bool)) (k : Nat) (x : Int) : Int :=
  roundShift (filterValue fb inputs (k + 1) * fb) 14 + x - filterValue fb inputs k

/-- Iteration `k` raises an overflow: its input carries one, or its sum does not fit (R238). -/
def OverflowsAt (fb : Int) (inputs : List (Int × Bool)) (k : Nat) : Prop :=
  ∃ x, inputs[k]? = some x ∧ (x.2 = true ∨ unwrappedValue fb inputs k x.1 < -(2 ^ 31) ∨
    2 ^ 31 ≤ unwrappedValue fb inputs k x.1)

section Filter

variable {fb : Int} {inputs : List (Int × Bool)} {k : Nat} {x : Int × Bool}

/-- One more input is one more iteration. -/
theorem runFilterLine_take_succ (hx : inputs[k]? = some x) :
    runFilterLine fb (inputs.take (k + 1)) = filterStep fb (runFilterLine fb (inputs.take k)) x := by
  rw [List.take_add_one, hx, Option.toList_some, runFilterLine, List.foldl_concat]
  rfl

/-- The line holds the value before its newest one. -/
theorem w1_runFilterLine_take (hk : k ≤ inputs.length) :
    (runFilterLine fb (inputs.take k)).w1 = filterValue fb inputs k := by
  cases k with
  | zero => rfl
  | succ k => rw [runFilterLine_take_succ (List.getElem?_eq_getElem hk)]; rfl

theorem filterSum_take (hx : inputs[k]? = some x) :
    filterSum fb (runFilterLine fb (inputs.take k)) x.1 = unwrappedValue fb inputs k x.1 := by
  obtain ⟨hk, -⟩ := List.getElem?_eq_some_iff.1 hx
  rw [filterSum, w1_runFilterLine_take hk.le]
  rfl

theorem filterValue_succ_succ (hx : inputs[k]? = some x) :
    filterValue fb inputs (k + 2) = (BitVec.ofInt 32 (unwrappedValue fb inputs k x.1)).toInt := by
  rw [filterValue, runFilterLine_take_succ hx, filterStep, filterSum_take hx, wrapTo_32]

theorem overflowsAt_iff (hx : inputs[k]? = some x) :
    OverflowsAt fb inputs k ↔ x.2 = true ∨ (!fitsIn 32 (unwrappedValue fb inputs k x.1)) = true := by
  rw [not_fitsIn_32]
  simp [OverflowsAt, hx]

/-- The overflow of an iteration is added to that of the iterations before it. -/
theorem ovf_runFilterLine_take {m : Nat} (hm : m ≤ inputs.length) :
    (runFilterLine fb (inputs.take m)).ovf = true ↔ ∃ k < m, OverflowsAt fb inputs k := by
  induction m with
  | zero => simp [runFilterLine, delayReset]
  | succ m ih =>
    have hx := List.getElem?_eq_getElem hm
    rw [runFilterLine_take_succ hx, filterStep, filterSum_take hx, Nat.exists_lt_succ_right, overflowsAt_iff hx,
      ← ih (by omega)]
    simp only [Bool.or_eq_true, or_assoc]

end Filter

/-- Settles O59: the values are the newest ones of the line after each prefix of the inputs. -/
theorem filterIsTheRecurrence : Obligations.FilterIsTheRecurrence := by
  intro fb inputs
  have hw1 := w1_runFilterLine_take (fb := fb) (le_refl inputs.length)
  have hovf := ovf_runFilterLine_take (fb := fb) (le_refl inputs.length)
  rw [List.take_length] at hw1 hovf
  refine ⟨filterValue fb inputs, rfl, rfl, fun k x hx => filterValue_succ_succ hx, ?_, hw1, hovf.trans ⟨?_, ?_⟩⟩
  · rw [filterValue, List.take_length]
  · rintro ⟨k, -, x, hx, h⟩
    exact ⟨k, x, hx, h⟩
  · rintro ⟨k, x, hx, h⟩
    exact ⟨k, (List.getElem?_eq_some_iff.1 hx).1, x, hx, h⟩

/-! ### Silence (R226) -/

theorem roundShift_zero (s : Nat) : roundShift 0 s = 0 := by
  cases s with
  | zero => rfl
  | succ s =>
    rw [roundShift, Int.zero_add]
    exact Int.ediv_eq_zero_of_lt (by positivity) (pow_lt_pow_right₀ one_lt_two (Nat.lt_succ_self s))

theorem gzWQn_range_of_valid {c : Config} (hv : c.valid = true) : 5 ≤ c.gzWQn ∧ c.gzWQn ≤ 30 := by
  simp only [Config.valid, Bool.and_eq_true, decide_eq_true_eq] at hv
  obtain ⟨⟨⟨⟨-, hlow⟩, hhigh⟩, -⟩, -⟩ := hv
  exact ⟨hlow, hhigh⟩

/-- Rounding keeps an upper bound that is a whole number (R161). -/
theorem nearestAway_le {u m : Nat} (h : u ≤ m * oneUnits) : nearestAway u ≤ m := by
  have hpos := oneUnits_pos
  refine Nat.le_of_lt_succ ((Nat.div_lt_iff_lt_mul (by omega)).2 ?_)
  linarith [Nat.succ_mul m (2 * oneUnits)]

/-- A `+0.0` sample is a zero input without overflow. -/
theorem quantise_zero {f : Nat} (hf : f ≤ 53) : quantise 0 f 32 = (0, false) := by
  have hround : nearestAway 0 = 0 := Nat.le_zero.1 (nearestAway_le (Nat.zero_le _))
  rw [quantise_fin hf (show classify 0 = .fin false 0 by decide), Nat.zero_mul, if_pos (by positivity), hround]
  rfl

/-- A part is reduced by a round-shift of five bits (R163, R237). -/
theorem reducePart_eq_roundShift {qw : Nat} (h : 5 ≤ qw) (y : Int) : reducePart qw y = roundShift y 5 := by
  rw [reducePart, align, if_neg (by omega), show qw - (qw - 5) = 5 by omega]

/-- Silent inputs leave the line as it was reset. -/
theorem runFilterLine_silence (fb : Int) (n : Nat) : runFilterLine fb (List.replicate n (0, false)) = delayReset := by
  have hstep : filterStep fb delayReset (0, false) = delayReset := by
    have hsum : filterSum fb delayReset 0 = 0 := by
      simp [filterSum, delayReset, qmul, roundShift_zero]
    rw [filterStep, hsum]
    rfl
  induction n with
  | zero => rfl
  | succ n ih =>
    rw [List.replicate_succ, runFilterLine, List.foldl_cons, hstep]
    exact ih

theorem feedforward_zero (form : OutForm) (k : GoertzelCoefs) : feedforward form 0 0 k = (0, 0) := by
  cases form <;> simp [feedforward, qcmulR, qcmulC, qmul, roundShift_zero]

/-- Settles O60: every quantised sample is zero, so the line stays at reset and both parts are zero. -/
theorem silenceHasNoMagnitude : Obligations.SilenceHasNoMagnitude := by
  intro c k n hv
  obtain ⟨hlow, hhigh⟩ := gzWQn_range_of_valid hv
  have hinputs : filterInputs c.gzWQn (List.replicate n 0) = List.replicate (n + 1) (0, false) := by
    rw [filterInputs, List.map_replicate, quantise_zero (by omega), List.replicate_succ']
  have hmag : goertzelMag (wrapTo 32 0) (wrapTo 32 0) = 0 := by decide +kernel
  rw [detect, hinputs, runFilterLine_silence, finaliseGoertzel, delayReset, feedforward_zero, reducePart_eq_roundShift hlow,
    roundShift_zero, hmag]
  rfl

/-! ### The coefficients (R228, R229) -/

/-- A value that scaling by `2^f` makes at most `2^15` in magnitude. -/
def ScalesWithin (x : Word) (f : Nat) : Prop := ∃ neg u, classify x = .fin neg u ∧ u * 2 ^ f ≤ 2 ^ 15 * oneUnits

theorem two_pow_15_mul_oneUnits_lt : 2 ^ 15 * oneUnits < 2 ^ 2098 := by
  rw [oneUnits]
  exact mul_two_pow_lt (a := 16) (by omega) (by omega)

/-- A finite angle has coefficients that scale to at most `2^15` in magnitude, since TRIG answers at most 1.0 (R158). -/
theorem scalesWithin_coefs (t : TrigUnit) {ang : Word} {neg : Bool} {u : Nat} (ha : classify ang = .fin neg u) :
    ScalesWithin (fneg (cos64 t ang)) 15 ∧ ScalesWithin (sin64 t ang) 15 ∧
      ScalesWithin (fmul f64Two (cos64 t ang)) 14 := by
  obtain ⟨gc, uc, hcos, hc⟩ := exists_classify_cos64 t ha
  obtain ⟨gs, us, hsin, hs⟩ := exists_classify_sin64 t ha
  have hlt : uc * 2 ^ 1 < 2 ^ 2098 := lt_of_le_of_lt (by omega) two_pow_15_mul_oneUnits_lt
  have hdouble : classify (fmul f64Two (cos64 t ang)) = .fin gc (uc * 2 ^ 1) := by
    rw [fmul_comm, f64Two_eq, classify_fmul_pow_two hcos (classify_toF64_two_pow (by omega)), if_pos hlt]
  exact ⟨⟨_, _, classify_fneg_fin hcos, by omega⟩, ⟨_, _, hsin, by omega⟩, ⟨_, _, hdouble, by omega⟩⟩

/-- An angle that is not finite has NaN coefficients (R155, R158). -/
theorem classify_coefs_of_notFinite (t : TrigUnit) {ang : Word} (ha : notFinite ang) :
    classify (fneg (cos64 t ang)) = .nan ∧ classify (sin64 t ang) = .nan ∧
      classify (fmul f64Two (cos64 t ang)) = .nan := by
  obtain ⟨hcos, hsin⟩ := trig_of_notFinite t ha
  obtain ⟨-, hdouble, -⟩ := nan_operand (a := f64Two) (.inr classify_canonNaN)
  rw [hcos, hsin, hdouble]
  exact ⟨by rw [classify_fneg, classify_canonNaN], classify_canonNaN, classify_canonNaN⟩

/-- Scaling such a value is exact, so its coefficient is the rounding of the exact product (R229). -/
theorem roundCoef_eq {x : Word} {neg : Bool} {u f : Nat} (hf : f ≤ 53) (hx : classify x = .fin neg u)
    (hle : u * 2 ^ f ≤ 2 ^ 15 * oneUnits) : roundCoef x f = signed neg (nearestAway (u * 2 ^ f)) := by
  rw [roundCoef, roundAway, classify_fmul_pow_two hx (classify_toF64_two_pow hf),
    if_pos (hle.trans_lt two_pow_15_mul_oneUnits_lt)]

theorem roundCoef_nan {x : Word} (hx : classify x = .nan) (f : Nat) : roundCoef x f = 0 := by
  obtain ⟨-, hmul, -⟩ := nan_operand (b := toF64 (2 ^ f)) (.inl hx)
  rw [roundCoef, roundAway, hmul, classify_canonNaN]

theorem clampCoef_eq (wide : Bool) (r : Int) : clampCoef wide r = if wide then r else min (max r (-32768)) 32767 := rfl

theorem isCoefficient_clampCoef (wide : Bool) {x : Word} {f : Nat} (hf : f ≤ 53) (hx : ScalesWithin x f) :
    isCoefficient wide x f (clampCoef wide (roundCoef x f)) := by
  obtain ⟨neg, u, hx, hle⟩ := hx
  exact ⟨_, ⟨neg, u, hx, (roundCoef_eq hf hx hle).trans (signed_eq_mul neg _)⟩, clampCoef_eq wide _⟩

/-- The coefficients of a finite angle are the quantised cosine, sine and doubled cosine (R228, R229). -/
theorem isCoefficient_goertzelCoefs (c : Config) {ang : Word} {neg : Bool} {u : Nat} (ha : classify ang = .fin neg u) :
    isCoefficient c.gzCoefWide (fneg (cos64 c.trig ang)) 15 (goertzelCoefs c ang).ffr ∧
      isCoefficient c.gzCoefWide (sin64 c.trig ang) 15 (goertzelCoefs c ang).ffi ∧
      isCoefficient c.gzCoefWide (fmul f64Two (cos64 c.trig ang)) 14 (goertzelCoefs c ang).fb := by
  obtain ⟨hffr, hffi, hfb⟩ := scalesWithin_coefs c.trig ha
  exact ⟨isCoefficient_clampCoef _ (by omega) hffr, isCoefficient_clampCoef _ (by omega) hffi,
    isCoefficient_clampCoef _ (by omega) hfb⟩

/-- Rounding keeps the bound of the scaled value (R229). -/
theorem roundCoef_range {x : Word} {f : Nat} (hf : f ≤ 53) (hx : ScalesWithin x f ∨ classify x = .nan) :
    -32768 ≤ roundCoef x f ∧ roundCoef x f ≤ 32768 := by
  rcases hx with ⟨neg, u, hx, hle⟩ | hx
  · have hround := nearestAway_le hle
    rw [roundCoef_eq hf hx hle, signed]
    split <;> omega
  · simp [roundCoef_nan hx]

/-- The clamp leaves a coefficient in `[-32768, 32768]`, and takes 32768 to 32767 unless the registers are wide. -/
theorem clampCoef_range {wide : Bool} {r : Int} (hr : -32768 ≤ r ∧ r ≤ 32768) :
    -32768 ≤ clampCoef wide r ∧ clampCoef wide r ≤ 32768 ∧ (wide = false → clampCoef wide r ≤ 32767) := by
  rw [clampCoef_eq]
  cases wide with
  | false => simp
  | true => simp [hr]

/-- Each coefficient scales to at most `2^15` in magnitude, or is a NaN, for every angle. -/
theorem scalesWithin_or_nan_coefs (t : TrigUnit) (ang : Word) :
    (ScalesWithin (fneg (cos64 t ang)) 15 ∨ classify (fneg (cos64 t ang)) = .nan) ∧
      (ScalesWithin (sin64 t ang) 15 ∨ classify (sin64 t ang) = .nan) ∧
      (ScalesWithin (fmul f64Two (cos64 t ang)) 14 ∨ classify (fmul f64Two (cos64 t ang)) = .nan) := by
  by_cases ha : ∃ neg u, classify ang = .fin neg u
  · obtain ⟨neg, u, ha⟩ := ha
    obtain ⟨hffr, hffi, hfb⟩ := scalesWithin_coefs t ha
    exact ⟨.inl hffr, .inl hffi, .inl hfb⟩
  · obtain ⟨hffr, hffi, hfb⟩ := classify_coefs_of_notFinite t fun neg u h => ha ⟨neg, u, h⟩
    exact ⟨.inr hffr, .inr hffi, .inr hfb⟩

/-- Settles O49: TRIG answers at most 1.0 on a finite angle, and a NaN, which rounds to 0, on any other. -/
theorem coefficientsStayInRange : Obligations.CoefficientsStayInRange := by
  intro c ang x hx
  obtain ⟨hffr, hffi, hfb⟩ := scalesWithin_or_nan_coefs c.trig ang
  rcases hx with rfl | rfl | rfl
  · exact clampCoef_range (roundCoef_range (by omega) hfb)
  · exact clampCoef_range (roundCoef_range (by omega) hffr)
  · exact clampCoef_range (roundCoef_range (by omega) hffi)

/-! ### The magnitude (R239) -/

theorem toInt_mul_self_le (v : BitVec 32) : v.toInt * v.toInt ≤ 2 ^ 62 := by
  have hlow := BitVec.le_two_mul_toInt (x := v)
  have hhigh := BitVec.two_mul_toInt_lt (x := v)
  norm_num at hlow hhigh
  nlinarith

/-- An integer of at most `2^63` converts to a value of at most `2^63`. -/
theorem classify_toF64_le {n : Nat} (hn : n ≤ 2 ^ 63) :
    ∃ u, classify (toF64 n) = .fin false u ∧ u ≤ 2 ^ 63 * oneUnits := by
  have hpow : 2 ^ 63 * oneUnits = 1 * 2 ^ (63 + 1074) := by rw [oneUnits, ← pow_add, Nat.one_mul]
  have hfits : 2 * (2 ^ 63 * oneUnits) + 1 < overflowUnits := by
    rw [hpow]
    exact lt_overflowUnits (mul_two_pow_lt (a := 1) (by omega) (by omega))
  have hle : n * oneUnits ≤ 2 ^ 63 * oneUnits := Nat.mul_le_mul_right _ hn
  obtain ⟨u, hu⟩ := exists_classify_roundTo false Nat.one_pos (num := n * oneUnits) (by omega)
  have hbound : classify (roundTo false (2 ^ 63 * oneUnits) 1) = .fin false (2 ^ 63 * oneUnits) := by
    rw [hpow]
    exact classify_roundTo_exact Nat.one_pos (by omega) (Nat.mul_one _).symm (mul_two_pow_lt (a := 1) (by omega) (by omega))
  rw [toF64_natCast]
  refine ⟨u, hu, Nat.not_lt.1 fun hover => ?_⟩
  have := (midpoint_of_roundTo Nat.one_pos hu hbound).1 hover
  omega

/-- The root of a value of at most `2^63` is below `2^32`: the root's midpoint with `2^31` would be above it. -/
theorem classify_fsqrt_lt {a : Word} {v : Nat} (ha : classify a = .fin false v) (hv : v ≤ 2 ^ 63 * oneUnits) :
    ∃ u, classify (fsqrt a) = .fin false u ∧ u < 2 ^ 32 * oneUnits := by
  rcases Nat.eq_zero_or_pos v with rfl | hpos
  · exact ⟨0, (fsqrt_zero ha).symm ▸ ha, Nat.mul_pos (by positivity) oneUnits_pos⟩
  · obtain ⟨u, hu, hnear⟩ := squareRootIsNearest a v ha hpos
    refine ⟨u, hu, Nat.not_le.1 fun hge => ?_⟩
    have hone := oneUnits_pos
    obtain ⟨hmid, -⟩ := hnear _ _ _ (classify_toF64_two_pow (l := 31) (by omega))
    have hsq := hmid (by omega)
    have hroot : (2 ^ 32 + 2 ^ 31) * oneUnits * ((2 ^ 32 + 2 ^ 31) * oneUnits) ≤
        (u + 2 ^ 31 * oneUnits) * (u + 2 ^ 31 * oneUnits) := Nat.mul_self_le_mul_self (by omega)
    have hbound : 4 * (v * oneUnits) ≤ 4 * (2 ^ 63 * oneUnits * oneUnits) :=
      Nat.mul_le_mul_left 4 (Nat.mul_le_mul_right oneUnits hv)
    have hpos : 0 < oneUnits * oneUnits := Nat.mul_pos hone hone
    linarith

/-- Settles O50: the sum of squares converts to at most `2^63`, and its root is below `2^32`. -/
theorem magnitudeFitsItsRegister : Obligations.MagnitudeFitsItsRegister := by
  intro yr yi
  obtain ⟨n, hn⟩ := Int.eq_ofNat_of_zero_le (Int.add_nonneg (mul_self_nonneg yr.toInt) (mul_self_nonneg yi.toInt))
  have hr := toInt_mul_self_le yr
  have hi := toInt_mul_self_le yi
  obtain ⟨v, hv, hle⟩ := classify_toF64_le (n := n) (by omega)
  obtain ⟨u, hu, hlt⟩ := classify_fsqrt_lt hv hle
  have hfits : u / oneUnits < 2 ^ 32 := (Nat.div_lt_iff_lt_mul oneUnits_pos).2 hlt
  rw [hn]
  exact ⟨u, hu, hfits, by rw [truncU32_fin hu, BitVec.toNat_ofNat, Nat.mod_eq_of_lt hfits]⟩

/-! ### The command (R226) -/

section Finalise

variable {c : Config} (k : GoertzelCoefs) (d : DelayLine)

/-- Each part of the result is the reduced part, wrapped to 32 bits (R237). -/
theorem finaliseGoertzel_parts (hv : c.valid = true) :
    (finaliseGoertzel c k d).yr = (BitVec.ofInt 32 (roundShift (feedforward c.gzOutForm d.w0 d.w1 k).1 5)).toInt ∧
      (finaliseGoertzel c k d).yi = (BitVec.ofInt 32 (roundShift (feedforward c.gzOutForm d.w0 d.w1 k).2 5)).toInt := by
  obtain ⟨hlow, -⟩ := gzWQn_range_of_valid hv
  rw [finaliseGoertzel, reducePart_eq_roundShift hlow, reducePart_eq_roundShift hlow, wrapTo_32, wrapTo_32]
  exact ⟨rfl, rfl⟩

/-- The overflow is the delay line's, or a reduced part's that does not fit (R238). -/
theorem finaliseGoertzel_ovf (hv : c.valid = true) :
    (finaliseGoertzel c k d).ovf = (d.ovf || !fitsIn 32 (roundShift (feedforward c.gzOutForm d.w0 d.w1 k).1 5) ||
      !fitsIn 32 (roundShift (feedforward c.gzOutForm d.w0 d.w1 k).2 5)) := by
  obtain ⟨hlow, -⟩ := gzWQn_range_of_valid hv
  rw [finaliseGoertzel, reducePart_eq_roundShift hlow, reducePart_eq_roundShift hlow]

/-- GZ_Y holds the reduced parts, and GZ_MAG the truncated root of the sum of its squares (R237, R239). -/
theorem resultRegs_finaliseGoertzel (hv : c.valid = true) {g : GoertzelRegs}
    (hg : g = resultRegs k (finaliseGoertzel c k d)) :
    g.yr = BitVec.ofInt 32 (roundShift (feedforward c.gzOutForm d.w0 d.w1 k).1 5) ∧
      g.yi = BitVec.ofInt 32 (roundShift (feedforward c.gzOutForm d.w0 d.w1 k).2 5) ∧
      g.mag = truncU32 (fsqrt (toF64 (g.yr.toInt * g.yr.toInt + g.yi.toInt * g.yi.toInt))) := by
  obtain ⟨hyr, hyi⟩ := finaliseGoertzel_parts k d hv
  have hgr : g.yr = BitVec.ofInt 32 (roundShift (feedforward c.gzOutForm d.w0 d.w1 k).1 5) := by
    rw [hg, resultRegs, hyr, BitVec.ofInt_toInt]
  have hgi : g.yi = BitVec.ofInt 32 (roundShift (feedforward c.gzOutForm d.w0 d.w1 k).2 5) := by
    rw [hg, resultRegs, hyi, BitVec.ofInt_toInt]
  refine ⟨hgr, hgi, ?_⟩
  rw [hgr, hgi, ← hyr, ← hyi, hg]
  rfl

end Finalise

/-- An angle GOERTZEL accepts is finite (R253). -/
theorem finite_angle_of_not_badFrequencies {n : Nat} {det fs : Word} (h : ¬ badFrequencies n det fs) :
    ∃ neg u, classify (goertzelAngle n (goertzelBin n det fs)) = .fin neg u := by
  by_contra hfin
  push Not at hfin
  exact h (.inr (.inr (.inr (.inr (.inr hfin)))))

/-- The state a completed GOERTZEL leaves whose coefficients are `k` and whose result is `r` (R226, R256). -/
def goertzelDone (ra : Bank) (s : State) (k : GoertzelCoefs) (r : GoertzelResult) : State :=
  finish { accept (encode (.goertzel ra)) s with
    gz := resultRegs k r
    status := (acceptedStatus s).withOverflow r.ovf
    engine := s.engine.afterGoertzel s.draws
    draws := s.draws + 1 }

/-- An accepted GOERTZEL whose completion is due goes on with the samples its bank holds (R226, R245). -/
theorem exec_goertzel_of_holds {ra : Bank} {s : State} {samples : List Word} (hb : s.status.busy = false)
    (hdue : s.latency.headD 0 = 0) (hlen : acceptedLength s.config (.goertzel ra) s.len.toNat)
    (hfreq : ¬ badFrequencies s.len.toNat s.detectHz s.sampleHz) (hsamples : samples.length = s.len.toNat)
    (hholds : bankHolds s.mem ra samples) {k : GoertzelCoefs}
    (hk : k = goertzelCoefs s.config (goertzelAngle s.len.toNat (goertzelBin s.len.toNat s.detectHz s.sampleHz))) :
    exec (.goertzel ra) s = .next (goertzelDone ra s k (detect s.config k samples)) := by
  have harg : argOk (.goertzel ra) s.len.toNat s.detectHz s.sampleHz = true := by
    rwa [← argOk_goertzel_eq_false_iff (ra := ra), Bool.not_eq_false] at hfreq
  rw [exec_of_passed_checks hb hdue (issueCheck_eq_none (i := .goertzel ra) rfl hlen harg), hk]
  exact withWords_of_holds hsamples hholds

/-- STATUS of a completed GOERTZEL: the overflow of its result is added to OVF (R238, R256). -/
theorem goertzelDone_status (ra : Bank) (s : State) (k : GoertzelCoefs) (r : GoertzelResult) :
    (goertzelDone ra s k r).status = { completedStatus s with ovf := s.status.ovf || r.ovf } := rfl

/-- Settles O21: the command by its acceptance, its coefficients by their rounding, its result by the reduced parts. -/
theorem goertzelWritesItsResults : Obligations.GoertzelWritesItsResults := by
  rintro ra s samples _ _ hv hb hdue hlen hfreq hsamples hholds rfl rfl
  obtain ⟨neg, u, hang⟩ := finite_angle_of_not_badFrequencies hfreq
  obtain ⟨hffr, hffi, hfb⟩ := isCoefficient_goertzelCoefs s.config hang
  have hexec := exec_goertzel_of_holds hb hdue hlen hfreq hsamples hholds rfl
  generalize goertzelCoefs s.config (goertzelAngle s.len.toNat (goertzelBin s.len.toNat s.detectHz s.sampleHz)) = k
    at hffr hffi hfb hexec
  generalize hd : runFilterLine k.fb (filterInputs s.config.gzWQn samples) = d
  rw [detect, hd] at hexec
  obtain ⟨hyr, hyi, hmag⟩ := resultRegs_finaliseGoertzel k d hv rfl
  refine ⟨_, k.ffr, k.ffi, k.fb, d, feedforward s.config.gzOutForm d.w0 d.w1 k, hexec, hffr, hffi, hfb, hd.symm,
    fun hform => ?_, fun hform => ?_, rfl, rfl, rfl, hyr, hyi, hmag, ?_,
    ⟨⟨rfl, rfl, rfl, rfl, rfl, rfl, rfl, rfl⟩, rfl, rfl, rfl⟩, rfl, rfl, rfl, rfl, rfl, rfl, rfl, rfl, rfl⟩
  · rw [hform]
    rfl
  · rw [hform]
    rfl
  · simp only [goertzelDone_status, finaliseGoertzel_ovf k d hv, Bool.or_assoc]

end Sys2Proof.Machine

/-! PROOFS. The exceptions family of spec/60_exceptions.md: which words and which commands each check rejects, a running command
under the host's transactions up to its completion, and the interrupt line over a step. -/

namespace Sys2Proof.Machine

open Sys2Proof

/-! ### Malformed words (R125, R249) -/

/-- Every bank code but 3 names a bank (R123). -/
theorem exists_bankCode_iff {c : BitVec 2} : (∃ b : Bank, c.toNat = b.code) ↔ c ≠ 3#2 := by
  constructor
  · rintro ⟨b, hb⟩ rfl
    cases b <;> cases hb
  · intro hc
    have hcode : c = 0#2 ∨ c = 1#2 ∨ c = 2#2 := by bv_omega
    rcases hcode with rfl | rfl | rfl
    · exact ⟨.A, rfl⟩
    · exact ⟨.B, rfl⟩
    · exact ⟨.C, rfl⟩

/-- The decoder accepts exactly the words that are not malformed: what it asks of the fields of each operation is what the
clauses of R125 leave. -/
theorem exists_decode_iff {v : Word} : (∃ i, decode v = .ok i) ↔ malformed v = false := by
  unfold decode malformed
  split
  case isFalse hres => simp [hres]
  case isTrue hres =>
    unfold decodeFields
    split
    case h_8 =>
      have hop : ¬ (1 ≤ (opField v).toNat ∧ (opField v).toNat ≤ 7) := by grind
      simp [← Bool.decide_and, hop]
    all_goals
      next hop =>
      simp [bind_eq_ok_iff, zeroField_eq_ok_iff, bankOfCode_eq_ok_iff, pure, Except.pure, exists_bankCode_iff, hop, hres,
        and_assoc, and_comm, and_left_comm]

theorem exists_decode_error_iff {v : Word} : (∃ e, decode v = .error e) ↔ malformed v = true := by
  rw [← Bool.not_eq_false, ← exists_decode_iff]
  cases decode v <;> simp

/-- A malformed word written to CMD while no command runs is rejected with code CMD (R249). -/
theorem writeCmd_of_malformed {v : Word} {s : State} (hb : s.status.busy = false) (h : malformed v = true) :
    writeCmd v s = .next (rejectedWith .cmd s) := by
  obtain ⟨e, he⟩ := exists_decode_error_iff.2 h
  simp only [writeCmd, he, execMalformed, hb]
  rfl

/-- Settles O2: the decoder asks what R125 asks, and what it does not accept is rejected. -/
theorem malformedWordsAreRejected : Obligations.MalformedWordsAreRejected :=
  fun _ => ⟨exists_decode_error_iff, fun _ h hb => writeCmd_of_malformed hb h⟩

/-! ### The check that fails (R251 to R254) -/

/-- Only equal rails are an illegal combination of banks (R251). -/
theorem wellFormed_eq_false_iff {i : Instr} : i.wellFormed = false ↔ ∃ r, i = .fft r r ∨ i = .ifft r r := by
  cases i with
  | fft ra rb | ifft ra rb =>
    simp only [Instr.wellFormed, bne_eq_false_iff_eq, Instr.fft.injEq, Instr.ifft.injEq, reduceCtorEq, or_false, false_or]
    exact ⟨fun h => ⟨ra, rfl, h.symm⟩, fun ⟨_, ha, hb⟩ => ha.trans hb.symm⟩
  | _ => simp [Instr.wellFormed]

section Check

variable {i : Instr} {s : State}

theorem issueCheck_eq_operand_iff : issueCheck i s = .operand ↔ i.wellFormed = false := by
  rw [issueCheck, check]
  grind

theorem issueCheck_eq_len_iff :
    issueCheck i s = .len ↔ i.wellFormed = true ∧ ¬ acceptedLength s.config i s.len.toNat := by
  rw [← lenOk_iff, issueCheck, check]
  grind

theorem issueCheck_eq_arg_iff : issueCheck i s = .arg ↔ i.wellFormed = true ∧ acceptedLength s.config i s.len.toNat ∧
    argOk i s.len.toNat s.detectHz s.sampleHz = false := by
  rw [← lenOk_iff, issueCheck, check]
  grind

variable (hb : s.status.busy = false)
include hb

theorem exec_of_illFormed (hw : i.wellFormed = false) : exec i s = .next (rejectedWith .operand s) :=
  exec_of_failed_check hb (issueCheck_eq_operand_iff.2 hw) (by decide)

theorem exec_of_badLength (hw : i.wellFormed = true) (hl : ¬ acceptedLength s.config i s.len.toNat) :
    exec i s = .next (rejectedWith .len s) :=
  exec_of_failed_check hb (issueCheck_eq_len_iff.2 ⟨hw, hl⟩) (by decide)

theorem exec_goertzel_of_badFrequencies {ra : Bank} (hl : acceptedLength s.config (.goertzel ra) s.len.toNat)
    (hf : badFrequencies s.len.toNat s.detectHz s.sampleHz) : exec (.goertzel ra) s = .next (rejectedWith .arg s) :=
  exec_of_failed_check hb (issueCheck_eq_arg_iff.2 ⟨rfl, hl, argOk_goertzel_eq_false_iff.2 hf⟩) (by decide)

end Check

/-- Settles O6: each hypothesis makes its own check the first that fails. -/
theorem checksRunInPriorityOrder : Obligations.ChecksRunInPriorityOrder := by
  intro v s hb
  refine ⟨writeCmd_of_malformed hb, fun i hd => ?_⟩
  rw [writeCmd_of_decode hd]
  refine ⟨exec_of_illFormed hb, exec_of_badLength hb, ?_⟩
  rintro - hl ⟨ra, rfl⟩ hf
  exact exec_goertzel_of_badFrequencies hb hl hf

/-- Settles O7: equal rails are the one combination of banks that is ill formed. -/
theorem equalRailsAreRejected : Obligations.EqualRailsAreRejected := by
  refine ⟨fun r s hb => ?_, fun i s hne hop => ?_⟩
  · exact ⟨exec_of_illFormed hb (wellFormed_eq_false_iff.2 ⟨r, .inl rfl⟩),
      exec_of_illFormed hb (wellFormed_eq_false_iff.2 ⟨r, .inr rfl⟩)⟩
  · obtain ⟨r, hr⟩ := wellFormed_eq_false_iff.1 (issueCheck_eq_operand_iff.1 hop)
    exact hr.elim (hne r).1 (hne r).2

/-- Settles O8: the length check of a well-formed command is R252's table. -/
theorem illegalLengthsAreRejected : Obligations.IllegalLengthsAreRejected :=
  fun _ _ hb hw => ⟨exec_of_badLength hb hw, fun hl h => (issueCheck_eq_len_iff.1 h).2 hl⟩

/-- Settles O9: GOERTZEL's frequency check is R253's list, and no other command has one. -/
theorem badFrequenciesAreRejected : Obligations.BadFrequenciesAreRejected := by
  refine ⟨fun ra s hb hl => ⟨exec_goertzel_of_badFrequencies hb hl, fun hf => ?_⟩, fun i s hne h => ?_⟩
  · have hok : argOk (.goertzel ra) s.len.toNat s.detectHz s.sampleHz = true := by
      rwa [← Bool.not_eq_false, argOk_goertzel_eq_false_iff]
    exact issueCheck_eq_none rfl hl hok
  · obtain ⟨-, -, hbad⟩ := issueCheck_eq_arg_iff.1 h
    simp [argOk_of_not_goertzel hne] at hbad

/-! ### A running command (R256 to R258, R272) -/

theorem step_quiet {s : State} (h : s.bus = []) : step s = quiet s := by
  rw [step, h]

/-- Settles O5: a step without an event is a quiet one. -/
theorem quietBlockWaitsOrCompletes : Obligations.QuietBlockWaitsOrCompletes := by
  intro s h
  rw [step_quiet h]
  exact ⟨fun hb => by simp [quiet, hb], fun hb => by simp [quiet, hb]⟩

/-- Settles O11: the write reaches the issue logic, which drops the word. -/
theorem commandWhileBusyIsDropped : Obligations.CommandWhileBusyIsDropped :=
  fun v _ hb => (hostWrite_cmd v _).trans (writeCmd_of_busy (by exact hb))

theorem complete_of_decode {s : State} {i : Instr} (h : decode s.latch.cmd = .ok i) : complete s = runCommand i s := by
  rw [complete, h]

/-- Settles O38: with its inputs written the latched command's effect completes, and keeps the ERR of a running command. -/
theorem acceptedCommandAlwaysCompletes : Obligations.AcceptedCommandAlwaysCompletes := by
  intro s i hs hb hd hin
  obtain ⟨t, ht⟩ := runCommand_completes hin
  obtain ⟨-, -, -, -, hbusy, hdone, herr, -⟩ := runCommand_kept ht
  obtain ⟨-, -, herr', -⟩ := hs.running hb
  exact ⟨t, (complete_of_decode hd).trans ht, hbusy, hdone, herr.trans herr'⟩

/-- What a host transaction leaves of a running command: the banks, the results, the latches and the command's own STATUS; OVF
can only be cleared (R257). -/
structure RunningKept (s u : State) : Prop where
  config : u.config = s.config
  mem : u.mem = s.mem
  pwr : u.pwr = s.pwr
  gz : u.gz = s.gz
  latch : u.latch = s.latch
  engine : u.engine = s.engine
  busy : u.status.busy = true
  err : u.status.err = s.status.err
  ovf : s.status.ovf = false → u.status.ovf = false

theorem RunningKept.trans {s u t : State} (h : RunningKept s u) (h' : RunningKept u t) : RunningKept s t where
  config := h'.config.trans h.config
  mem := h'.mem.trans h.mem
  pwr := h'.pwr.trans h.pwr
  gz := h'.gz.trans h.gz
  latch := h'.latch.trans h.latch
  engine := h'.engine.trans h.engine
  busy := h'.busy
  err := h'.err.trans h.err
  ovf hs := h'.ovf (h.ovf hs)

/-- The command's effect reads nothing that the transactions before it can change, so it is the same after them (R257). -/
theorem RunningKept.runCommand {i : Instr} {s u t : State} (h : RunningKept s u) (ht : runCommand i s = .next t) :
    ∃ t', runCommand i u = .next t' ∧ t'.mem = t.mem ∧ t'.pwr = t.pwr ∧ t'.gz = t.gz ∧
      (s.status.ovf = false → t'.status.ovf = t.status.ovf) := by
  obtain ⟨t', hrun, hm, hp, hg, hovf⟩ := runCommand_congr h.config h.mem h.latch h.pwr h.gz ht
  exact ⟨t', hrun, hm, hp, hg, fun hs => hovf ((h.ovf hs).trans hs.symm)⟩

theorem writeReg_ovf_of_clear {s : State} (r : Reg) (v : Word) (h : s.status.ovf = false) :
    (writeReg s r v).status.ovf = false := by
  cases r <;> simp [writeReg, Status.write, h]

/-- A register write keeps a running command whatever was there (R89). -/
theorem runningKept_writeReg {s : State} (hb : s.status.busy = true) (r : Reg) (v : Word) :
    RunningKept s (writeReg s r v) where
  config := by simp
  mem := by simp
  pwr := by simp
  gz := by simp
  latch := by simp
  engine := by simp
  busy := by simpa using hb
  err := by simp
  ovf := writeReg_ovf_of_clear r v

theorem runningKept_respond {s : State} (hb : s.status.busy = true) (x : BusResponse) : RunningKept s (respond x s) :=
  ⟨rfl, rfl, rfl, rfl, rfl, rfl, hb, rfl, id⟩

theorem runningKept_overrun {s : State} (hb : s.status.busy = true) : RunningKept s (overrun s) :=
  ⟨rfl, rfl, rfl, rfl, rfl, rfl, hb, rfl, id⟩

theorem runningKept_hostWrite {a : BitVec 18} {n : Nat} {v : Word} {s u : State} (hb : s.status.busy = true)
    (h : hostWrite a n v s = .next u) : RunningKept s u := by
  rcases hostWrite_of_busy hb h with ⟨r, -, -, -, rfl⟩ | rfl | ⟨-, -, rfl⟩
  · exact (runningKept_respond hb _).trans (runningKept_writeReg (by exact hb) r v)
  · exact runningKept_respond hb _
  · exact (runningKept_respond hb _).trans (runningKept_overrun (by exact hb))

theorem hostWrite_keeps_bus {a : BitVec 18} {n : Nat} {v : Word} {s u : State} (hb : s.status.busy = true)
    (h : hostWrite a n v s = .next u) : u.bus = s.bus := by
  rcases hostWrite_of_busy hb h with ⟨r, -, -, -, rfl⟩ | rfl | ⟨-, -, rfl⟩ <;> simp

/-- The count of what is still to come, and the events pending, are no part of what a transaction keeps. -/
theorem runningKept_withWaitAndBus {s : State} (hb : s.status.busy = true) (w : Nat) (rest : List HostEvent) :
    RunningKept s { s with wait := w, bus := rest } :=
  ⟨rfl, rfl, rfl, rfl, rfl, rfl, hb, rfl, id⟩

/-- A step on a transaction of a running command is the tick after it, of a command that runs on as before (R256, R257). -/
theorem step_of_running {s : State} {e : HostEvent} {rest : List HostEvent} (h : s.bus = e :: rest)
    (he : e.isTransaction = true) (hb : s.status.busy = true) :
    ∃ u, step s = tick u ∧ RunningKept s u ∧ u.wait = s.wait ∧ u.bus = rest := by
  have hbus : RunningKept s { s with bus := rest } := runningKept_withWaitAndBus hb s.wait rest
  cases e with
  | read a n =>
    refine ⟨_, step_read_busy h hb, hbus.trans ?_, by simp, by simp⟩
    obtain ⟨r, hr⟩ := hostRead_eq_respond a n { s with bus := rest }
    exact hr ▸ runningKept_respond hbus.busy r
  | write a n v =>
    obtain ⟨u, hu⟩ := exists_hostWrite_of_busy a n v hbus.busy
    exact ⟨u, step_write_busy h hb hu, hbus.trans (runningKept_hostWrite hbus.busy hu),
      hostWrite_keeps_wait (s := { s with bus := rest }) hb hu, hostWrite_keeps_bus hbus.busy hu⟩
  | reset => cases he

/-- Settles O24: the transaction keeps the running command, and the tick after it only counts. -/
theorem nothingChangesBeforeCompletion : Obligations.NothingChangesBeforeCompletion := by
  intro s t e rest hb hw h he hstep
  obtain ⟨u, htick, hkept, hwait, -⟩ := step_of_running h he hb
  rw [htick, tick_of_not_due (by omega)] at hstep
  cases hstep
  exact ⟨hkept.mem, hkept.pwr, hkept.gz, hkept.latch, hkept.engine, hkept.busy, hkept.err, by simp only; omega, hkept.config⟩

theorem run_succ (k : Nat) (s : State) : core.run (k + 1) s = andThen (step s) (core.run k) := by
  simp only [core, Host.Core.run]
  cases step s <;> rfl

theorem run_of_step {s u : State} (k : Nat) (h : step s = .next u) : core.run (k + 1) s = core.run k u := by
  rw [run_succ, h]
  rfl

theorem run_one (s : State) : core.run 1 s = step s := by
  rw [run_succ]
  cases step s <;> rfl

/-- Running through as many transactions as come before the completion is the completion, of a command that runs on as it was
accepted (R256, R257). -/
theorem run_transactions {txs : List HostEvent} (hne : txs ≠ []) (htx : ∀ e, e ∈ txs → e.isTransaction = true) {s : State}
    (hbus : s.bus = txs) (hb : s.status.busy = true) (hw : s.wait = txs.length) :
    ∃ u, RunningKept s u ∧ core.run txs.length s = complete u := by
  induction txs generalizing s with
  | nil => exact absurd rfl hne
  | cons e rest ih =>
    obtain ⟨u, htick, hkept, hwait, hrest⟩ := step_of_running hbus (htx e List.mem_cons_self) hb
    rw [List.length_cons] at hw ⊢
    by_cases hlast : rest = []
    · subst hlast
      exact ⟨u, hkept, (run_one s).trans (htick.trans (tick_of_due (by simp [hwait, hw])))⟩
    · have hpos : 0 < rest.length := List.length_pos_iff.2 hlast
      have hstep : step s = .next { u with wait := u.wait - 1 } := htick.trans (tick_of_not_due (by omega))
      have hkept' : RunningKept s { u with wait := u.wait - 1 } :=
        hkept.trans (runningKept_withWaitAndBus hkept.busy (u.wait - 1) u.bus)
      obtain ⟨y, hy, hrun⟩ := ih hlast (fun x hx => htx x (List.mem_cons_of_mem e hx))
        (s := { u with wait := u.wait - 1 }) hrest hkept'.busy (by rw [hwait, hw, Nat.add_sub_cancel])
      exact ⟨y, hkept'.trans hy, (run_of_step _ hstep).trans hrun⟩

/-- A command accepted with another completion delay, or at once, runs on the same banks, latches and registers (R256). -/
theorem runningKept_accept_latency (v : Word) (s : State) (ls ls' : List Nat) (txs : List HostEvent) :
    RunningKept (accept v { s with latency := ls, bus := txs }) (accept v { s with latency := ls', bus := txs }) :=
  ⟨rfl, rfl, rfl, rfl, rfl, rfl, rfl, rfl, id⟩

/-- Settles O23: the transactions keep the accepted command running, and its effect does not see what they change. -/
theorem completionDelayDoesNotChangeResults : Obligations.CompletionDelayDoesNotChangeResults := by
  intro i s t txs hb hc hne htx hatOnce
  have hnow : runCommand i (accept (encode i) { s with latency := [0], bus := txs }) = .next t := by
    rwa [← exec_of_passed_checks (by exact hb) rfl (by exact hc)]
  have hlater := exec_of_waiting (i := i) (s := { s with latency := [txs.length], bus := txs }) hb (by simpa using hne) hc
  obtain ⟨y, hkept, hrun⟩ := run_transactions hne htx
    (s := accept (encode i) { s with latency := [txs.length], bus := txs }) rfl rfl rfl
  obtain ⟨u, hu, hm, hp, hg, hovf⟩ := ((runningKept_accept_latency _ s [0] _ txs).trans hkept).runCommand hnow
  obtain ⟨-, -, -, -, hbusy, hdone, herr, -⟩ := runCommand_kept hu
  have hdecode : decode y.latch.cmd = .ok i := by rw [hkept.latch]; exact Laws.RoundTrip.all i
  exact ⟨_, u, hlater, hrun.trans ((complete_of_decode hdecode).trans hu), hm, hp, hg, hbusy, hdone,
    herr.trans hkept.err, hovf⟩

/-! ### The interrupt line (R260) -/

/-- What a host transaction does to BUSY, DONE and DONE_IE where it issues no command and before any completion: DONE is cleared
by a one at STATUS, DONE_IE written at IRQ_EN (R35, R36). -/
structure LineEffect (e : Option HostEvent) (s u : State) : Prop where
  busy : u.status.busy = s.status.busy
  done : u.status.done = s.status.done ∨
    ∃ v, e = some (.write 0x020 8 v) ∧ u.status.done = (s.status.done && !v.getLsbD 1)
  doneIe : u.doneIe = s.doneIe ∨ ∃ v, e = some (.write 0x028 8 v) ∧ u.doneIe = v.getLsbD 0

theorem lineEffect_of_kept {e : Option HostEvent} {s u : State} (hst : u.status = s.status) (hie : u.doneIe = s.doneIe) :
    LineEffect e s u :=
  ⟨by rw [hst], .inl (by rw [hst]), .inl hie⟩

/-- The events still pending have no part in the effect. -/
theorem LineEffect.of_withBus {e : Option HostEvent} {rest : List HostEvent} {s u : State}
    (h : LineEffect e { s with bus := rest } u) : LineEffect e s u :=
  ⟨h.busy, h.done, h.doneIe⟩

theorem lineEffect_writeReg (r : Reg) (v : Word) (x : BusResponse) (s : State) :
    LineEffect (some (.write (BitVec.ofNat 18 r.offset) 8 v)) s (writeReg (respond x s) r v) := by
  cases r with
  | status => exact ⟨rfl, .inr ⟨v, rfl, rfl⟩, .inl rfl⟩
  | irqEn => exact ⟨rfl, .inl rfl, .inr ⟨v, rfl, rfl⟩⟩
  | _ => exact lineEffect_of_kept rfl rfl

/-- A host write while a command runs. -/
theorem lineEffect_of_busy {a : BitVec 18} {n : Nat} {v : Word} {s u : State} (hb : s.status.busy = true)
    (h : hostWrite a n v s = .next u) : LineEffect (some (.write a n v)) s u := by
  rcases hostWrite_of_busy hb h with ⟨r, -, rfl, rfl, rfl⟩ | rfl | ⟨-, -, rfl⟩
  · exact lineEffect_writeReg r v _ s
  · exact lineEffect_of_kept rfl rfl
  · exact ⟨rfl, .inl rfl, .inl rfl⟩

/-- What a step does to BUSY, DONE and DONE_IE: its transaction alone, a completion after the transaction, an issue while no
command runs (rejected, completed at once, or left running), or a reset. -/
inductive LineStep (e : Option HostEvent) (s t : State) : Prop
  | transaction (h : LineEffect e s t)
  | completed (u : State) (h : LineEffect e s u) (hs : s.status.busy = true) (ht : t.status.busy = false)
      (hdone : t.status.done = true) (hie : t.doneIe = u.doneIe)
  | issued (v : Word) (he : e = some (.write 0x018 8 v)) (hs : s.status.busy = false)
      (hdone : t.status.done = !t.status.busy) (hie : t.doneIe = s.doneIe)
  | reset (he : e = some .reset) (hdone : t.status.done = false)

theorem LineStep.of_withBus {e : Option HostEvent} {rest : List HostEvent} {s t : State}
    (h : LineStep e { s with bus := rest } t) : LineStep e s t := by
  cases h with
  | transaction h => exact .transaction h.of_withBus
  | completed u h hs ht hdone hie => exact .completed u h.of_withBus hs ht hdone hie
  | issued v he hs hdone hie => exact .issued v he hs hdone hie
  | reset he hdone => exact .reset he hdone

/-- A command's issue while no command runs: DONE is set unless the command is left running (R245, R250, R256). -/
theorem writeCmd_line {v : Word} {s t : State} (hb : s.status.busy = false) (h : writeCmd v s = .next t) :
    t.status.done = !t.status.busy ∧ t.doneIe = s.doneIe := by
  rcases writeCmd_eq_next h with ⟨hbusy, -⟩ | ⟨-, e, -, rfl⟩ | ⟨-, i, -, -, -, rfl⟩ | ⟨-, i, -, -, -, hrun⟩
  · exact absurd (hb.symm.trans hbusy) Bool.false_ne_true
  · exact ⟨by simp [hb], rfl⟩
  · exact ⟨rfl, rfl⟩
  · obtain ⟨⟨-, hie, -⟩, -, -, -, hbusy, hdone, -⟩ := runCommand_kept hrun
    exact ⟨by rw [hbusy, hdone]; rfl, hie⟩

theorem lineStep_of_idle {a : BitVec 18} {n : Nat} {v : Word} {s t : State} (hb : s.status.busy = false)
    (h : hostWrite a n v s = .next t) : LineStep (some (.write a n v)) s t := by
  rcases hostWrite_eq_next h with ⟨r, -, rfl, rfl, rfl⟩ | rfl | ⟨-, b, k, -, rfl⟩ | ⟨rfl, rfl, hcmd⟩
  · exact .transaction (lineEffect_writeReg r v _ s)
  · exact .transaction (lineEffect_of_kept rfl rfl)
  · exact .transaction (lineEffect_of_kept rfl rfl)
  · obtain ⟨hdone, hie⟩ := writeCmd_line (by exact hb) hcmd
    exact .issued v rfl hb hdone hie

theorem LineEffect.complete {e : Option HostEvent} {s u t : State} (h : LineEffect e s u) (hb : s.status.busy = true)
    (ht : complete u = .next t) : LineStep e s t := by
  obtain ⟨i, -, hrun⟩ := complete_eq_next ht
  obtain ⟨⟨-, hie, -⟩, -, -, -, hbusy, hdone, -⟩ := runCommand_kept hrun
  exact .completed u h hb hbusy hdone hie

theorem LineEffect.tick {e : Option HostEvent} {s u t : State} (h : LineEffect e s u) (hb : s.status.busy = true)
    (ht : tick u = .next t) : LineStep e s t := by
  rcases tick_eq_next ht with ⟨-, hc⟩ | ⟨-, rfl⟩
  · exact h.complete hb hc
  · exact .transaction ⟨h.busy, h.done, h.doneIe⟩

theorem step_line {s t : State} (h : step s = .next t) : LineStep s.bus.head? s t := by
  rcases step_eq_next h with ⟨-, -, rfl⟩ | ⟨-, hb, hc⟩ | ⟨rest, he, rfl⟩ | ⟨a, n, rest, he, -, rfl⟩ |
    ⟨a, n, rest, he, hb, ht⟩ | ⟨a, n, v, rest, he, hb, hw⟩ | ⟨a, n, v, rest, u, he, hb, hw, ht⟩
  · exact .transaction (lineEffect_of_kept rfl rfl)
  · exact (lineEffect_of_kept rfl rfl).complete hb hc
  · exact .reset (by rw [he]; rfl) rfl
  · exact .transaction (lineEffect_of_kept (by simp) (by simp))
  · exact (lineEffect_of_kept (by simp) (by simp)).tick hb ht
  · rw [he]
    exact (lineStep_of_idle (s := { s with bus := rest }) hb hw).of_withBus
  · rw [he]
    exact (lineEffect_of_busy (s := { s with bus := rest }) hb hw).of_withBus.tick hb ht

section Line

variable {e : Option HostEvent} {s t : State}

/-- A transaction sets DONE nowhere. -/
theorem LineEffect.done_before {u : State} (h : LineEffect e s u) (hu : u.status.done = true) : s.status.done = true := by
  rcases h.done with hd | ⟨v, -, hd⟩
  · exact hd ▸ hu
  · rw [hd, Bool.and_eq_true] at hu
    exact hu.1

/-- DONE_IE changes only where it is written (R36). -/
theorem LineEffect.doneIe_written {u : State} {b : Bool} (h : LineEffect e s u) (hs : s.doneIe = !b) (hu : u.doneIe = b) :
    ∃ v, e = some (.write 0x028 8 v) ∧ v.getLsbD 0 = b := by
  rcases h.doneIe with hie | ⟨v, he, hie⟩
  · exact absurd (hu.symm.trans (hie.trans hs)) (by simp)
  · exact ⟨v, he, hie.symm.trans hu⟩

/-- DONE is cleared only by a one at STATUS (R35). -/
theorem LineEffect.done_cleared {u : State} (h : LineEffect e s u) (hs : s.status.done = true)
    (hu : u.status.done = false) : ∃ v, e = some (.write 0x020 8 v) ∧ v.getLsbD 1 = true := by
  rcases h.done with hd | ⟨v, he, hd⟩
  · exact absurd (hu.symm.trans (hd.trans hs)) Bool.false_ne_true
  · exact ⟨v, he, by simpa [hs, hu] using hd⟩

theorem irq_eq_true : irq s = true ↔ s.status.done = true ∧ s.doneIe = true := by
  rw [irq, Bool.and_eq_true]

theorem irq_eq_false : irq s = false ↔ s.status.done = false ∨ s.doneIe = false := Bool.and_eq_false_iff

theorem irq_of_done (h : s.status.done = true) : irq s = s.doneIe := by rw [irq, h, Bool.true_and]

/-- A command that has completed has set DONE (R256). -/
theorem LineStep.irq_completed (h : LineStep e s t) (hs : s.status.busy = true) (ht : t.status.busy = false)
    (hreset : e ≠ some .reset) : irq t = t.doneIe := by
  cases h with
  | transaction h => exact absurd (ht.symm.trans (h.busy.trans hs)) Bool.false_ne_true
  | completed u _ _ _ hdone _ => exact irq_of_done hdone
  | issued v _ hs' _ _ => exact absurd (hs'.symm.trans hs) Bool.false_ne_true
  | reset he _ => exact absurd he hreset

/-- Where the line rises (R250, R256, R260). -/
theorem LineStep.irq_rises (h : LineStep e s t) (hs : irq s = false) (ht : irq t = true) :
    (s.status.busy = true ∧ t.status.busy = false) ∨
    (s.status.busy = false ∧ t.status.busy = false ∧ ∃ v, e = some (.write 0x018 8 v)) ∨
    (s.status.done = true ∧ ∃ v, e = some (.write 0x028 8 v) ∧ v.getLsbD 0 = true) := by
  obtain ⟨hdone, hie⟩ := irq_eq_true.1 ht
  cases h with
  | transaction h =>
    have hdone' := h.done_before hdone
    have hie' : s.doneIe = false := by rwa [irq_of_done hdone'] at hs
    exact .inr (.inr ⟨hdone', h.doneIe_written hie' hie⟩)
  | completed u _ hs' ht' _ _ => exact .inl ⟨hs', ht'⟩
  | issued v he hs' hdone' _ => exact .inr (.inl ⟨hs', by simpa [hdone] using hdone', v, he⟩)
  | reset _ hdone' => exact absurd (hdone'.symm.trans hdone) Bool.false_ne_true

/-- Where the line falls (R245, R260, R261, R281). -/
theorem LineStep.irq_falls (h : LineStep e s t) (hs : irq s = true) (ht : irq t = false) :
    (∃ v, e = some (.write 0x020 8 v) ∧ v.getLsbD 1 = true) ∨
    (∃ v, e = some (.write 0x028 8 v) ∧ v.getLsbD 0 = false) ∨
    (s.status.busy = false ∧ t.status.busy = true ∧ ∃ v, e = some (.write 0x018 8 v)) ∨ e = some .reset := by
  obtain ⟨hdone, hie⟩ := irq_eq_true.1 hs
  cases h with
  | transaction h =>
    rcases irq_eq_false.1 ht with hdone' | hie'
    · exact .inl (h.done_cleared hdone hdone')
    · exact .inr (.inl (h.doneIe_written hie hie'))
  | completed u h _ _ hdone' hie' =>
    rw [irq_of_done hdone', hie'] at ht
    exact .inr (.inl (h.doneIe_written hie ht))
  | issued v he hs' hdone' hie' =>
    have hbusy : t.status.busy = true := by simpa [irq, hdone', hie', hie] using ht
    exact .inr (.inr (.inl ⟨hs', hbusy, v, he⟩))
  | reset he _ => exact .inr (.inr (.inr he))

end Line

/-- A command's word while no command runs leaves the line at DONE_IE, or low where the command is left running. -/
theorem irq_of_issued {s t : State} (h : t.status.done = !t.status.busy ∧ t.doneIe = s.doneIe) :
    (t.status.busy = false → irq t = s.doneIe) ∧ (t.status.busy = true → irq t = false) := by
  obtain ⟨hdone, hie⟩ := h
  exact ⟨fun hb => by simp [irq, hdone, hie, hb], fun hb => by simp [irq, hdone, hb]⟩

/-- Settles O12: over a command by its issue, over a step by what it does to DONE and DONE_IE. -/
theorem interruptLineFollowsDone : Obligations.InterruptLineFollowsDone := by
  refine ⟨fun _ => rfl, fun i s t h => ?_, fun s t h => ?_⟩
  · have hcmd : writeCmd (encode i) s = .next t := (writeCmd_of_decode (Laws.RoundTrip.all i) s).trans h
    have hissued (hb : s.status.busy = false) := irq_of_issued (writeCmd_line hb hcmd)
    refine ⟨fun hb => ?_, fun hb => (hissued hb).1, fun hb => (hissued hb).2⟩
    rw [exec_of_busy hb] at h
    cases h
    rfl
  · have hline := step_line h
    exact ⟨hline.irq_completed, hline.irq_rises, hline.irq_falls⟩

end Sys2Proof.Machine

/-! PROOFS. The reset family of spec/70_reset_and_hazards.md: what a reset event leaves, whatever the block was doing. -/

namespace Sys2Proof.Machine

open Sys2Proof

/-- A pending reset is the whole step: no completion event follows it, also where a command was running (R283). -/
theorem step_reset {s : State} {rest : List HostEvent} (h : s.bus = .reset :: rest) :
    step s = .next (resetBlock { s with bus := rest }) :=
  step_cons h

/-- No register shows what a reset keeps beside the parameters (R281). -/
theorem readReg_resetBlock (s : State) (r : Reg) : readReg (resetBlock s) r = readReg (State.resetWith s.config) r := by
  cases r <;> rfl

/-- DONE is clear after a reset, so the line is low (R260, R281). -/
theorem irq_resetBlock (s : State) : irq (resetBlock s) = false := rfl

/-- Settles O35: the step is the reset itself, which takes every field the statement names from the reset state of the build. -/
theorem resetEndsAnyCommand : Obligations.ResetEndsAnyCommand := by
  intro s rest h
  exact ⟨resetBlock { s with bus := rest }, step_reset h, rfl, rfl, rfl, rfl, irq_resetBlock _, readReg_resetBlock _⟩

end Sys2Proof.Machine
